-- ==== Sys2Proof/Word.lean ====
section
/-! DEFINITION. The words of the block (spec/00_scope.md R9): bytes, nibbles, byte addresses, bit
positions, register words, the 64-bit command word; all unsigned, bit 0 the least significant. -/

namespace Sys2Proof

/-- A byte. -/
abbrev Byte := BitVec 8

/-- A nibble, half a byte. -/
abbrev Nibble := BitVec 4

/-- A ByteAddress, 0..8191 (R6 `ADDR_BITS`, R13). -/
abbrev ByteAddr := BitVec 13

/-- A BitPosition, 0..7 (R13); bit `b` of a byte has weight 2^b (R9). -/
abbrev BitPos := BitVec 3

/-- A controller register word, and the magic word (R7, R29). -/
abbrev RegWord := BitVec 32

/-- A command word (R80). -/
abbrev CmdWord := BitVec 64

end Sys2Proof
end

