-- ==== Sys2Proof/Syntax.lean ====
section
/-! DEFINITION. The operations of the block as syntax (spec/30_encoding.md): one constructor of
`Instr` per row of spec/opcode_table.json, with its operands in the order of R82's formats; the
command the host issues (R80); mnemonics and assembler text (R83, R88). -/

namespace Sys2Proof

/-- A storage array (R13 StorageArray). -/
inductive StorageArray where
  | key
  | fuse
  deriving DecidableEq, Repr, Inhabited

/-- A key type (R13 KeySlot). -/
inductive KeyType where
  | aes
  | ecc
  deriving DecidableEq, Repr, Inhabited

/-- The operations of R83, one constructor per row of the opcode table. The operand fields are
those of R81: `BitVec`s of the field's width, Booleans for one-bit flags, the host buffer (R74, R80)
for the codec operations. -/
inductive Instr where
  /-- NP_ENCODE, R105. -/
  | npEncode (buf : List Byte)
  /-- NP_DECODE, R106. -/
  | npDecode (buf : List Byte)
  /-- MAJ_ENCODE, R130. -/
  | majEncode (buf : List Byte)
  /-- MAJ_DECODE, R131. -/
  | majDecode (buf : List Byte)
  /-- CHECK_READ_ALLOWED, R151. -/
  | checkReadAllowed (blk : BitVec 8)
  /-- CHECK_WRITE_ALLOWED, R152. -/
  | checkWriteAllowed (blk : BitVec 8)
  /-- SET_BLOCK_ACCESS, R153. -/
  | setBlockAccess (blk : BitVec 8) (lr lw lg : Bool)
  /-- WAIT_READY, R171. -/
  | waitReady (tmo : BitVec 32)
  /-- READ_BYTE, R172. -/
  | readByte (arr : StorageArray) (addr : ByteAddr)
  /-- BIT_IS_PROGRAMMED, R173. -/
  | bitIsProgrammed (arr : StorageArray) (addr : ByteAddr) (bit : BitPos)
  /-- PROGRAM_BIT, R176. -/
  | programBit (arr : StorageArray) (addr : ByteAddr) (bit : BitPos) (vfy : Bool)
  /-- PROGRAM_BYTE, R184. -/
  | programByte (arr : StorageArray) (addr : ByteAddr) (val : Byte)
  /-- INIT, R186. -/
  | init (clk : BitVec 8)
  /-- READ_KEY, R230. -/
  | readKey (kt : KeyType) (kidx : BitVec 8)
  /-- SELECT_KEY, R231. -/
  | selectKey (kidx : BitVec 8)
  /-- UPLOAD_KEY, R232. -/
  | uploadKey (ksz kidx : BitVec 8)
  /-- DISABLE_KEY_ACCESS, R233. -/
  | disableKeyAccess
  /-- MAGIC_INIT, R260. -/
  | magicInit (imm : BitVec 32)
  /-- MAGIC_ACCUMULATE, R261. -/
  | magicAccumulate (imm : BitVec 32)
  /-- MAGIC_GET, R262. -/
  | magicGet
  deriving DecidableEq, Repr

/-- A command (R80): a 64-bit word, with or without one host byte buffer beside it. -/
structure Command where
  word : CmdWord
  buf : Option (List Byte)
  deriving DecidableEq, Repr

/-- The mnemonic of an operation (R83). -/
def Instr.mnemonic : Instr → String
  | .npEncode _ => "NP_ENCODE"
  | .npDecode _ => "NP_DECODE"
  | .majEncode _ => "MAJ_ENCODE"
  | .majDecode _ => "MAJ_DECODE"
  | .checkReadAllowed _ => "CHECK_READ_ALLOWED"
  | .checkWriteAllowed _ => "CHECK_WRITE_ALLOWED"
  | .setBlockAccess _ _ _ _ => "SET_BLOCK_ACCESS"
  | .waitReady _ => "WAIT_READY"
  | .readByte _ _ => "READ_BYTE"
  | .bitIsProgrammed _ _ _ => "BIT_IS_PROGRAMMED"
  | .programBit _ _ _ _ => "PROGRAM_BIT"
  | .programByte _ _ _ => "PROGRAM_BYTE"
  | .init _ => "INIT"
  | .readKey _ _ => "READ_KEY"
  | .selectKey _ => "SELECT_KEY"
  | .uploadKey _ _ => "UPLOAD_KEY"
  | .disableKeyAccess => "DISABLE_KEY_ACCESS"
  | .magicInit _ => "MAGIC_INIT"
  | .magicAccumulate _ => "MAGIC_ACCUMULATE"
  | .magicGet => "MAGIC_GET"

/-- `KEY` or `FUSE` (R88). -/
def StorageArray.text : StorageArray → String
  | .key => "KEY"
  | .fuse => "FUSE"

/-- `AES` or `ECC` (R88). -/
def KeyType.text : KeyType → String
  | .aes => "AES"
  | .ecc => "ECC"

/-- A Boolean operand, `0` or `1` (R88). -/
def flagText (b : Bool) : String := if b then "1" else "0"

/-- A buffer, `[b0, b1, ...]` (R88). -/
def bufText (b : List Byte) : String :=
  "[" ++ ", ".intercalate (b.map fun x => toString x.toNat) ++ "]"

/-- The operands as R88 writes them, in the order of the format's row, numbers in decimal. -/
def Instr.operandTexts : Instr → List String
  | .npEncode b => [bufText b]
  | .npDecode b => [bufText b]
  | .majEncode b => [bufText b]
  | .majDecode b => [bufText b]
  | .checkReadAllowed blk => [toString blk.toNat]
  | .checkWriteAllowed blk => [toString blk.toNat]
  | .setBlockAccess blk lr lw lg => [toString blk.toNat, flagText lr, flagText lw, flagText lg]
  | .waitReady tmo => [toString tmo.toNat]
  | .readByte a addr => [a.text, toString addr.toNat]
  | .bitIsProgrammed a addr bit => [a.text, toString addr.toNat, toString bit.toNat]
  | .programBit a addr bit vfy =>
    [a.text, toString addr.toNat, toString bit.toNat, flagText vfy]
  | .programByte a addr val => [a.text, toString addr.toNat, toString val.toNat]
  | .init clk => [toString clk.toNat]
  | .readKey kt kidx => [kt.text, toString kidx.toNat]
  | .selectKey kidx => [toString kidx.toNat]
  | .uploadKey ksz kidx => [toString ksz.toNat, toString kidx.toNat]
  | .disableKeyAccess => []
  | .magicInit imm => [toString imm.toNat]
  | .magicAccumulate imm => [toString imm.toNat]
  | .magicGet => []

/-- Assembler text (R88): the mnemonic, then the operands separated by commas. -/
def Instr.asm (i : Instr) : String :=
  match i.operandTexts with
  | [] => i.mnemonic
  | ops => i.mnemonic ++ " " ++ ", ".intercalate ops

end Sys2Proof
end

