-- ==== Sys2Proof/Config.lean ====
section
/-! DEFINITION. What is fixed for a run (spec/00_scope.md R5, R6, R7): the numbers the source fixes,
the configuration and launch parameters it leaves open, the laws every admitted configuration obeys,
and the free values behind the draws (R12). REG_LAYOUT (R8) is not modelled: no rule depends on it. -/

namespace Sys2Proof

/-- `WAIT_TIMEOUT` (R6): the poll count of every internal WaitReady. -/
def waitTimeout : Nat := 4096

/-- `MAX_PULSES` (R6). -/
def maxPulses : Nat := 20

/-- `MIN_PULSES` (R6). -/
def minPulses : Nat := 4

/-- `SCRUB` (R6). -/
def scrub : Byte := 0x01

/-- `NP_SENTINEL` (R6): the high nibble of an uncorrectable decode entry. -/
def npSentinel : Nibble := 0xF

/-- `ARRAY_BYTES` (R6). -/
def arrayBytes : Nat := 8192

/-- `PROG_ALGO` (R5). -/
inductive ProgAlgo where
  | smart
  | legacy
  deriving DecidableEq, Repr, Inhabited

/-- The three 8-bit lock registers of one index r: RLOCK[r], WLOCK[r], RGLOCK[r] (R26). -/
structure LockRegs where
  read : Byte
  write : Byte
  reg : Byte
  deriving DecidableEq, Repr, Inhabited

/-- The values after a power-on reset of the register fields R300 leaves unspecified.
DESIGN CHOICE (log entry 8): a launch parameter, the same at every power-on reset. Unsafe. -/
structure PorRegs where
  ack : Bool
  arr : StorageArray
  byteAddr : ByteAddr
  bitPos : BitPos
  data : Byte
  inProg : Bool
  smart : Bool
  clkMhz : BitVec 8
  kind : BitVec 4
  ksize : BitVec 8
  deriving DecidableEq, Repr, Inhabited

/-- The configuration and the launch parameters (R5, R7), plain data. -/
structure Config where
  /-- `PROG_ALGO`. -/
  progAlgo : ProgAlgo
  /-- `MAGIC_CAP`. -/
  magicCap : Bool
  /-- `NP_ENC` (R101). -/
  npEnc : Vector Byte 16
  /-- `NP_DEC` (R102). -/
  npDec : Vector Byte 256
  /-- `NUM_LOCK_REGS` less 6: R7 asks for at least 6 (log entry 12). -/
  extraLockRegs : Nat
  /-- `ARM_VALUE`. -/
  armValue : RegWord
  /-- `READ_CMD`. -/
  readCmd : RegWord
  /-- `PROG_CMD`. -/
  progCmd : RegWord
  /-- `SELECT_KEY_RETRIES`. -/
  selectKeyRetries : Nat
  /-- `LOCK_POR`. -/
  lockPor : List LockRegs
  /-- `KEYDIS_POR`. -/
  keydisPor : Bool
  /-- `ECCDIS0`. -/
  eccdis0 : Bool
  /-- The unspecified register values after a power-on reset (log entry 8). -/
  regsPor : PorRegs
  /-- `Arr0` of KeyArray: the bytes that are not 0x00, by address (log entry 11). -/
  key0 : List (Nat × Byte)
  /-- `Arr0` of FuseArray. -/
  fuse0 : List (Nat × Byte)
  deriving DecidableEq, Repr, Inhabited

/-- `NUM_LOCK_REGS` (R7). -/
def Config.numLockRegs (c : Config) : Nat := c.extraLockRegs + 6

/-- `NP_ENC[n]` (R101). -/
def Config.enc (c : Config) (n : Nibble) : Byte := c.npEnc.get n.toFin

/-- `NP_DEC[e]` (R102). -/
def Config.dec (c : Config) (e : Byte) : Byte := c.npDec.get e.toFin

/-- The corrected value of a decode entry, its low nibble (R102). -/
def Config.decValue (c : Config) (e : Byte) : Nibble := (c.dec e).extractLsb' 0 4

/-- The report of a decode entry, its high nibble (R102): 0, the corrected bit plus 1, or the
sentinel. -/
def Config.decReport (c : Config) (e : Byte) : Nibble := (c.dec e).extractLsb' 4 4

/-- `flip(e, k)` (R103): the byte with bit k inverted. -/
def flipBit (e : Byte) (k : BitPos) : Byte := e ^^^ (1#8 <<< k.toNat)

/-- The number of bit positions at which two bytes differ. -/
def hamming (x y : Byte) : Nat :=
  (List.range 8).countP fun j => (x.getLsbD j) != (y.getLsbD j)

/-- Law L1 (R103): round trip. -/
abbrev Config.L1 (c : Config) : Prop :=
  ∀ n : Nibble, c.decValue (c.enc n) = n ∧ c.decReport (c.enc n) = 0

/-- Law L2 (R103): single-bit correction. -/
abbrev Config.L2 (c : Config) : Prop :=
  ∀ (n : Nibble) (k : BitPos),
    c.decValue (flipBit (c.enc n) k) = n ∧ c.decReport (flipBit (c.enc n) k) = k.setWidth 4 + 1

/-- Law L3 (R103): double-bit detection. -/
abbrev Config.L3 (c : Config) : Prop :=
  ∀ (n : Nibble) (j k : BitPos), j < k →
    c.decReport (flipBit (flipBit (c.enc n) j) k) = npSentinel

/-- Law L4 (R103): no false correction. -/
abbrev Config.L4 (c : Config) : Prop :=
  ∀ e : Byte, (∀ n : Nibble, 2 ≤ hamming e (c.enc n)) → c.decReport e = npSentinel

/-- The table laws of R103. -/
abbrev Config.TableLaws (c : Config) : Prop := c.L1 ∧ c.L2 ∧ c.L3 ∧ c.L4

/-- The command values are distinct (R174). -/
abbrev Config.DistinctCommands (c : Config) : Prop :=
  c.armValue ≠ c.progCmd ∧ c.armValue ≠ c.readCmd ∧ c.readCmd ≠ c.progCmd

/-- An admitted configuration: the table laws (R103), distinct command values (R174), one triple of
lock values for each lock register (R26). -/
abbrev Config.Lawful (c : Config) : Prop :=
  c.TableLaws ∧ c.DistinctCommands ∧ c.lockPor.length = c.numLockRegs

/-- `NP_REF_ENC` (R104). -/
def npRefEnc : Vector Byte 16 :=
  #v[0x00, 0xE1, 0xD2, 0x33, 0xB4, 0x55, 0x66, 0x87,
     0x78, 0x99, 0xAA, 0x4B, 0xCC, 0x2D, 0x1E, 0xFF]

/-- `NP_REF_DEC` (R104), rows 0_ to 7_. -/
def npRefDecLow : Vector Byte 128 :=
  #v[0x00, 0x10, 0x20, 0xF3, 0x30, 0xF5, 0xF6, 0x87, 0x40, 0xF9, 0xFA, 0x7B, 0xFC, 0x6D, 0x5E, 0xFF,
     0x50, 0xF1, 0xF2, 0x63, 0xF4, 0x75, 0x4E, 0xF7, 0xF8, 0x89, 0x3E, 0xFB, 0x2E, 0xFD, 0x0E, 0x1E,
     0x60, 0xF1, 0xF2, 0x53, 0xF4, 0x4D, 0x76, 0xF7, 0xF8, 0x3D, 0x8A, 0xFB, 0x1D, 0x0D, 0xFE, 0x2D,
     0xF0, 0x23, 0x13, 0x03, 0x84, 0xF5, 0xF6, 0x33, 0x78, 0xF9, 0xFA, 0x43, 0xFC, 0x5D, 0x6E, 0xFF,
     0x70, 0xF1, 0xF2, 0x4B, 0xF4, 0x55, 0x66, 0xF7, 0xF8, 0x2B, 0x1B, 0x0B, 0x8C, 0xFD, 0xFE, 0x3B,
     0xF0, 0x35, 0x82, 0xF3, 0x15, 0x05, 0xF6, 0x25, 0x68, 0xF9, 0xFA, 0x5B, 0xFC, 0x45, 0x7E, 0xFF,
     0xF0, 0x81, 0x36, 0xF3, 0x26, 0xF5, 0x06, 0x16, 0x58, 0xF9, 0xFA, 0x6B, 0xFC, 0x7D, 0x46, 0xFF,
     0x48, 0xF1, 0xF2, 0x73, 0xF4, 0x65, 0x56, 0xF7, 0x08, 0x18, 0x28, 0xFB, 0x38, 0xFD, 0xFE, 0x8F]

/-- `NP_REF_DEC` (R104), rows 8_ to F_. -/
def npRefDecHigh : Vector Byte 128 :=
  #v[0x80, 0xF1, 0xF2, 0x37, 0xF4, 0x27, 0x17, 0x07, 0xF8, 0x59, 0x6A, 0xFB, 0x7C, 0xFD, 0xFE, 0x47,
     0xF0, 0x49, 0x72, 0xF3, 0x64, 0xF5, 0xF6, 0x57, 0x19, 0x09, 0xFA, 0x29, 0xFC, 0x39, 0x8E, 0xFF,
     0xF0, 0x71, 0x4A, 0xF3, 0x54, 0xF5, 0xF6, 0x67, 0x2A, 0xF9, 0x0A, 0x1A, 0xFC, 0x8D, 0x3A, 0xFF,
     0x34, 0xF1, 0xF2, 0x83, 0x04, 0x14, 0x24, 0xF7, 0xF8, 0x69, 0x5A, 0xFB, 0x44, 0xFD, 0xFE, 0x7F,
     0xF0, 0x61, 0x52, 0xF3, 0x4C, 0xF5, 0xF6, 0x77, 0x3C, 0xF9, 0xFA, 0x8B, 0x0C, 0x1C, 0x2C, 0xFF,
     0x22, 0xF1, 0x02, 0x12, 0xF4, 0x85, 0x32, 0xF7, 0xF8, 0x79, 0x42, 0xFB, 0x5C, 0xFD, 0xFE, 0x6F,
     0x11, 0x01, 0xF2, 0x21, 0xF4, 0x31, 0x86, 0xF7, 0xF8, 0x41, 0x7A, 0xFB, 0x6C, 0xFD, 0xFE, 0x5F,
     0xF0, 0x51, 0x62, 0xF3, 0x74, 0xF5, 0xF6, 0x4F, 0x88, 0xF9, 0xFA, 0x3F, 0xFC, 0x2F, 0x1F, 0x0F]

/-- `NP_REF_DEC` (R104). -/
def npRefDec : Vector Byte 256 := npRefDecLow ++ npRefDecHigh

/-- The instance spec/95_test_vectors.md section 0 uses: NP_REF, six lock registers all 0, Smart, no
magic word, eight retries, all launch values 0; the command values are any distinct ones. It is no
claim about the hardware: it shows that admitted configurations exist, and serves the tests. -/
def Config.ref : Config where
  progAlgo := .smart
  magicCap := false
  npEnc := npRefEnc
  npDec := npRefDec
  extraLockRegs := 0
  armValue := 0x000000A5
  readCmd := 0x00000002
  progCmd := 0x00C0FFEE
  selectKeyRetries := 8
  lockPor := List.replicate 6 ⟨0, 0, 0⟩
  keydisPor := false
  eccdis0 := false
  regsPor :=
    { ack := false, arr := .key, byteAddr := 0, bitPos := 0, data := 0, inProg := false,
      smart := false, clkMhz := 0, kind := 0, ksize := 0 }
  key0 := []
  fuse0 := []

theorem Config.ref_L1 : Config.ref.L1 := by decide +kernel

theorem Config.ref_L2 : Config.ref.L2 := by decide +kernel

theorem Config.ref_L3 : Config.ref.L3 := by decide +kernel

theorem Config.ref_L4 : Config.ref.L4 := by decide +kernel

theorem Config.ref_lawful : Config.ref.Lawful :=
  ⟨⟨ref_L1, ref_L2, ref_L3, ref_L4⟩, by decide, by decide⟩

/-- The tables are those of a configuration if they meet the laws, else those of NP_REF. -/
def Config.repairedTables (c : Config) : Config :=
  if c.TableLaws then c else { c with npEnc := npRefEnc, npDec := npRefDec }

/-- The command values are those of a configuration if they are distinct, else those of
`Config.ref`. -/
def Config.repairedCommands (c : Config) : RegWord × RegWord × RegWord :=
  if c.DistinctCommands then (c.armValue, c.readCmd, c.progCmd)
  else (Config.ref.armValue, Config.ref.readCmd, Config.ref.progCmd)

/-- The configuration with whatever breaks a law replaced: every lawful configuration is left as it
is (`Config.repaired_of_lawful`), and the outcome is always lawful (`Config.repaired_lawful`). -/
def Config.repaired (c : Config) : Config :=
  { c with
    npEnc := c.repairedTables.npEnc
    npDec := c.repairedTables.npDec
    armValue := c.repairedCommands.1
    readCmd := c.repairedCommands.2.1
    progCmd := c.repairedCommands.2.2
    lockPor := (List.range c.numLockRegs).map fun r => c.lockPor.getD r ⟨0, 0, 0⟩ }

theorem Config.repaired_tableLaws (c : Config) : c.repaired.TableLaws := by
  have key : c.repairedTables.TableLaws := by
    unfold Config.repairedTables
    split
    · assumption
    · exact ⟨ref_L1, ref_L2, ref_L3, ref_L4⟩
  exact key

theorem Config.repaired_distinctCommands (c : Config) : c.repaired.DistinctCommands := by
  have key : c.repairedCommands.1 ≠ c.repairedCommands.2.2 ∧ c.repairedCommands.1 ≠ c.repairedCommands.2.1 ∧
      c.repairedCommands.2.1 ≠ c.repairedCommands.2.2 := by
    unfold Config.repairedCommands
    split
    · assumption
    · decide
  exact key

theorem Config.repaired_lawful (c : Config) : c.repaired.Lawful :=
  ⟨c.repaired_tableLaws, c.repaired_distinctCommands, by simp [Config.repaired, Config.numLockRegs]⟩

/-- No admitted configuration is lost. -/
theorem Config.repaired_of_lawful {c : Config} (h : c.Lawful) : c.repaired = c := by
  obtain ⟨ht, hd, hl⟩ := h
  have hmap : (List.range c.numLockRegs).map (fun r => c.lockPor.getD r ⟨0, 0, 0⟩) = c.lockPor := by
    apply List.ext_getElem
    · simp [hl]
    · intro i h1 h2
      simp [h2]
  simp only [Config.repaired, Config.repairedTables, if_pos ht, Config.repairedCommands, if_pos hd, hmap]

/-- The configuration this machine is launched with (R5, R7), before anything is known of it. -/
opaque Config.launchData : Config

/-- The configuration this machine is launched with (R5, R7): nothing but its lawfulness can be
proved of it (log entry 2). -/
def Config.launch : Config := Config.launchData.repaired

/-- The free value behind the n-th draw, where the draw is `drawReady()` (R12, R31; log entry 3). -/
opaque Config.freeReady : Nat → Bool

/-- The free value behind the n-th draw, where the draw is `drawPulse()` (R12, R174). -/
opaque Config.freePulse : Nat → Bool

/-- The free value behind the n-th draw, where the draw is `drawKval()` (R12, R44). -/
opaque Config.freeKval : Nat → Bool

/-- The free value behind the n-th draw, where the draw is `drawByte()` (R12, R172). -/
opaque Config.freeByte : Nat → Byte

end Sys2Proof
end

