-- ==== Sys2Proof/WellFormed.lean ====
section
/-! DEFINITION. What makes a command legal (spec/30_encoding.md R84), written from the masks of
spec/opcode_table.json and so independently of the decoder, and which operand values lie in the
source's ranges (R81, R85). Every `Instr` is well-formed as syntax: its fields have the widths of
R81, so no term of the type is ill-formed; what can be ill-formed is a command. -/

namespace Sys2Proof

/-- One row of the opcode table: a word belongs to it when it equals `code` under `mask`; `buffer`
says whether the row's format is FB (R80). -/
structure OpcodeRow where
  mnemonic : String
  code : CmdWord
  mask : CmdWord
  buffer : Bool
  deriving DecidableEq, Repr

/-- The rows of spec/opcode_table.json, in its order. -/
def opcodeTable : List OpcodeRow :=
  [
    ⟨"NP_ENCODE", 0x0000000000000020, 0xFFFFFFFFFFFFFFFF, true⟩,
    ⟨"NP_DECODE", 0x0000000000000021, 0xFFFFFFFFFFFFFFFF, true⟩,
    ⟨"MAJ_ENCODE", 0x0000000000000022, 0xFFFFFFFFFFFFFFFF, true⟩,
    ⟨"MAJ_DECODE", 0x0000000000000023, 0xFFFFFFFFFFFFFFFF, true⟩,
    ⟨"CHECK_READ_ALLOWED", 0x0000000000000010, 0xFFFFFFFFFFFF00FF, false⟩,
    ⟨"CHECK_WRITE_ALLOWED", 0x0000000000000011, 0xFFFFFFFFFFFF00FF, false⟩,
    ⟨"SET_BLOCK_ACCESS", 0x0000000000000012, 0xFFFFFFFFFFF800FF, false⟩,
    ⟨"WAIT_READY", 0x0000000000000002, 0xFFFFFF00000000FF, false⟩,
    ⟨"READ_BYTE", 0x0000000000000003, 0xFFFFFFFFFFC000FF, false⟩,
    ⟨"BIT_IS_PROGRAMMED", 0x0000000000000004, 0xFFFFFFFFFE0000FF, false⟩] ++
  [
    ⟨"PROGRAM_BIT", 0x0000000000000005, 0xFFFFFFFFFC0000FF, false⟩,
    ⟨"PROGRAM_BYTE", 0x0000000000000006, 0xFFFFFFFFC00000FF, false⟩,
    ⟨"INIT", 0x0000000000000001, 0xFFFFFFFFFFFF00FF, false⟩,
    ⟨"READ_KEY", 0x0000000000000030, 0xFFFFFFFFFFFE00FF, false⟩,
    ⟨"SELECT_KEY", 0x0000000000000031, 0xFFFFFFFFFFFF00FF, false⟩,
    ⟨"UPLOAD_KEY", 0x0000000000000032, 0xFFFFFFFFFF0000FF, false⟩,
    ⟨"DISABLE_KEY_ACCESS", 0x0000000000000033, 0xFFFFFFFFFFFFFFFF, false⟩,
    ⟨"MAGIC_INIT", 0x0000000000000040, 0xFFFFFF00000000FF, false⟩,
    ⟨"MAGIC_ACCUMULATE", 0x0000000000000041, 0xFFFFFF00000000FF, false⟩,
    ⟨"MAGIC_GET", 0x0000000000000042, 0xFFFFFFFFFFFFFFFF, false⟩]

/-- The operation code `OP`, bits 7:0 (R80). -/
def CmdWord.op (w : CmdWord) : BitVec 8 := w.extractLsb' 0 8

/-- The row with the command's operation code, if there is one (R83). -/
def Command.row (c : Command) : Option OpcodeRow :=
  opcodeTable.find? fun r => CmdWord.op r.code == CmdWord.op c.word

/-- R84, first condition: `w[7:0]` is one of the codes of R83. -/
def Command.codeKnown (c : Command) : Bool := c.row.isSome

/-- R84, second condition: every bit outside the fields of the format is 0. -/
def Command.unassignedZero (c : Command) : Bool :=
  match c.row with
  | none => true
  | some r => c.word &&& r.mask == r.code

/-- R84, third condition: a buffer is present if and only if the format is FB. -/
def Command.bufferFits (c : Command) : Bool :=
  match c.row with
  | none => true
  | some r => c.buf.isSome == r.buffer

/-- A legal command (R84). -/
def Command.wellFormed (c : Command) : Bool :=
  c.codeKnown && c.unassignedZero && c.bufferFits

/-- The number of key slots of a type, `AES_SLOTS` or `ECC_SLOTS` (R6). -/
def KeyType.slots : KeyType → Nat
  | .aes => 4
  | .ecc => 16

/-- The operand values lie in the ranges the source gives (R81, and R85 for a `TMO` of 0 and the
buffer lengths). A value outside is no illegal encoding: R85 lists the rule that settles each. Every
`CLK` is a byte and so in range; that INIT faults on 0 is R186's. -/
def Instr.inSourceRange (c : Config) : Instr → Bool
  | .npEncode _ => true
  | .npDecode b => b.length % 2 == 0
  | .majEncode _ => true
  | .majDecode b => b.length % 3 == 0
  | .checkReadAllowed blk => blk.toNat < 8 * c.numLockRegs
  | .checkWriteAllowed blk => blk.toNat < 8 * c.numLockRegs
  | .setBlockAccess blk _ _ _ => blk.toNat < 8 * c.numLockRegs
  | .waitReady tmo => tmo != 0
  | .readByte _ _ => true
  | .bitIsProgrammed _ _ _ => true
  | .programBit _ _ _ _ => true
  | .programByte _ _ _ => true
  | .init _ => true
  | .readKey kt kidx => kidx.toNat < kt.slots
  | .selectKey kidx => kidx.toNat < 16
  | .uploadKey _ kidx => kidx.toNat < 16
  | .disableKeyAccess => true
  | .magicInit _ => true
  | .magicAccumulate _ => true
  | .magicGet => true

end Sys2Proof
end

