-- ==== Sys2Proof/Decode.lean ====
section
/-! DEFINITION. The decoder, total on any 64-bit word and any buffer, refusing by name
(spec/30_encoding.md R80, R82, R83, R84), and after it the encoder, written from the same tables. -/

namespace Sys2Proof

/-- Why a command is illegal: the condition of R84 it breaks, or R80's for a buffer. -/
inductive DecodeError where
  /-- `w[7:0]` is a reserved code (R84). -/
  | reservedCode
  /-- A bit outside the fields of the format is not 0 (R84). -/
  | unassignedBits
  /-- A codec command without its buffer (R84). -/
  | bufferMissing
  /-- Another command with a buffer (R80, R84). -/
  | bufferUnexpected
  deriving DecidableEq, Repr

/-- A one-bit field at bit `k` as a flag (R81, R82). -/
def CmdWord.flag (w : CmdWord) (k : Nat) : Bool := w.getLsbD k

/-- The operand field of `n` bits from bit `lo` on (R82). -/
def CmdWord.field (w : CmdWord) (lo n : Nat) : BitVec n := w.extractLsb' lo n

/-- `ARR`: 0 is KeyArray, 1 is FuseArray (R81). -/
def StorageArray.ofBit : Bool → StorageArray
  | false => .key
  | true => .fuse

/-- `KT`: 0 is AES, 1 is ECC (R81). -/
def KeyType.ofBit : Bool → KeyType
  | false => .aes
  | true => .ecc

/-- A command whose format takes no buffer and uses the low `width` bits of the word: decodes to `i`
when R84's other two conditions hold. -/
def decodePlain (c : Command) (width : Nat) (i : Instr) : Except DecodeError Instr :=
  if 2 ^ width ≤ c.word.toNat then .error .unassignedBits
  else match c.buf with
    | none => .ok i
    | some _ => .error .bufferUnexpected

/-- A command of format FB (R82): the operation code alone in the word, and a buffer. -/
def decodeBuffered (c : Command) (mk : List Byte → Instr) : Except DecodeError Instr :=
  if 2 ^ 8 ≤ c.word.toNat then .error .unassignedBits
  else match c.buf with
    | some b => .ok (mk b)
    | none => .error .bufferMissing

/-- The decoder (R84): the operation codes of R83, each with the fields of its format (R82). -/
def decode (c : Command) : Except DecodeError Instr :=
  let w := c.word
  match (CmdWord.field w 0 8).toNat with
  | 0x01 => decodePlain c 16 (.init (CmdWord.field w 8 8))
  | 0x02 => decodePlain c 40 (.waitReady (CmdWord.field w 8 32))
  | 0x03 => decodePlain c 22
      (.readByte (.ofBit (CmdWord.flag w 8)) (CmdWord.field w 9 13))
  | 0x04 => decodePlain c 25
      (.bitIsProgrammed (.ofBit (CmdWord.flag w 8)) (CmdWord.field w 9 13) (CmdWord.field w 22 3))
  | 0x05 => decodePlain c 26
      (.programBit (.ofBit (CmdWord.flag w 8)) (CmdWord.field w 9 13) (CmdWord.field w 22 3)
        (CmdWord.flag w 25))
  | 0x06 => decodePlain c 30
      (.programByte (.ofBit (CmdWord.flag w 8)) (CmdWord.field w 9 13) (CmdWord.field w 22 8))
  | 0x10 => decodePlain c 16 (.checkReadAllowed (CmdWord.field w 8 8))
  | 0x11 => decodePlain c 16 (.checkWriteAllowed (CmdWord.field w 8 8))
  | 0x12 => decodePlain c 19
      (.setBlockAccess (CmdWord.field w 8 8) (CmdWord.flag w 16) (CmdWord.flag w 17)
        (CmdWord.flag w 18))
  | 0x20 => decodeBuffered c .npEncode
  | 0x21 => decodeBuffered c .npDecode
  | 0x22 => decodeBuffered c .majEncode
  | 0x23 => decodeBuffered c .majDecode
  | 0x30 => decodePlain c 17 (.readKey (.ofBit (CmdWord.flag w 8)) (CmdWord.field w 9 8))
  | 0x31 => decodePlain c 16 (.selectKey (CmdWord.field w 8 8))
  | 0x32 => decodePlain c 24 (.uploadKey (CmdWord.field w 8 8) (CmdWord.field w 16 8))
  | 0x33 => decodePlain c 8 .disableKeyAccess
  | 0x40 => decodePlain c 40 (.magicInit (CmdWord.field w 8 32))
  | 0x41 => decodePlain c 40 (.magicAccumulate (CmdWord.field w 8 32))
  | 0x42 => decodePlain c 8 .magicGet
  | _ => .error .reservedCode

/-- The bit of `ARR` (R81). -/
def StorageArray.toBit : StorageArray → BitVec 1
  | .key => 0
  | .fuse => 1

/-- The bit of `KT` (R81). -/
def KeyType.toBit : KeyType → BitVec 1
  | .aes => 0
  | .ecc => 1

/-- A command without a buffer, from the fields of its word, the unassigned bits 0 (R82). -/
def Command.plain {n : Nat} (fields : BitVec n) : Command := ⟨fields.setWidth 64, none⟩

/-- A codec command (R82 format FB). -/
def Command.buffered (op : BitVec 8) (b : List Byte) : Command := ⟨op.setWidth 64, some b⟩

/-- The encoder: the fields of R82, high bits first, ending with the operation code of R83. -/
def encode : Instr → Command
  | .npEncode b => .buffered 0x20 b
  | .npDecode b => .buffered 0x21 b
  | .majEncode b => .buffered 0x22 b
  | .majDecode b => .buffered 0x23 b
  | .checkReadAllowed blk => .plain (blk ++ 0x10#8)
  | .checkWriteAllowed blk => .plain (blk ++ 0x11#8)
  | .setBlockAccess blk lr lw lg =>
    .plain (BitVec.ofBool lg ++ BitVec.ofBool lw ++ BitVec.ofBool lr ++ blk ++ 0x12#8)
  | .waitReady tmo => .plain (tmo ++ 0x02#8)
  | .readByte a addr => .plain (addr ++ a.toBit ++ 0x03#8)
  | .bitIsProgrammed a addr bit => .plain (bit ++ addr ++ a.toBit ++ 0x04#8)
  | .programBit a addr bit vfy =>
    .plain (BitVec.ofBool vfy ++ bit ++ addr ++ a.toBit ++ 0x05#8)
  | .programByte a addr val => .plain (val ++ addr ++ a.toBit ++ 0x06#8)
  | .init clk => .plain (clk ++ 0x01#8)
  | .readKey kt kidx => .plain (kidx ++ kt.toBit ++ 0x30#8)
  | .selectKey kidx => .plain (kidx ++ 0x31#8)
  | .uploadKey ksz kidx => .plain (kidx ++ ksz ++ 0x32#8)
  | .disableKeyAccess => .plain 0x33#8
  | .magicInit imm => .plain (imm ++ 0x40#8)
  | .magicAccumulate imm => .plain (imm ++ 0x41#8)
  | .magicGet => .plain 0x42#8

/-- The command a table word stands for (log entry 15): the word alone, or, where its operation code
is a codec's, the word with an empty buffer. The table gives the buffer no bits, and R84 makes such
a word without a buffer illegal. -/
def tableCommand (w : CmdWord) : Command :=
  let op := (CmdWord.field w 0 8).toNat
  ⟨w, if op = 0x20 ∨ op = 0x21 ∨ op = 0x22 ∨ op = 0x23 then some [] else none⟩

/-- The instruction the decoder reads from the `nbits` bits `w` of a table row, the bits above them
0. -/
def decodeTableWord (nbits w : Nat) : Option Instr :=
  if w < 2 ^ 64 then
    match decode (tableCommand (BitVec.ofNat 64 (w % 2 ^ nbits))) with
    | .ok i => some i
    | .error _ => none
  else none

end Sys2Proof
end

