-- ==== Sys2Proof/Machine/State.lean ====
section
/-! DEFINITION. The state of the block (spec/10_state.md R20), plain data; what the host hands in and
gets back; the ways a step can stop (spec/60_exceptions.md R272, R273); the state after power-on
reset at the start of a run (spec/70_reset_and_hazards.md R300). -/

namespace Sys2Proof.Machine

/-- One storage array as its cells that differ from `Arr0` (R24; log entry 11). -/
abbrev Memory := List Host.Cell

/-- The states of the OTP state machine (R47). -/
inductive Fsm where
  | idle
  | addressing
  | readPulse
  | programPulse
  | pollingReady
  | hardwareError
  deriving DecidableEq, Repr, Inhabited

/-- The warnings (R46). -/
inductive Warning where
  | magicMismatch
  deriving DecidableEq, Repr

/-- The status an operation returns (R270). -/
inductive Status where
  | ok
  | hardwareError
  | accessDenied
  | invalidParameter
  | badChecksum
  deriving DecidableEq, Repr

/-- The result an operation returns beside its status (R270). -/
inductive Result where
  /-- No result. -/
  | none
  /-- The Boolean of the check operations and of BIT_IS_PROGRAMMED. -/
  | flag (b : Bool)
  /-- The byte of READ_BYTE. -/
  | byte (b : Byte)
  /-- The output buffer of a codec, and the key of READ_KEY (R74). -/
  | bytes (bs : List Byte)
  /-- The magic word of MAGIC_GET. -/
  | word (w : BitVec 32)
  deriving DecidableEq, Repr

/-- What an operation delivers to the host when it ends (R10 `return`). -/
structure Response where
  status : Status
  result : Result
  deriving DecidableEq, Repr

/-- The key-index register less KVAL, which is drawn (R41, R42, R43, R44). -/
@[ext] structure KeyInd where
  kind : BitVec 4
  ksize : BitVec 8
  eccdis : Bool
  deriving DecidableEq, Repr

/-- The controller register fields that hold a value (R32 to R43). -/
@[ext] structure Regs where
  /-- `ST.ACK` (R32; log entry 9). -/
  ack : Bool
  /-- `ADDR.ARR` (R33). -/
  arr : StorageArray
  /-- `ADDR.BYTEADDR` (R34). -/
  byteAddr : ByteAddr
  /-- `ADDR.BITPOS` (R35). -/
  bitPos : BitPos
  /-- `DATA` (R36). -/
  data : Byte
  /-- The armed state of `CTL.CMD` (R37). -/
  armed : Bool
  /-- `CTL.INPROG` (R38). -/
  inProg : Bool
  /-- `CFG.SMART` (R39). -/
  smart : Bool
  /-- `CFG.CLKMHZ` (R40). -/
  clkMhz : BitVec 8
  /-- `KEYIND` (R41, R42, R43). -/
  keyInd : KeyInd
  deriving DecidableEq, Repr

/-- The input tapes of the draws (R10, R12; log entry 3): what the environment will answer, in
order. Past the end of a tape a free value of Config is drawn, taken at the counter `drawn`. -/
@[ext] structure Draws where
  ready : List Bool
  pulse : List Bool
  kval : List Bool
  byte : List Byte
  drawn : Nat
  deriving DecidableEq, Repr

/-- What else the host does while a command runs (R75, R301); each of the two is refused. -/
inductive Disturbance where
  /-- A second caller issues an operation (R304). -/
  | secondCaller
  /-- A power-on reset arrives (R301). -/
  | reset
  deriving DecidableEq, Repr

/-- One entry of the host's list (R22, R300, R301, R303). -/
inductive HostEvent where
  /-- An operation, with what happens while it runs. -/
  | command (c : Command) (during : Option Disturbance)
  /-- POR between two operations (R300). -/
  | powerOnReset
  /-- `CLOCK_CHANGE` (R303). -/
  | clockChange
  /-- A warm reset, a watchdog reset, a re-initialisation without POR (R301). -/
  | otherReset
  deriving DecidableEq, Repr

/-- The state of the block (R20), and below it the model's own fields. -/
@[ext]
structure State where
  /-- The configuration and launch parameters, fixed for the run (R5, R7; log entry 2). -/
  cfg : Config
  /-- `Arr[KeyArray]` (R24). -/
  key : Memory
  /-- `Arr[FuseArray]` (R24). -/
  fuse : Memory
  /-- `RLOCK`, `WLOCK`, `RGLOCK` (R26). -/
  locks : List LockRegs
  /-- `KEYDIS` (R28). -/
  keyAccessDisabled : Bool
  /-- The magic word (R29). -/
  magic : BitVec 32
  /-- The register fields (R30). -/
  regs : Regs
  /-- The FSM state (R47). -/
  fsm : Fsm
  /-- R40. -/
  clkValid : Bool
  /-- R45. -/
  regAccessCount : Nat
  /-- R45. -/
  pulseCount : Nat
  /-- R46, oldest first. -/
  warnLog : List Warning
  /-- R49. -/
  faulted : Bool
  /-- Operations completed: the position in the host's list (R22). -/
  position : Nat
  /-- The model's own: what is left of the host's list (R22; log entry 4). -/
  pending : List HostEvent
  /-- The model's own: the input tapes and the draw counter (log entry 3). -/
  draws : Draws
  /-- The model's own: UPLOAD_KEY's unbounded wait is in progress (R232; log entry 6). -/
  uploading : Bool
  /-- The model's own: what the last operation delivered (log entry 7). -/
  response : Option Response
  /-- The model's own: the FSM states entered, newest first (R48; log entry 14). -/
  fsmTrace : List Fsm
  deriving DecidableEq, Repr

/-- The faults of R272. Each stops the machine and carries the state the operation leaves: what it
wrote before it stopped (R276), `faulted` set (R49), no status delivered (log entry 1). -/
inductive Fault where
  /-- Raised by NP_DECODE on an odd encoded length (R106). Safe: the source gives it no value. -/
  | oddEncodedSize (left : State)
  /-- Raised by CHECK_READ_ALLOWED, CHECK_WRITE_ALLOWED and SET_BLOCK_ACCESS on a block that has no
  lock register (R150), and by READ_KEY where a slot's block has none, which NUM_LOCK_REGS ≥ 6
  excludes (R230). Safe. -/
  | blockOutOfRange (left : State)
  /-- Raised by READ_BYTE, BIT_IS_PROGRAMMED, PROGRAM_BIT, PROGRAM_BYTE, and by READ_KEY after a
  granted gate check, while `clkValid` is false (R172, R176, R184, R230). Safe. -/
  | clockNotConfigured (left : State)
  /-- Raised by INIT on a clock of 0 MHz (R186). Safe. -/
  | badClock (left : State)
  deriving DecidableEq, Repr

/-- The refusals of R273, the state before the step being left as it was, and `notModelled`. -/
inductive Refusal where
  /-- Raised by an arm of `exec` that has no meaning yet: by none. Safe. -/
  | notModelled (mnemonic : String)
  /-- Raised by the step on a command that does not decode (R84). Safe. -/
  | illegalCommand
  /-- Raised by the step on a command during which a second caller issues another (R75). Safe. -/
  | concurrentCaller
  /-- Raised by the step on a reset other than POR, and on a command during which a reset arrives
  (R301). Safe. -/
  | unmodelledReset
  deriving DecidableEq, Repr

/-- The register fields after a power-on reset (R300), `eccdis` being the value of KEYIND.ECCDIS. -/
def Regs.afterPor (p : PorRegs) (eccdis : Bool) : Regs where
  ack := p.ack
  arr := p.arr
  byteAddr := p.byteAddr
  bitPos := p.bitPos
  data := p.data
  armed := false
  inProg := p.inProg
  smart := p.smart
  clkMhz := p.clkMhz
  keyInd := { kind := p.kind, ksize := p.ksize, eccdis := eccdis }

/-- The state at the start of a run launched with the configuration `c` (R300): the arrays hold
`Arr0`, the host's list is empty and nothing has been drawn. DESIGN CHOICE: the position starts at 0
(log entry 21). -/
def State.launch (c : Config) : State where
  cfg := c
  key := []
  fuse := []
  locks := c.lockPor
  keyAccessDisabled := c.keydisPor
  magic := 0
  regs := Regs.afterPor c.regsPor c.eccdis0
  fsm := .idle
  clkValid := false
  regAccessCount := 0
  pulseCount := 0
  warnLog := []
  faulted := false
  position := 0
  pending := []
  draws := { ready := [], pulse := [], kval := [], byte := [], drawn := 0 }
  uploading := false
  response := none
  fsmTrace := [.idle]

/-- The machine right after reset (R300), with the configuration it is launched with. -/
def State.reset : State := State.launch Config.launch

end Sys2Proof.Machine
end

