-- ==== Sys2Proof/Machine/Flags.lean ====
section
/-! DEFINITION. The block keeps no flags or condition codes (spec/10_state.md R23). What an operation
computes in their place is a status: its numeric code and the severity order (spec/60_exceptions.md
R270, R271). -/

namespace Sys2Proof.Machine

/-- The numeric code of a status (R270). -/
def Status.code : Status → Nat
  | .ok => 0
  | .hardwareError => 1
  | .accessDenied => 2
  | .invalidParameter => 3
  | .badChecksum => 4

/-- The place of a status in Ok < BadChecksum < HardwareError < AccessDenied < InvalidParameter
(R271). -/
def Status.severity : Status → Nat
  | .ok => 0
  | .badChecksum => 1
  | .hardwareError => 2
  | .accessDenied => 3
  | .invalidParameter => 4

/-- `worst(s1, s2)`, the more severe of two statuses (R10, R271). -/
def Status.worst (s1 s2 : Status) : Status := if s1.severity < s2.severity then s2 else s1

/-- Ok where a poll or a verification succeeded, HardwareError where it did not (R180, R182). -/
def Status.ofSuccess (b : Bool) : Status := if b then .ok else .hardwareError

/-- The FSM state an operation or a poll ends in: Idle after Ok, HardwareError otherwise (R172, R180,
R182). -/
def Fsm.ofStatus (st : Status) : Fsm := if st = .ok then .idle else .hardwareError

end Sys2Proof.Machine
end

