-- ==== Sys2Proof/Machine/Operands.lean ====
section
/-! DEFINITION. What the operand fields name (spec/30_encoding.md R81): nibbles of a byte
(spec/40_ecc_nibble.md R107), the lock register and bit of a block (spec/42_access_gate.md R150),
the key slots (spec/20_memory.md R66). Every field is unsigned; none is sign-extended or scaled. -/

namespace Sys2Proof.Machine

/-- `b[3:0]`. -/
def lowNibble (b : Byte) : Nibble := b.extractLsb' 0 4

/-- `b[7:4]`. -/
def highNibble (b : Byte) : Nibble := b.extractLsb' 4 4

/-- The lock register r = b / 8 of a block (R27, R150). -/
def blockReg (b : Nat) : Nat := b / 8

/-- The bit i = b mod 8 of a block in each of its lock registers (R27, R150). -/
def blockBit (b : Nat) : Nat := b % 8

/-- The byte with only bit `i` set, `1 << i`. -/
def bitMask (i : Nat) : Byte := 1#8 <<< i

/-- A key slot: its first byte address in KeyArray, its size in bytes, its block (R66). -/
structure KeySlot where
  base : Nat
  size : Nat
  block : Nat
  deriving DecidableEq, Repr

/-- The slot map (R66, with the numbers of R6). -/
def keySlot : KeyType → Nat → KeySlot
  | .aes, i => { base := 256 + 64 * i, size := 64, block := 6 + i }
  | .ecc, i => { base := 3328 + 128 * i, size := 128, block := 32 + i }

/-- All key slots: AES 0..3 and ECC 0..15 (R66). -/
def keySlots : List KeySlot :=
  (List.range KeyType.aes.slots).map (keySlot .aes) ++
    (List.range KeyType.ecc.slots).map (keySlot .ecc)

/-- The address is one of the slot's bytes, `addr ∈ range(s)` (R68). -/
def KeySlot.holds (k : KeySlot) (addr : Nat) : Bool := k.base ≤ addr && addr < k.base + k.size

end Sys2Proof.Machine
end

