-- ==== Sys2Proof/Machine/Ops.lean ====
section
/-! DEFINITION. The primitives of spec/00_scope.md R10 over the state: draws, register fields with
their counted accesses (spec/10_state.md R30 to R45), the storage arrays, the lock registers, the law
of CTL.CMD (spec/43_otp_fsm.md R174), IssuePulse (R175), WaitReady (R171); raising a fault
(spec/60_exceptions.md R272), delivering a status (R270), and the power-on reset
(spec/70_reset_and_hazards.md R300). The block takes no traps or interrupts (R274, R276). -/

namespace Sys2Proof.Machine

/-- `Arr0[a][addr]` (R24): the launch content of a storage array, which an unlisted address of
`Memory` reads as (log entry 11). -/
def initialByte (c : Config) (a : StorageArray) (addr : Nat) : Byte :=
  ((match a with
    | .key => c.key0
    | .fuse => c.fuse0).lookup addr).getD 0x00

/-- The byte at an address: the listed one, else what an unlisted address reads as. -/
def Memory.read (base : Nat → Byte) (m : Memory) (addr : Nat) : Byte :=
  (m.lookup addr).getD (base addr)

/-- The list with its cell at `addr` put in address order, in place of one already there. -/
def Memory.put : Memory → Nat → Byte → Memory
  | [], addr, v => [(addr, v)]
  | c :: m, addr, v =>
    if addr < c.1 then (addr, v) :: c :: m
    else if addr = c.1 then (addr, v) :: m
    else c :: Memory.put m addr v

/-- The list without its cell at `addr`. -/
def Memory.drop (m : Memory) (addr : Nat) : Memory := m.filter fun c => c.1 != addr

/-- Writing a byte: writing what an unlisted address reads as removes the entry. -/
def Memory.write (base : Nat → Byte) (m : Memory) (addr : Nat) (v : Byte) : Memory :=
  if v = base addr then Memory.drop m addr else Memory.put m addr v

/-- The canonical form: addresses strictly rising and inside the array, no entry equal to what an
unlisted address reads as. -/
abbrev Memory.wf (base : Nat → Byte) (m : Memory) : Prop :=
  m.Pairwise (fun c d => c.1 < d.1) ∧ ∀ c ∈ m, c.1 < arrayBytes ∧ c.2 ≠ base c.1

/-- The cells of a storage array. -/
def State.cells (s : State) : StorageArray → Memory
  | .key => s.key
  | .fuse => s.fuse

/-- `Arr[a][addr]` (R10, R24). -/
def State.readCell (s : State) (a : StorageArray) (addr : Nat) : Byte :=
  Memory.read (initialByte s.cfg a) (s.cells a) addr

/-- `Arr[a][addr] <- v` (R10). -/
def State.writeCell (s : State) (a : StorageArray) (addr : Nat) (v : Byte) : State :=
  let m := Memory.write (initialByte s.cfg a) (s.cells a) addr v
  match a with
  | .key => { s with key := m }
  | .fuse => { s with fuse := m }

/-- `Arr[a][addr][b] <- 1`, the only change an array ever sees (R25, R174). -/
def State.burn (s : State) (a : StorageArray) (addr : ByteAddr) (b : BitPos) : State :=
  s.writeCell a addr.toNat (s.readCell a addr.toNat ||| bitMask b.toNat)

/-- One more `RegRead` or `RegWrite` (R10, R45). -/
def State.access (s : State) : State := { s with regAccessCount := s.regAccessCount + 1 }

/-- `drawReady()` (R10, R12; log entry 3). -/
def State.drawReady (s : State) : Bool × State :=
  (s.draws.ready.headD (Config.freeReady s.draws.drawn),
    { s with draws := { s.draws with ready := s.draws.ready.tail, drawn := s.draws.drawn + 1 } })

/-- `drawPulse()` (R10, R12). -/
def State.drawPulse (s : State) : Bool × State :=
  (s.draws.pulse.headD (Config.freePulse s.draws.drawn),
    { s with draws := { s.draws with pulse := s.draws.pulse.tail, drawn := s.draws.drawn + 1 } })

/-- `drawKval()` (R10, R12). -/
def State.drawKval (s : State) : Bool × State :=
  (s.draws.kval.headD (Config.freeKval s.draws.drawn),
    { s with draws := { s.draws with kval := s.draws.kval.tail, drawn := s.draws.drawn + 1 } })

/-- `drawByte()` (R10, R12). -/
def State.drawByte (s : State) : Byte × State :=
  (s.draws.byte.headD (Config.freeByte s.draws.drawn),
    { s with draws := { s.draws with byte := s.draws.byte.tail, drawn := s.draws.drawn + 1 } })

/-- `fsm <- f` (R47), noted in the trace (log entry 14). -/
def State.setFsm (s : State) (f : Fsm) : State :=
  { s with fsm := f, fsmTrace := f :: s.fsmTrace }

/-- `log(W)` (R10, R46). -/
def State.warn (s : State) (w : Warning) : State := { s with warnLog := s.warnLog ++ [w] }

/-- `return (st, r)` (R10). -/
def State.deliver (s : State) (st : Status) (r : Result) : State :=
  { s with response := some { status := st, result := r } }

/-- `raise Fault(...)` (R10, R272): the fault mark is set and no status is delivered. -/
def State.raise (s : State) : State := { s with faulted := true, response := none }

/-- `RegRead(ST.RDY)` (R31). -/
def State.readRdy (s : State) : Bool × State := s.access.drawReady

/-- `RegWrite(ST.ACK, 1)`, which clears the acknowledgment (R32; log entry 9). -/
def State.writeAck (s : State) : State :=
  { s.access with regs := { s.regs with ack := false } }

/-- `RegWrite(ADDR.ARR, a)` (R33). -/
def State.writeArr (s : State) (a : StorageArray) : State :=
  { s.access with regs := { s.regs with arr := a } }

/-- `RegWrite(ADDR.BYTEADDR, addr)` (R34). -/
def State.writeByteAddr (s : State) (addr : ByteAddr) : State :=
  { s.access with regs := { s.regs with byteAddr := addr } }

/-- `RegWrite(ADDR.BITPOS, b)` (R35). -/
def State.writeBitPos (s : State) (b : BitPos) : State :=
  { s.access with regs := { s.regs with bitPos := b } }

/-- `RegRead(DATA)`, the register having the byte `d` of the completed read (R36; log entry 19). -/
def State.readData (s : State) (d : Byte) : State :=
  { s.access with regs := { s.regs with data := d } }

/-- `RegWrite(DATA, v)` (R36). -/
def State.writeData (s : State) (v : Byte) : State :=
  { s.access with regs := { s.regs with data := v } }

/-- `RegWrite(CTL.INPROG, b)` (R38). -/
def State.writeInProg (s : State) (b : Bool) : State :=
  { s.access with regs := { s.regs with inProg := b } }

/-- `RegWrite(CFG.SMART, b)` (R39). -/
def State.writeSmart (s : State) (b : Bool) : State :=
  { s.access with regs := { s.regs with smart := b } }

/-- `RegWrite(CFG.CLKMHZ, clk)` (R40). -/
def State.writeClkMhz (s : State) (clk : BitVec 8) : State :=
  { s.access with regs := { s.regs with clkMhz := clk } }

/-- `RegRead(KEYIND)` (R41 to R43); it draws no KVAL (log entry 13). -/
def State.readKeyInd (s : State) : KeyInd × State := (s.regs.keyInd, s.access)

/-- `RegWrite(KEYIND, v)`; the hardware ignores what is written to KVAL (R44). -/
def State.writeKeyInd (s : State) (v : KeyInd) : State :=
  { s.access with regs := { s.regs with keyInd := v } }

/-- `RegRead(KEYIND.KVAL)` (R44). -/
def State.readKval (s : State) : Bool × State := s.access.drawKval

/-- `RegRead(KEYDIS)` (R28). -/
def State.readKeydis (s : State) : Bool × State := (s.keyAccessDisabled, s.access)

/-- `RegWrite(KEYDIS, 1)` (R28, R233). -/
def State.writeKeydis (s : State) : State := { s.access with keyAccessDisabled := true }

/-- Which of the three lock bitmasks (R26). -/
inductive LockKind where
  | read
  | write
  | reg
  deriving DecidableEq, Repr

/-- The register of one bitmask in a triple. -/
def lockByte (k : LockKind) (l : LockRegs) : Byte :=
  match k with
  | .read => l.read
  | .write => l.write
  | .reg => l.reg

/-- The triple with the register of one bitmask replaced. -/
def withLockByte (k : LockKind) (l : LockRegs) (v : Byte) : LockRegs :=
  match k with
  | .read => { l with read := v }
  | .write => { l with write := v }
  | .reg => { l with reg := v }

/-- The lock registers of index `r` (R26). -/
def State.lockRegs (s : State) (r : Nat) : LockRegs := s.locks.getD r { read := 0, write := 0, reg := 0 }

/-- `X[r]`, the lock register of one bitmask (R26). -/
def State.lockByteAt (s : State) (k : LockKind) (r : Nat) : Byte := lockByte k (s.lockRegs r)

/-- The lock bit of a block: readLocked(b), writeLocked(b), registerLocked(b) (R27). -/
def State.locked (s : State) (k : LockKind) (b : Nat) : Bool :=
  (s.lockByteAt k (blockReg b)).getLsbD (blockBit b)

/-- What a lock register holds after a write of `v`: only the bits the register-lock `rg` leaves free
take the written value (R156; log entry 17). -/
def lockWriteLaw (old rg v : Byte) : Byte := (old &&& rg) ||| (v &&& ~~~rg)

/-- `RegRead(X[r])` (R26). -/
def State.readLock (s : State) (k : LockKind) (r : Nat) : Byte × State :=
  (s.lockByteAt k r, s.access)

/-- `RegWrite(X[r], v)` by the law of R156. -/
def State.writeLock (s : State) (k : LockKind) (r : Nat) (v : Byte) : State :=
  let l := s.lockRegs r
  { s.access with locks := s.locks.set r (withLockByte k l (lockWriteLaw (lockByte k l) l.reg v)) }

/-- `v <- RegRead(X[r]); RegWrite(X[r], v | (1 << i))` where asked for (R153). -/
def State.orLock (s : State) (asked : Bool) (k : LockKind) (b : Nat) : State :=
  if asked then
    let v := s.readLock k (blockReg b)
    v.2.writeLock k (blockReg b) (v.1 ||| bitMask (blockBit b))
  else s

/-- The block has a lock register (R150). -/
def State.hasBlock (s : State) (b : Nat) : Bool := b < 8 * s.cfg.numLockRegs

/-- `readable(a, addr)` (R68). -/
def State.readable (s : State) (a : StorageArray) (addr : Nat) : Bool :=
  !(a == .key &&
    (s.keyAccessDisabled || keySlots.any fun k => k.holds addr && s.locked .read k.block))

/-- The armed state of the command register (R37). -/
def State.setArmed (s : State) (b : Bool) : State := { s with regs := { s.regs with armed := b } }

/-- One more pulse-command write (R45). -/
def State.countPulse (s : State) : State := { s with pulseCount := s.pulseCount + 1 }

/-- An accepted program command (R174): whether it burns the addressed fuse is a draw. -/
def State.acceptPulse (s : State) : State :=
  let p := s.drawPulse
  if p.1 then p.2.burn s.regs.arr s.regs.byteAddr s.regs.bitPos else p.2

/-- `RegWrite(CTL.CMD, v)` by the hardware law of R174. -/
def State.writeCmd (s : State) (v : RegWord) : State :=
  if v = s.cfg.armValue then s.access.setArmed true
  else if s.regs.armed then
    let t := (s.access.setArmed false).countPulse
    if v = s.cfg.progCmd then t.acceptPulse else t
  else s.access.setArmed false

/-- IssuePulse (R175): arm, then program-initiate. -/
def State.issuePulse (s : State) : State :=
  let t := s.writeCmd s.cfg.armValue
  if s.cfg.magicCap then
    (if s.magic = s.cfg.progCmd then t else t.warn .magicMismatch).writeCmd s.magic
  else t.writeCmd s.cfg.progCmd

/-- WaitReady(T) (R171). -/
def State.waitReady (s : State) : Nat → Status × State
  | 0 => (.hardwareError, s.writeAck)
  | n + 1 =>
    let r := s.readRdy
    if r.1 then (.ok, r.2.writeAck) else State.waitReady r.2 n

/-- Power-on reset (R300): the arrays, ECCDIS, the observations and the host's list stay. -/
def State.powerOnReset (s : State) : State :=
  State.setFsm
    { s with
      locks := s.cfg.lockPor
      keyAccessDisabled := s.cfg.keydisPor
      magic := 0
      regs := Regs.afterPor s.cfg.regsPor s.regs.keyInd.eccdis
      clkValid := false } .idle

/-- `CLOCK_CHANGE` (R303). -/
def State.clockChange (s : State) : State := { s with clkValid := false }

end Sys2Proof.Machine
end

