-- ==== Sys2Proof/Machine/Codec.lean ====
section
/-! DEFINITION. The two codecs (spec/40_ecc_nibble.md, spec/41_ecc_majority.md): stateless, no register
access, no array access (R100). -/

namespace Sys2Proof.Machine

/-- The two encoded bytes of an input byte, low nibble first (R105, R107). -/
def npEncodeByte (c : Config) (b : Byte) : List Byte := [c.enc (lowNibble b), c.enc (highNibble b)]

/-- The output of NP_ENCODE (R105). -/
def npEncodeBytes (c : Config) (buf : List Byte) : List Byte := buf.flatMap (npEncodeByte c)

/-- The corrected byte of a pair, `{ hi[3:0], lo[3:0] }`, written even on a sentinel (R106). -/
def npDecodePair (c : Config) (lo hi : Byte) : Byte := c.decValue hi ++ c.decValue lo

/-- One of the two lookups of a pair returns the sentinel (R106). -/
def npPairBad (c : Config) (lo hi : Byte) : Bool :=
  c.decReport lo == npSentinel || c.decReport hi == npSentinel

/-- The output bytes of NP_DECODE, one for each pair (R106). -/
def npDecodeBytes (c : Config) : List Byte → List Byte
  | lo :: hi :: rest => npDecodePair c lo hi :: npDecodeBytes c rest
  | _ => []

/-- Some lookup of the whole buffer returns the sentinel (R106). -/
def npAnyBad (c : Config) : List Byte → Bool
  | lo :: hi :: rest => npPairBad c lo hi || npAnyBad c rest
  | _ => false

/-- The bitwise vote of three copies (R131). -/
def maj (b0 b1 b2 : Byte) : Byte := (b1 &&& (b0 ||| b2)) ||| (b0 &&& b2)

/-- The output of MAJ_ENCODE: three copies, segment by segment (R130). -/
def majEncodeBytes (buf : List Byte) : List Byte := buf ++ buf ++ buf

/-- The output of MAJ_DECODE on a buffer of 3n bytes (R131). -/
def majDecodeBytes (buf : List Byte) : List Byte :=
  let n := buf.length / 3
  (List.range n).map fun i => maj (buf.getD i 0) (buf.getD (n + i) 0) (buf.getD (2 * n + i) 0)

/-- NP_ENCODE (R105). -/
def execNpEncode (buf : List Byte) (s : State) : Host.Outcome State Fault Refusal :=
  .next (s.deliver .ok (.bytes (npEncodeBytes s.cfg buf)))

/-- NP_DECODE (R106). -/
def execNpDecode (buf : List Byte) (s : State) : Host.Outcome State Fault Refusal :=
  if buf.length % 2 = 1 then .fault (.oddEncodedSize s.raise)
  else
    .next (s.deliver (if npAnyBad s.cfg buf then .badChecksum else .ok)
      (.bytes (npDecodeBytes s.cfg buf)))

/-- MAJ_ENCODE (R130). -/
def execMajEncode (buf : List Byte) (s : State) : Host.Outcome State Fault Refusal :=
  .next (s.deliver .ok (.bytes (majEncodeBytes buf)))

/-- MAJ_DECODE (R131). -/
def execMajDecode (buf : List Byte) (s : State) : Host.Outcome State Fault Refusal :=
  if buf.length % 3 = 0 then .next (s.deliver .ok (.bytes (majDecodeBytes buf)))
  else .next (s.deliver .invalidParameter (.bytes []))

end Sys2Proof.Machine
end

