-- ==== Sys2Proof/Machine/Gate.lean ====
section
/-! DEFINITION. The access control gate (spec/42_access_gate.md). -/

namespace Sys2Proof.Machine

/-- A check operation: one read of the block's lock register, true where the bit is 0 (R151, R152);
a block without a lock register is a fault before any access (R150). -/
def checkLock (k : LockKind) (blk : BitVec 8) (s : State) : Host.Outcome State Fault Refusal :=
  if s.hasBlock blk.toNat then
    let v := s.readLock k (blockReg blk.toNat)
    .next (v.2.deliver .ok (.flag !(v.1.getLsbD (blockBit blk.toNat))))
  else .fault (.blockOutOfRange s.raise)

/-- CHECK_READ_ALLOWED (R151). -/
def execCheckReadAllowed (blk : BitVec 8) (s : State) : Host.Outcome State Fault Refusal :=
  checkLock .read blk s

/-- CHECK_WRITE_ALLOWED (R152). -/
def execCheckWriteAllowed (blk : BitVec 8) (s : State) : Host.Outcome State Fault Refusal :=
  checkLock .write blk s

/-- The writes of SET_BLOCK_ACCESS, the register-lock last (R153). -/
def State.setBlockAccess (s : State) (b : Nat) (lr lw lg : Bool) : State :=
  ((s.orLock lr .read b).orLock lw .write b).orLock lg .reg b

/-- SET_BLOCK_ACCESS (R153). -/
def execSetBlockAccess (blk : BitVec 8) (lr lw lg : Bool) (s : State) :
    Host.Outcome State Fault Refusal :=
  if s.hasBlock blk.toNat then
    .next ((s.setBlockAccess blk.toNat lr lw lg).deliver .ok .none)
  else .fault (.blockOutOfRange s.raise)

end Sys2Proof.Machine
end

