-- ==== Sys2Proof/Machine/Otp.lean ====
section
/-! DEFINITION. The OTP programming state machine (spec/43_otp_fsm.md): the read transaction, the
program transaction in its smart and legacy forms, and the operations built from them. The check of
`clkValid` stands once, at the head of each operation: nothing inside changes it. -/

namespace Sys2Proof.Machine

/-- What ReadByte returns: its status, its byte, and the state after it. -/
structure Reading where
  status : Status
  byte : Byte
  state : State
  deriving DecidableEq, Repr

/-- The read-initiate of a read transaction: the address fields, READ_CMD, and the FSM through
Addressing and ReadPulse to PollingReady (R172, R48). -/
def State.startRead (s : State) (a : StorageArray) (addr : ByteAddr) : State :=
  let t := ((s.setFsm .addressing).writeArr a).writeByteAddr addr
  ((t.writeCmd t.cfg.readCmd).setFsm .readPulse).setFsm .pollingReady

/-- The byte `RegRead(DATA)` delivers (R172): the stored one where both polls were Ok and the byte is
readable (R68), else a draw. -/
def State.readValue (s : State) (a : StorageArray) (addr : ByteAddr) (s1 s2 : Status) :
    Byte × State :=
  if s1 = .ok ∧ s2 = .ok ∧ s.readable a addr.toNat = true then (s.readCell a addr.toNat, s)
  else s.drawByte

/-- ReadByte(a, addr) with a configured clock (R172). -/
def readByteBody (a : StorageArray) (addr : ByteAddr) (s : State) : Reading :=
  let w1 := s.waitReady waitTimeout
  let w2 := (w1.2.startRead a addr).waitReady waitTimeout
  let d := w2.2.readValue a addr w1.1 w2.1
  let st := Status.worst w1.1 w2.1
  { status := st
    byte := d.1
    state := ((d.2.readData d.1).writeData scrub).setFsm (Fsm.ofStatus st) }

/-- READ_BYTE (R172). -/
def execReadByte (a : StorageArray) (addr : ByteAddr) (s : State) :
    Host.Outcome State Fault Refusal :=
  if s.clkValid then
    let r := readByteBody a addr s
    .next (r.state.deliver r.status (.byte r.byte))
  else .fault (.clockNotConfigured s.raise)

/-- The Boolean and the state of BitIsProgrammed with a configured clock; inline callers ignore the
status (R173). -/
def bitIsProgrammedBody (a : StorageArray) (addr : ByteAddr) (bit : BitPos) (s : State) :
    Bool × State :=
  let r := readByteBody a addr s
  (r.byte.getLsbD bit.toNat, r.state)

/-- BIT_IS_PROGRAMMED (R173). -/
def execBitIsProgrammed (a : StorageArray) (addr : ByteAddr) (bit : BitPos) (s : State) :
    Host.Outcome State Fault Refusal :=
  if s.clkValid then
    let r := readByteBody a addr s
    .next (r.state.deliver r.status (.flag (r.byte.getLsbD bit.toNat)))
  else .fault (.clockNotConfigured s.raise)

/-- The address fields of a program transaction, from Addressing (R180, R182). -/
def State.startProgram (s : State) (a : StorageArray) (addr : ByteAddr) (bit : BitPos) : State :=
  (((s.setFsm .addressing).writeArr a).writeByteAddr addr).writeBitPos bit

/-- One pulse with its poll, the poll's status only moving the FSM (R180, R182). -/
def State.pulseOnce (s : State) : State :=
  let w := (((s.setFsm .programPulse).issuePulse).setFsm .pollingReady).waitReady waitTimeout
  w.2.setFsm (Fsm.ofStatus w.1)

/-- ProgramBitSmart (R180). -/
def programBitSmart (a : StorageArray) (addr : ByteAddr) (bit : BitPos) (s : State) :
    Status × State :=
  let t := (((s.startProgram a addr bit).writeSmart true).pulseOnce).writeSmart false
  let v := bitIsProgrammedBody a addr bit t
  let st := Status.ofSuccess v.1
  (st, v.2.setFsm (Fsm.ofStatus st))

/-- The pulse loop of ProgramBitLegacy (R182): `left` pulses still allowed, the next one being the
`k`-th; verification from the MIN_PULSES-th on. -/
def legacyLoop (a : StorageArray) (addr : ByteAddr) (bit : BitPos) (s : State) (k : Nat) :
    Nat → Status × State
  | 0 => (.hardwareError, s)
  | left + 1 =>
    let t := s.pulseOnce
    if minPulses ≤ k then
      let v := bitIsProgrammedBody a addr bit t
      if v.1 then (.ok, v.2) else legacyLoop a addr bit v.2 (k + 1) left
    else legacyLoop a addr bit t (k + 1) left

/-- ProgramBitLegacy (R182). -/
def programBitLegacy (a : StorageArray) (addr : ByteAddr) (bit : BitPos) (s : State) :
    Status × State :=
  let t := (s.startProgram a addr bit).writeInProg true
  let r := legacyLoop a addr bit t 1 maxPulses
  (r.1, ((r.2.writeData scrub).writeInProg false).setFsm (Fsm.ofStatus r.1))

/-- The algorithm the build configuration picks (R5, R176). -/
def programBitAlgo (a : StorageArray) (addr : ByteAddr) (bit : BitPos) (s : State) :
    Status × State :=
  match s.cfg.progAlgo with
  | .smart => programBitSmart a addr bit s
  | .legacy => programBitLegacy a addr bit s

/-- ProgramBitBody with a configured clock (R176). -/
def programBitBody (a : StorageArray) (addr : ByteAddr) (bit : BitPos) (vfy : Bool) (s : State) :
    Status × State :=
  if vfy then
    let v := bitIsProgrammedBody a addr bit s
    if v.1 then (.ok, v.2) else programBitAlgo a addr bit v.2
  else programBitAlgo a addr bit s

/-- `magic <- v` (R29). -/
def State.setMagic (s : State) (v : BitVec 32) : State := { s with magic := v }

/-- PROGRAM_BIT (R176), with the magic-word reset of R187. -/
def execProgramBit (a : StorageArray) (addr : ByteAddr) (bit : BitPos) (vfy : Bool) (s : State) :
    Host.Outcome State Fault Refusal :=
  if s.clkValid then
    let r := programBitBody a addr bit vfy s
    .next ((r.2.setMagic 0).deliver r.1 .none)
  else .fault (.clockNotConfigured s.raise)

/-- The bits of a byte in ascending order (R184). -/
def bitPositions : List BitPos := [0, 1, 2, 3, 4, 5, 6, 7]

/-- The loop of PROGRAM_BYTE over the bits to program, every one attempted, the worst status kept
(R184). -/
def programBits (a : StorageArray) (addr : ByteAddr) (tp : Byte) :
    List BitPos → Status → State → Status × State
  | [], st, s => (st, s)
  | b :: bs, st, s =>
    if tp.getLsbD b.toNat then
      let r := programBitBody a addr b false s
      programBits a addr tp bs (Status.worst st r.1) r.2
    else programBits a addr tp bs st s

/-- PROGRAM_BYTE (R184) with a configured clock, before the magic-word reset. -/
def programByteBody (a : StorageArray) (addr : ByteAddr) (val : Byte) (s : State) :
    Status × State :=
  let r := readByteBody a addr s
  programBits a addr (~~~r.byte &&& val) bitPositions r.status r.state

/-- PROGRAM_BYTE (R184), with the magic-word reset of R187. -/
def execProgramByte (a : StorageArray) (addr : ByteAddr) (val : Byte) (s : State) :
    Host.Outcome State Fault Refusal :=
  if s.clkValid then
    let r := programByteBody a addr val s
    .next ((r.2.setMagic 0).deliver r.1 .none)
  else .fault (.clockNotConfigured s.raise)

/-- WAIT_READY (R171); the FSM state is not changed. -/
def execWaitReady (tmo : BitVec 32) (s : State) : Host.Outcome State Fault Refusal :=
  let w := s.waitReady tmo.toNat
  .next (w.2.deliver w.1 .none)

/-- INIT (R186). -/
def execInit (clk : BitVec 8) (s : State) : Host.Outcome State Fault Refusal :=
  if clk = 0 then .fault (.badClock s.raise)
  else
    .next ((({ s.writeClkMhz clk with clkValid := true }.setMagic 0).setFsm .idle).deliver .ok .none)

end Sys2Proof.Machine
end

