-- ==== Sys2Proof/Machine/KeyVault.lean ====
section
/-! DEFINITION. The key vault operations (spec/44_key_vault.md). -/

namespace Sys2Proof.Machine

/-- `n` bytes read one after another from `addr` on, the worst status kept (R230). -/
def readBytes (a : StorageArray) (s : State) (addr : Nat) (st : Status) :
    Nat → Status × List Byte × State
  | 0 => (st, [], s)
  | n + 1 =>
    let r := readByteBody a (BitVec.ofNat 13 addr) s
    let rest := readBytes a r.state (addr + 1) (Status.worst st r.status) n
    (rest.1, r.byte :: rest.2.1, rest.2.2)

/-- READ_KEY (R230), its conditions in the order of R275. -/
def execReadKey (kt : KeyType) (kidx : BitVec 8) (s : State) : Host.Outcome State Fault Refusal :=
  let k := keySlot kt kidx.toNat
  if kt.slots ≤ kidx.toNat then .next (s.deliver .invalidParameter (.bytes []))
  else if s.hasBlock k.block then
    let dis := s.readKeydis
    let rl := dis.2.readLock .read (blockReg k.block)
    if dis.1 || rl.1.getLsbD (blockBit k.block) then
      .next (rl.2.deliver .accessDenied (.bytes []))
    else if rl.2.clkValid then
      let r := readBytes .key rl.2 k.base .ok k.size
      .next (r.2.2.deliver r.1 (.bytes r.2.1))
    else .fault (.clockNotConfigured rl.2.raise)
  else .fault (.blockOutOfRange s.raise)

/-- The bounded KVAL poll of SELECT_KEY (R231). -/
def State.pollKval (s : State) : Nat → Status × State
  | 0 => (.hardwareError, s)
  | n + 1 =>
    let k := s.readKval
    if k.1 then (.ok, k.2) else State.pollKval k.2 n

/-- The read-modify-write of KEYIND, all fields but the changed ones preserved (R231, R232). -/
def State.updateKeyInd (s : State) (f : KeyInd → KeyInd) : State :=
  let v := s.readKeyInd
  v.2.writeKeyInd (f v.1)

/-- SELECT_KEY (R231). -/
def execSelectKey (kidx : BitVec 8) (s : State) : Host.Outcome State Fault Refusal :=
  if 16 ≤ kidx.toNat then .next (s.deliver .invalidParameter .none)
  else
    let t := s.updateKeyInd fun v => { v with kind := kidx.setWidth 4 }
    let p := t.pollKval s.cfg.selectKeyRetries
    .next (p.2.deliver p.1 .none)

/-- One turn of UPLOAD_KEY's unbounded loop (R232): Ok once KVAL reads 1, else the wait goes on and
no status is delivered yet (log entry 6). -/
def State.pollUpload (s : State) : State :=
  let k := s.readKval
  if k.1 then { k.2 with uploading := false }.deliver .ok .none
  else { k.2 with uploading := true, response := none }

/-- UPLOAD_KEY (R232): the write of KEYIND and the first turn of the loop; the step makes the
others. -/
def execUploadKey (ksz kidx : BitVec 8) (s : State) : Host.Outcome State Fault Refusal :=
  if 16 ≤ kidx.toNat then .next (s.deliver .invalidParameter .none)
  else
    .next (s.updateKeyInd fun v => { v with ksize := ksz, kind := kidx.setWidth 4 }).pollUpload

/-- DISABLE_KEY_ACCESS (R233). -/
def execDisableKeyAccess (s : State) : Host.Outcome State Fault Refusal :=
  .next (s.writeKeydis.deliver .ok .none)

end Sys2Proof.Machine
end

