-- ==== Sys2Proof/Machine/Magic.lean ====
section
/-! DEFINITION. The secure-program gate's magic word (spec/45_magic_word.md), defined in every
configuration (R29); no register access. -/

namespace Sys2Proof.Machine

/-- MAGIC_INIT (R260). -/
def execMagicInit (imm : BitVec 32) (s : State) : Host.Outcome State Fault Refusal :=
  .next ((s.setMagic imm).deliver .ok .none)

/-- MAGIC_ACCUMULATE (R261): addition modulo 2^32. -/
def execMagicAccumulate (imm : BitVec 32) (s : State) : Host.Outcome State Fault Refusal :=
  .next ((s.setMagic (s.magic + imm)).deliver .ok .none)

/-- MAGIC_GET (R262). -/
def execMagicGet (s : State) : Host.Outcome State Fault Refusal :=
  .next (s.deliver .ok (.word s.magic))

end Sys2Proof.Machine
end

