-- ==== Sys2Proof/Machine/Dispatch.lean ====
section
/-! DEFINITION. One arm per operation, each one call of its meaning. -/

namespace Sys2Proof.Machine

def exec (i : Instr) (s : State) : Host.Outcome State Fault Refusal :=
  match i with
  | .npEncode buf => Sys2Proof.Machine.execNpEncode buf s
  | .npDecode buf => Sys2Proof.Machine.execNpDecode buf s
  | .majEncode buf => Sys2Proof.Machine.execMajEncode buf s
  | .majDecode buf => Sys2Proof.Machine.execMajDecode buf s
  | .checkReadAllowed blk => Sys2Proof.Machine.execCheckReadAllowed blk s
  | .checkWriteAllowed blk => Sys2Proof.Machine.execCheckWriteAllowed blk s
  | .setBlockAccess blk lr lw lg => Sys2Proof.Machine.execSetBlockAccess blk lr lw lg s
  | .waitReady tmo => Sys2Proof.Machine.execWaitReady tmo s
  | .readByte arr addr => Sys2Proof.Machine.execReadByte arr addr s
  | .bitIsProgrammed arr addr bit => Sys2Proof.Machine.execBitIsProgrammed arr addr bit s
  | .programBit arr addr bit vfy => Sys2Proof.Machine.execProgramBit arr addr bit vfy s
  | .programByte arr addr val => Sys2Proof.Machine.execProgramByte arr addr val s
  | .init clk => Sys2Proof.Machine.execInit clk s
  | .readKey kt kidx => Sys2Proof.Machine.execReadKey kt kidx s
  | .selectKey kidx => Sys2Proof.Machine.execSelectKey kidx s
  | .uploadKey ksz kidx => Sys2Proof.Machine.execUploadKey ksz kidx s
  | .disableKeyAccess => Sys2Proof.Machine.execDisableKeyAccess s
  | .magicInit imm => Sys2Proof.Machine.execMagicInit imm s
  | .magicAccumulate imm => Sys2Proof.Machine.execMagicAccumulate imm s
  | .magicGet => Sys2Proof.Machine.execMagicGet s

end Sys2Proof.Machine
end

