-- ==== Sys2Proof/Machine/Issue.lean ====
section
/-! DEFINITION. How the host's list drives the engine (spec/10_state.md R22, spec/30_encoding.md R84,
spec/60_exceptions.md R273, spec/70_reset_and_hazards.md R300 to R304; log entries 4, 5 and 6). The
block fetches nothing; the step takes the next entry of the list. -/

namespace Sys2Proof.Machine

/-- The entry at the head of the host's list is done with. -/
def State.dropEvent (s : State) : State := { s with pending := s.pending.tail }

/-- The operation at the head of the host's list has completed: the position advances by one
(R22). -/
def State.complete (s : State) : State := { s.dropEvent with position := s.position + 1 }

/-- The end of a step of an operation: it has completed unless UPLOAD_KEY still waits. -/
def State.settle (s : State) : State := if s.uploading then s else s.complete

/-- A command, with what happens while it runs: an illegal one is refused (R84), a disturbed one is
refused before it has any effect (R75, R301), any other is executed. -/
def runCommand (c : Command) (during : Option Disturbance) (s : State) :
    Host.Outcome State Fault Refusal :=
  match decode c with
  | .error _ => .refused .illegalCommand
  | .ok i =>
    match during with
    | some .secondCaller => .refused .concurrentCaller
    | some .reset => .refused .unmodelledReset
    | none =>
      match exec i s with
      | .next t => .next t.settle
      | .fault f => .fault f
      | .refused r => .refused r

/-- One step: a running UPLOAD_KEY polls again (R11, R232); otherwise the next entry of the host's
list is taken; with none left the engine idles. -/
def stepHost (s : State) : Host.Outcome State Fault Refusal :=
  if s.uploading then .next s.pollUpload.settle
  else
    match s.pending with
    | [] => .next s
    | .command c during :: _ => runCommand c during s
    | .powerOnReset :: _ => .next s.powerOnReset.dropEvent
    | .clockChange :: _ => .next s.clockChange.dropEvent
    | .otherReset :: _ => .refused .unmodelledReset

/-- The state with a command placed before the rest of the host's list, no operation running, so that
the next step takes it. -/
def State.placeCommand (s : State) (c : Command) : State :=
  { s with pending := .command c none :: s.pending, uploading := false }

end Sys2Proof.Machine
end

