-- ==== Sys2Proof/Machine/Step.lean ====
section
/-! DEFINITION. The step, and the placing of a command where it is taken next. -/

namespace Sys2Proof.Machine

/-- One step of the machine. -/
def step (s : State) : Host.Outcome State Fault Refusal := stepHost s

/-- The state in which the next step takes the opcode-table word `w` (log entries 4 and 15). -/
def State.withFetchWord (s : State) (nbits w : Nat) : State :=
  s.placeCommand (tableCommand (BitVec.ofNat 64 (w % 2 ^ nbits)))

end Sys2Proof.Machine
end

