-- ==== Sys2Proof/Safety.lean ====
section
/-! DEFINITION. The terms in which claims about the machine are stated: the invariant of states between
steps, the legal transitions of the FSM (spec/10_state.md R48), the order in which fuses and locks
grow (R25, spec/42_access_gate.md R154), the premises about draws (spec/00_scope.md R12), the state a
fault leaves (spec/60_exceptions.md R272). -/

namespace Sys2Proof

open Sys2Proof.Machine

/-- The operation drives the array and so needs a configured clock (R302), READ_KEY apart, which
checks its gate first. -/
def Instr.needsClock : Instr → Bool
  | .readByte _ _ => true
  | .bitIsProgrammed _ _ _ => true
  | .programBit _ _ _ _ => true
  | .programByte _ _ _ => true
  | _ => false

/-- The operation programs fuses (R25). -/
def Instr.programs : Instr → Bool
  | .programBit _ _ _ _ => true
  | .programByte _ _ _ => true
  | _ => false

/-- The statuses an operation may return (R270, and each operation's rule). -/
def Instr.mayReturn (i : Instr) (st : Status) : Bool :=
  match i with
  | .npEncode _ => st == .ok
  | .npDecode _ => st == .ok || st == .badChecksum
  | .majEncode _ => st == .ok
  | .majDecode _ => st == .ok || st == .invalidParameter
  | .checkReadAllowed _ => st == .ok
  | .checkWriteAllowed _ => st == .ok
  | .setBlockAccess _ _ _ _ => st == .ok
  | .waitReady _ => st == .ok || st == .hardwareError
  | .readByte _ _ => st == .ok || st == .hardwareError
  | .bitIsProgrammed _ _ _ => st == .ok || st == .hardwareError
  | .programBit _ _ _ _ => st == .ok || st == .hardwareError
  | .programByte _ _ _ => st == .ok || st == .hardwareError
  | .init _ => st == .ok
  | .readKey _ _ => st == .ok || st == .hardwareError || st == .accessDenied || st == .invalidParameter
  | .selectKey _ => st == .ok || st == .hardwareError || st == .invalidParameter
  | .uploadKey _ _ => st == .ok || st == .invalidParameter
  | .disableKeyAccess => st == .ok
  | .magicInit _ => st == .ok
  | .magicAccumulate _ => st == .ok
  | .magicGet => st == .ok

/-- How many pulses a bit that is 0 takes, `ps` being the pulse draws to come: one under Smart (R180);
under Legacy as many as it takes to burn, from MIN_PULSES to MAX_PULSES (R182). -/
def ProgAlgo.pulsesFor (al : ProgAlgo) (ps : List Bool) : Nat :=
  match al with
  | .smart => 1
  | .legacy => max 4 (min 20 (ps.findIdx id + 1))

/-- An encoded byte as it may come back: unchanged, or with one bit flipped (R108). -/
def withError (e : Byte) : Option BitPos → Byte
  | none => e
  | some k => flipBit e k

end Sys2Proof

namespace Sys2Proof.Machine

/-- The transitions of R48, with staying in Idle or in HardwareError, which is none. -/
def Fsm.edge : Fsm → Fsm → Bool
  | .idle, .addressing => true
  | .hardwareError, .addressing => true
  | .addressing, .readPulse => true
  | .addressing, .programPulse => true
  | .readPulse, .pollingReady => true
  | .programPulse, .pollingReady => true
  | .pollingReady, .idle => true
  | .pollingReady, .hardwareError => true
  | .idle, .programPulse => true
  | .hardwareError, .programPulse => true
  | .idle, .hardwareError => true
  | .hardwareError, .idle => true
  | .idle, .idle => true
  | .hardwareError, .hardwareError => true
  | _, _ => false

/-- A trace, newest state first, made of legal transitions only (R48). -/
def traceLegal : List Fsm → Bool
  | g :: f :: t => Fsm.edge f g && traceLegal (f :: t)
  | _ => true

/-- Between operations the FSM is in Idle or HardwareError (R47), its trace ends there and is
legal (R48). -/
abbrev State.FsmInv (s : State) : Prop :=
  (s.fsm = .idle ∨ s.fsm = .hardwareError) ∧ s.fsmTrace.head? = some s.fsm ∧
    traceLegal s.fsmTrace = true

/-- Both arrays are in canonical form. -/
abbrev State.MemInv (s : State) : Prop :=
  Memory.wf (initialByte s.cfg .key) s.key ∧ Memory.wf (initialByte s.cfg .fuse) s.fuse

/-- There are as many lock registers as the configuration says (R26). -/
abbrev State.LockInv (s : State) : Prop := s.locks.length = s.cfg.numLockRegs

/-- The invariant of the states between steps: an admitted configuration, canonical arrays, all lock
registers there, the FSM at rest after legal transitions, the command register disarmed. -/
structure State.Inv (s : State) : Prop where
  lawful : s.cfg.Lawful
  mem : s.MemInv
  lock : s.LockInv
  fsm : s.FsmInv
  disarmed : s.regs.armed = false

/-- The bits that get burnt when the set bits of `tp` among the listed positions are programmed one
after another, every one attempted, `ps` being the pulse draws to come (R184). -/
def burntBits (al : ProgAlgo) (tp : Byte) : List BitPos → List Bool → Byte
  | [], _ => 0
  | b :: bs, ps =>
    if tp.getLsbD b.toNat then
      (if (ps.take (al.pulsesFor ps)).any id then 1#8 <<< b.toNat else 0) |||
        burntBits al tp bs (ps.drop (al.pulsesFor ps))
    else burntBits al tp bs ps

/-- Every bit of `x` is set in `y`. -/
abbrev bitsWithin (x y : Byte) : Prop := x ||| y = y

/-- No fuse that is 1 in `s` is 0 in `t` (R25). -/
def State.fusesKept (s t : State) : Prop := ∀ a n, bitsWithin (s.readCell a n) (t.readCell a n)

/-- No lock bit that is 1 in `s` is 0 in `t` (R154). -/
def State.locksKept (s t : State) : Prop := ∀ k b, s.locked k b = true → t.locked k b = true

/-- The next entry of the host's list is a power-on reset. -/
abbrev State.porNext (s : State) : Prop :=
  s.uploading = false ∧ s.pending.head? = some .powerOnReset

/-- The next `n` polls of ST.RDY are listed and read 1: a premise about draws (R12). -/
abbrev State.readyFor (s : State) (n : Nat) : Prop := ∀ j < n, s.draws.ready[j]? = some true

/-- The next `n` accepted pulses are listed and burn: a premise about draws (R12). -/
abbrev State.burnsFor (s : State) (n : Nat) : Prop := ∀ j < n, s.draws.pulse[j]? = some true

/-- What tells that the operation has a bit to pulse (R176, R184): a PROGRAM_BIT without verify-first
has; one with it, and PROGRAM_BYTE, have where their read, its two polls listed ready and its byte
readable, finds a bit that is 0. -/
def State.hasBitToPulse (s : State) : Instr → Prop
  | .programBit _ _ _ false => True
  | .programBit a addr bit true =>
    s.readable a addr.toNat = true ∧ s.readyFor 2 ∧
      (s.readCell a addr.toNat).getLsbD bit.toNat = false
  | .programByte a addr val =>
    s.readable a addr.toNat = true ∧ s.readyFor 2 ∧ ¬bitsWithin val (s.readCell a addr.toNat)
  | _ => False

/-- The answer of the `j`-th poll of ST.RDY from `s` on, polls being the only draws. -/
def State.readyAt (s : State) (j : Nat) : Bool :=
  (s.draws.ready[j]?).getD (Config.freeReady (s.draws.drawn + j))

/-- The answer of the `j`-th poll of KVAL from `s` on, polls being the only draws. -/
def State.kvalAt (s : State) (j : Nat) : Bool :=
  (s.draws.kval[j]?).getD (Config.freeKval (s.draws.drawn + j))

/-- The draws after `n` polls of ST.RDY. -/
def Draws.afterReady (d : Draws) (n : Nat) : Draws :=
  { d with ready := d.ready.drop n, drawn := d.drawn + n }

/-- The draws after `n` polls of KVAL. -/
def Draws.afterKval (d : Draws) (n : Nat) : Draws :=
  { d with kval := d.kval.drop n, drawn := d.drawn + n }

/-- A pulse, if it is issued, carries PROG_CMD: either there is no magic word or it is the right one
(R175). -/
abbrev State.commandReady (s : State) : Prop :=
  s.cfg.magicCap = false ∨ s.magic = s.cfg.progCmd

/-- A pulse, if it is issued, does not carry ARM_VALUE by chance of the magic word (log entry 22). -/
abbrev State.commandNotArm (s : State) : Prop :=
  s.cfg.magicCap = false ∨ s.magic ≠ s.cfg.armValue

/-- The state a fault leaves (R272). -/
def Fault.left : Fault → State
  | .oddEncodedSize l => l
  | .blockOutOfRange l => l
  | .clockNotConfigured l => l
  | .badClock l => l

/-- The next step runs an operation: a waiting UPLOAD_KEY, or an undisturbed command. -/
def State.operationNext (s : State) : Bool :=
  s.uploading ||
    match s.pending with
    | .command _ none :: _ => true
    | _ => false

/-- The fuse at a byte and bit. -/
def State.fuseBit (s : State) (a : StorageArray) (addr : ByteAddr) (bit : BitPos) : Bool :=
  (s.readCell a addr.toNat).getLsbD bit.toNat

end Sys2Proof.Machine
end

