-- ==== Sys2Proof/Certificates/Slice0/Obligations.lean ====
section
/-! DEFINITION. The statements for the provers. Each docstring names the rule of spec/ it formalises
and, where a clause rests on a choice, the decision (D<n> of spec/92_eei_decisions.md, or a log entry
of notes/assumptions). -/

open Sys2Proof Sys2Proof.Machine

/-! ## The machine as a whole -/

/-- The state after reset meets the invariant, whatever configuration the machine is launched with. -/
def Obligations.ResetMeetsInvariant : Prop := State.reset.Inv

/-- R300 at the start of a run: what the table gives a value for. The fields it leaves unspecified are
not spoken of (log entry 8). The lock values rest on D11, ECCDIS on D25, `armed` on D29, the FSM state
on D37, `clkValid` on D47, `magic` on D48; the position 0 is the model's choice (log entry 21). -/
def Obligations.ResetState : Prop :=
  State.reset.magic = 0 ∧ State.reset.regs.armed = false ∧ State.reset.clkValid = false ∧
  State.reset.fsm = .idle ∧ State.reset.regAccessCount = 0 ∧ State.reset.pulseCount = 0 ∧
  State.reset.warnLog = [] ∧ State.reset.faulted = false ∧ State.reset.position = 0 ∧
  State.reset.locks = State.reset.cfg.lockPor ∧
  State.reset.keyAccessDisabled = State.reset.cfg.keydisPor ∧
  State.reset.regs.keyInd.eccdis = State.reset.cfg.eccdis0 ∧
  ∀ a n, State.reset.readCell a n = initialByte State.reset.cfg a n

/-- Every step keeps the invariant: canonical arrays, all lock registers there, the FSM at rest after
legal transitions only (R47, R48; edges 6 and 7 are D37's), the command register disarmed. -/
def Obligations.StepKeepsInvariant : Prop :=
  ∀ s t : State, s.Inv → step s = .next t → t.Inv

/-- R5, R20: the configuration is fixed for the run. R49: no step clears the fault mark, and a next
state never sets it. -/
def Obligations.StepKeepsConfigurationAndFaultMark : Prop :=
  ∀ s t : State, step s = .next t → t.cfg = s.cfg ∧ t.faulted = s.faulted

/-- A step takes the command at the head of the host's list and runs what it decodes to; an operation
that is not waiting in UPLOAD_KEY has then completed: its entry is dropped and the position advances
(R22, R84). A fault or a refusal is handed on. -/
def Obligations.StepRunsDecodedCommand : Prop :=
  ∀ (s : State) (c : Command) (rest : List HostEvent) (i : Instr),
    s.uploading = false → s.pending = .command c none :: rest → decode c = .ok i →
    step s =
      match exec i s with
      | .next t =>
        if t.uploading then .next t
        else .next { t with pending := t.pending.tail, position := t.position + 1 }
      | .fault f => .fault f
      | .refused r => .refused r

/-- R273: what a step refuses, and that it refuses nothing else. -/
def Obligations.StepRefusesExactly : Prop :=
  (∀ (s : State) (c : Command) (d : Option Disturbance) (rest : List HostEvent) (e : DecodeError),
    s.uploading = false → s.pending = .command c d :: rest → decode c = .error e →
    step s = .refused .illegalCommand) ∧
  (∀ (s : State) (c : Command) (rest : List HostEvent) (i : Instr),
    s.uploading = false → s.pending = .command c (some .secondCaller) :: rest → decode c = .ok i →
    step s = .refused .concurrentCaller) ∧
  (∀ (s : State) (c : Command) (rest : List HostEvent) (i : Instr),
    s.uploading = false → s.pending = .command c (some .reset) :: rest → decode c = .ok i →
    step s = .refused .unmodelledReset) ∧
  (∀ (s : State) (rest : List HostEvent),
    s.uploading = false → s.pending = .otherReset :: rest → step s = .refused .unmodelledReset) ∧
  ∀ (s : State) (r : Refusal), step s = .refused r →
    s.uploading = false ∧
    ((r = .illegalCommand ∧
        ∃ c d rest e, s.pending = .command c d :: rest ∧ decode c = .error e) ∨
      (r = .concurrentCaller ∧ ∃ c rest, s.pending = .command c (some .secondCaller) :: rest) ∨
      (r = .unmodelledReset ∧
        ∃ e rest, s.pending = e :: rest ∧ (e = .otherReset ∨ ∃ c, e = .command c (some .reset))))

/-- R22: the position counts completed operations. It advances by one when the step completes an
operation and stays otherwise (a host event, an UPLOAD_KEY that goes on waiting, an empty list). -/
def Obligations.PositionAdvancesOnCompletion : Prop :=
  ∀ s t : State, step s = .next t →
    t.position =
      if s.operationNext = true ∧ t.uploading = false then s.position + 1 else s.position

/-- R300 between operations: what a power-on reset gives a value to, and what it leaves. The register
fields it leaves unspecified are not spoken of (log entry 8). -/
def Obligations.PowerOnResetEffect : Prop :=
  ∀ (s : State) (rest : List HostEvent), s.uploading = false →
    s.pending = .powerOnReset :: rest →
    ∃ t, step s = .next t ∧ t.key = s.key ∧ t.fuse = s.fuse ∧ t.locks = s.cfg.lockPor ∧
      t.keyAccessDisabled = s.cfg.keydisPor ∧ t.magic = 0 ∧ t.regs.armed = false ∧
      t.clkValid = false ∧ t.regs.keyInd.eccdis = s.regs.keyInd.eccdis ∧ t.fsm = .idle ∧
      t.regAccessCount = s.regAccessCount ∧ t.pulseCount = s.pulseCount ∧ t.warnLog = s.warnLog ∧
      t.faulted = s.faulted ∧ t.cfg = s.cfg ∧ t.pending = rest ∧ t.position = s.position ∧
      t.draws = s.draws

/-- R40, R303: INIT writes the clock field and makes the clock valid; from then on only a reported
clock change, which changes nothing else, or a power-on reset makes it invalid; it is invalid at the
start of a run (D47 for the event's form). -/
def Obligations.ClockValidFromInitToChange : Prop :=
  State.reset.clkValid = false ∧
  (∀ (clk : BitVec 8) (s : State), clk ≠ 0 →
    ∃ t, exec (.init clk) s = .next t ∧ t.regs.clkMhz = clk ∧ t.clkValid = true) ∧
  (∀ s t : State, step s = .next t → s.clkValid = true → t.clkValid = false →
    s.pending.head? = some .clockChange ∨ s.pending.head? = some .powerOnReset) ∧
  ∀ (s : State) (rest : List HostEvent), s.uploading = false → s.pending = .clockChange :: rest →
    step s = .next { s with clkValid := false, pending := rest }

/-- R25: no step changes a fuse from 1 to 0; a step that counts no pulse-command write leaves both
arrays as they are; only a program operation changes an array, and inside it only a program-command
write that is accepted, which sets one bit. -/
def Obligations.FusesNeverClear : Prop :=
  (∀ s t : State, step s = .next t → s.fusesKept t ∧
    (t.pulseCount = s.pulseCount → t.key = s.key ∧ t.fuse = s.fuse)) ∧
  (∀ (i : Instr) (s t : State), s.cfg.DistinctCommands → exec i s = .next t →
    i.programs = false → t.key = s.key ∧ t.fuse = s.fuse) ∧
  ∀ (s : State) (v : RegWord) (a : StorageArray) (n : Nat),
    (s.writeCmd v).readCell a n = s.readCell a n ∨
    (s.regs.armed = true ∧ v = s.cfg.progCmd ∧ a = s.regs.arr ∧ n = s.regs.byteAddr.toNat ∧
      (s.writeCmd v).readCell a n = s.readCell a n ||| (1#8 <<< s.regs.bitPos.toNat))

/-- R310: what cannot be undone: a burnt fuse never, key access disabled and a register-lock by no step
but a power-on reset. A PROGRAM_BYTE that fails may have burnt some of its bits, and those stay. -/
def Obligations.IrreversibleUntilReset : Prop :=
  (∀ s t : State, step s = .next t → s.fusesKept t ∧
    (¬s.porNext →
      (s.keyAccessDisabled = true → t.keyAccessDisabled = true) ∧
      ∀ b, s.locked .reg b = true → ∀ k, t.locked k b = s.locked k b)) ∧
  (∀ (n : Nat) (s t : State), core.run n s = .next t → s.fusesKept t) ∧
  ∃ (a : StorageArray) (addr : ByteAddr) (val : Byte) (s t : State),
    exec (.programByte a addr val) s = .next t ∧ t.response = some ⟨.hardwareError, .none⟩ ∧
    s.readCell a addr.toNat ≠ t.readCell a addr.toNat ∧
    ∀ (n : Nat) (u : State), core.run n t = .next u →
      bitsWithin (t.readCell a addr.toNat) (u.readCell a addr.toNat)

/-- R174: the law of the command register, write by write; whether an accepted pulse burns is the next
pulse draw (D16). -/
def Obligations.CommandRegisterLaw : Prop :=
  ∀ (s : State) (v : RegWord),
    (v = s.cfg.armValue →
      s.writeCmd v = { s with regAccessCount := s.regAccessCount + 1,
                              regs := { s.regs with armed := true } }) ∧
    (v ≠ s.cfg.armValue → s.regs.armed = false →
      s.writeCmd v = { s with regAccessCount := s.regAccessCount + 1 }) ∧
    (v ≠ s.cfg.armValue → s.regs.armed = true → v ≠ s.cfg.progCmd →
      s.writeCmd v = { s with regAccessCount := s.regAccessCount + 1,
                              pulseCount := s.pulseCount + 1,
                              regs := { s.regs with armed := false } }) ∧
    (v ≠ s.cfg.armValue → s.regs.armed = true → v = s.cfg.progCmd →
      ∀ (p : Bool) (ps : List Bool), s.draws.pulse = p :: ps →
        ∃ t, s.writeCmd v = t ∧
          t = { s with
            key := t.key
            fuse := t.fuse
            regAccessCount := s.regAccessCount + 1
            pulseCount := s.pulseCount + 1
            regs := { s.regs with armed := false }
            draws := { s.draws with pulse := ps, drawn := s.draws.drawn + 1 } } ∧
          (p = false → t.key = s.key ∧ t.fuse = s.fuse) ∧
          (p = true → t.readCell s.regs.arr s.regs.byteAddr.toNat =
            s.readCell s.regs.arr s.regs.byteAddr.toNat ||| (1#8 <<< s.regs.bitPos.toNat)) ∧
          ∀ a n, (a ≠ s.regs.arr ∨ n ≠ s.regs.byteAddr.toNat) → t.readCell a n = s.readCell a n)

/-! ## Encoding -/

/-- R84: a command decodes to an operation exactly when its code is one of R83's, every bit outside
its format is 0, and it has a buffer if and only if the format is FB: the three conditions, read off
the masks of opcode_table.json (the codes and formats are D1's). -/
def Obligations.DecodesExactlyLegalCommands : Prop :=
  ∀ c : Command, (∃ i, decode c = .ok i) ↔ c.wellFormed = true

/-- Decoding what the encoder writes gives the operation back, every operand at every value. -/
def Obligations.DecodeOfEncode : Prop := ∀ i : Instr, decode (encode i) = .ok i

/-- A command that decodes is the encoding of what it decodes to: no two commands mean the same. -/
def Obligations.EncodeOfDecode : Prop := ∀ (c : Command) (i : Instr), decode c = .ok i → encode i = c

/-- R89, and vectors V-ENC-2 to V-ENC-15 of 95_test_vectors.md: words written out from the spec. -/
def Obligations.WordsOfTheSpec : Prop :=
  encode (.programByte .fuse 0x010 0xFF) = ⟨0x000000003FC02106, none⟩ ∧
  decode ⟨0x000000003FC02106, none⟩ = .ok (.programByte .fuse 0x010 0xFF) ∧
  decode ⟨0x00000000003FFF03, none⟩ = .ok (.readByte .fuse 0x1FFF) ∧
  decode ⟨0x0000000001002105, none⟩ = .ok (.programBit .fuse 0x010 4 false) ∧
  decode ⟨0x0000000000100002, none⟩ = .ok (.waitReady 4096) ∧
  decode ⟨0x000000FFFFFFF040, none⟩ = .ok (.magicInit 0xFFFFFFF0) ∧
  decode ⟨0x0000000000050612, none⟩ = .ok (.setBlockAccess 6 true false true) ∧
  decode ⟨0x0000000000001F30, none⟩ = .ok (.readKey .ecc 15) ∧
  decode ⟨0x0000000000022032, none⟩ = .ok (.uploadKey 32 2) ∧
  decode ⟨0x0000000000000133, none⟩ = .error .unassignedBits ∧
  decode ⟨0x0000000000000020, none⟩ = .error .bufferMissing ∧
  decode ⟨0x0000000000000003, some []⟩ = .error .bufferUnexpected ∧
  decode ⟨0x0000000000000000, none⟩ = .error .reservedCode

/-! ## The codecs -/

/-- R100: the nibble-parity codec is stateless. Where it answers, it writes nothing but the delivered
response, makes no register access, touches no array, and answers the same from every state of the same
configuration, which holds the tables. (For the fault of an odd length see NpDecodeResult.) -/
def Obligations.NibbleCodecIsStateless : Prop :=
  ∀ (i : Instr) (s t : State), (∃ buf, i = .npEncode buf ∨ i = .npDecode buf) → exec i s = .next t →
    t = { s with response := t.response } ∧
    ∀ s' : State, s'.cfg = s.cfg → exec i s' = .next { s' with response := t.response }

/-- R105, R107: NP_ENCODE. Byte 2i of the output carries the low nibble of input byte i, byte 2i+1 the
high nibble (the order is D3's); nothing but the delivered result changes. -/
def Obligations.NpEncodeResult : Prop :=
  ∀ (buf : List Byte) (s : State), ∃ out : List Byte,
    exec (.npEncode buf) s = .next { s with response := some ⟨.ok, .bytes out⟩ } ∧
    out.length = 2 * buf.length ∧
    ∀ (i : Nat) (b : Byte), buf[i]? = some b →
      out[2 * i]? = some (s.cfg.enc (b.extractLsb' 0 4)) ∧
      out[2 * i + 1]? = some (s.cfg.enc (b.extractLsb' 4 4))

/-- R106: NP_DECODE. On an even length every pair gives one byte, the corrected value being written
even on a sentinel; BadChecksum exactly when some lookup reports the sentinel (D3 for the pairing, D4
for what a report counts). An odd length stops with OddEncodedSize, whatever the state (C1, D5). -/
def Obligations.NpDecodeResult : Prop :=
  (∀ (buf : List Byte) (s : State), buf.length % 2 = 0 → ∃ (st : Status) (out : List Byte),
    exec (.npDecode buf) s = .next { s with response := some ⟨st, .bytes out⟩ } ∧
    out.length = buf.length / 2 ∧
    (∀ (i : Nat) (lo hi : Byte), buf[2 * i]? = some lo → buf[2 * i + 1]? = some hi →
      out[i]? = some (s.cfg.decValue hi ++ s.cfg.decValue lo)) ∧
    (st = .ok ∨ st = .badChecksum) ∧
    (st = .badChecksum ↔ ∃ e ∈ buf, s.cfg.decReport e = npSentinel)) ∧
  ∀ (buf : List Byte) (s : State), buf.length % 2 = 1 →
    exec (.npDecode buf) s =
      .fault (.oddEncodedSize { s with faulted := true, response := none })

/-- R108: with tables that meet R103's laws, an encoded buffer in which each encoded byte has at most
one flipped bit decodes to the original with Ok: the round trip, the single-bit correction, and the
independence of errors in different encoded bytes. -/
def Obligations.NpSingleErrorsCorrected : Prop :=
  ∀ (x : List Byte) (errs : List (Option BitPos)) (s : State), s.cfg.TableLaws →
    errs.length = 2 * x.length →
    exec (.npDecode (List.zipWith withError (npEncodeBytes s.cfg x) errs)) s =
      .next { s with response := some ⟨.ok, .bytes x⟩ }

/-- R108: two flipped bits in one encoded byte, anywhere in a buffer of even length whatever its other
bytes, give BadChecksum (law L3 of R103); the output has its full length all the same. -/
def Obligations.NpDoubleErrorDetected : Prop :=
  ∀ (buf : List Byte) (m : Nat) (n : Nibble) (j k : BitPos) (s : State), s.cfg.TableLaws →
    buf.length % 2 = 0 → j < k → buf[m]? = some (flipBit (flipBit (s.cfg.enc n) j) k) →
    ∃ out : List Byte, out.length = buf.length / 2 ∧
      exec (.npDecode buf) s = .next { s with response := some ⟨.badChecksum, .bytes out⟩ }

/-- R130: MAJ_ENCODE. Three copies one after another: byte k·N+i of the output is input byte i. -/
def Obligations.MajEncodeResult : Prop :=
  ∀ (buf : List Byte) (s : State), ∃ out : List Byte,
    exec (.majEncode buf) s = .next { s with response := some ⟨.ok, .bytes out⟩ } ∧
    out.length = 3 * buf.length ∧
    ∀ k < 3, ∀ i < buf.length, out[k * buf.length + i]? = buf[i]?

/-- R131: MAJ_DECODE. InvalidParameter with no output byte unless the length is a multiple of 3 (D6);
otherwise each bit of each output byte is 1 exactly when at least two of its three copies are. -/
def Obligations.MajDecodeResult : Prop :=
  (∀ (buf : List Byte) (s : State), buf.length % 3 ≠ 0 →
    exec (.majDecode buf) s = .next { s with response := some ⟨.invalidParameter, .bytes []⟩ }) ∧
  ∀ (buf : List Byte) (s : State), buf.length % 3 = 0 → ∃ out : List Byte,
    exec (.majDecode buf) s = .next { s with response := some ⟨.ok, .bytes out⟩ } ∧
    out.length = buf.length / 3 ∧
    ∀ (i : Nat) (b0 b1 b2 : Byte), i < buf.length / 3 → buf[i]? = some b0 →
      buf[buf.length / 3 + i]? = some b1 → buf[2 * (buf.length / 3) + i]? = some b2 →
      ∃ o, out[i]? = some o ∧ ∀ j < 8, o.getLsbD j =
        decide (2 ≤ [b0, b1, b2].countP fun b => b.getLsbD j)

/-- R132: any one of the three segments may be replaced by arbitrary bytes; the buffer decodes to the
original with Ok. With the segment unchanged this is the round trip. -/
def Obligations.MajorityOutvotesOneSegment : Prop :=
  ∀ (x y : List Byte) (s : State), y.length = x.length →
    exec (.majDecode (y ++ x ++ x)) s = .next { s with response := some ⟨.ok, .bytes x⟩ } ∧
    exec (.majDecode (x ++ y ++ x)) s = .next { s with response := some ⟨.ok, .bytes x⟩ } ∧
    exec (.majDecode (x ++ x ++ y)) s = .next { s with response := some ⟨.ok, .bytes x⟩ }

/-! ## The access gate -/

/-- R151: CHECK_READ_ALLOWED, with its encoding. One register access; true when the block is not
read-locked; a fault before any access for a block without a lock register. -/
def Obligations.CheckReadAllowedResult : Prop :=
  ∀ (blk : BitVec 8) (s : State),
    (encode (.checkReadAllowed blk)).word = blk.setWidth 64 <<< 8 ||| 0x10 ∧
    (blk.toNat < 8 * s.cfg.numLockRegs →
      exec (.checkReadAllowed blk) s =
        .next { s with
          regAccessCount := s.regAccessCount + 1
          response := some ⟨.ok, .flag (!((s.lockRegs (blk.toNat / 8)).read.getLsbD (blk.toNat % 8)))⟩ }) ∧
    (8 * s.cfg.numLockRegs ≤ blk.toNat →
      exec (.checkReadAllowed blk) s =
        .fault (.blockOutOfRange { s with faulted := true, response := none }))

/-- R152: CHECK_WRITE_ALLOWED, with its encoding. -/
def Obligations.CheckWriteAllowedResult : Prop :=
  ∀ (blk : BitVec 8) (s : State),
    (encode (.checkWriteAllowed blk)).word = blk.setWidth 64 <<< 8 ||| 0x11 ∧
    (blk.toNat < 8 * s.cfg.numLockRegs →
      exec (.checkWriteAllowed blk) s =
        .next { s with
          regAccessCount := s.regAccessCount + 1
          response := some ⟨.ok, .flag (!((s.lockRegs (blk.toNat / 8)).write.getLsbD (blk.toNat % 8)))⟩ }) ∧
    (8 * s.cfg.numLockRegs ≤ blk.toNat →
      exec (.checkWriteAllowed blk) s =
        .fault (.blockOutOfRange { s with faulted := true, response := none }))

/-- R153, R150: SET_BLOCK_ACCESS. On a block that has a lock register it completes with Ok; each asked
lock bit of a block that is not register-locked is set, no other bit of any lock register changes, two
accesses are made per asked lock; on any other block it stops with BlockOutOfRange (D8, D9). -/
def Obligations.SetBlockAccessResult : Prop :=
  ∀ (blk : BitVec 8) (lr lw lg : Bool) (s : State), s.LockInv →
    (blk.toNat < 8 * s.cfg.numLockRegs → ∃ ls : List LockRegs,
      exec (.setBlockAccess blk lr lw lg) s =
        .next { s with
          locks := ls
          regAccessCount := s.regAccessCount + 2 * (lr.toNat + lw.toNat + lg.toNat)
          response := some ⟨.ok, .none⟩ } ∧
      ls.length = s.locks.length ∧
      ∀ (k : LockKind) (b : Nat), b < 8 * s.cfg.numLockRegs →
        ({ s with locks := ls } : State).locked k b =
          (s.locked k b ||
            (b == blk.toNat && !s.locked .reg b &&
              match k with
              | .read => lr
              | .write => lw
              | .reg => lg))) ∧
    (8 * s.cfg.numLockRegs ≤ blk.toNat →
      exec (.setBlockAccess blk lr lw lg) s =
        .fault (.blockOutOfRange { s with faulted := true, response := none }))

/-- R156: a write of a lock register changes only the bits its register-lock leaves free, which take
the written value; no other lock register changes. -/
def Obligations.LockRegisterWriteLaw : Prop :=
  ∀ (s : State) (k : LockKind) (r : Nat) (v : Byte), r < s.locks.length →
    ∀ (k' : LockKind) (r' j : Nat), j < 8 →
      ((s.writeLock k r v).lockByteAt k' r').getLsbD j =
        if k' = k ∧ r' = r ∧ (s.lockByteAt .reg r).getLsbD j = false then v.getLsbD j
        else (s.lockByteAt k' r').getLsbD j

/-- R154: no step but a power-on reset clears a lock bit of any block or changes the permission triple
of a register-locked one; so neither do any number of steps with no power-on reset left in the host's
list. -/
def Obligations.RegisterLockIsPermanent : Prop :=
  (∀ s t : State, ¬s.porNext → step s = .next t →
    s.locksKept t ∧ ∀ b, s.locked .reg b = true → ∀ k, t.locked k b = s.locked k b) ∧
  ∀ (n : Nat) (s t : State), .powerOnReset ∉ s.pending → core.run n s = .next t →
    s.locksKept t ∧ ∀ b, s.locked .reg b = true → ∀ k, t.locked k b = s.locked k b

/-! ## The state machine -/

/-- R171: WAIT_READY. It ends at the first poll that reads ready, or after all of them with
HardwareError; it clears the acknowledgment either way, and changes nothing else. -/
def Obligations.WaitReadyResult : Prop :=
  ∀ (tmo : BitVec 32) (s : State),
    (∀ j < tmo.toNat, s.readyAt j = true → (∀ i < j, s.readyAt i = false) →
      exec (.waitReady tmo) s =
        .next { s with
          regAccessCount := s.regAccessCount + (j + 2)
          draws := s.draws.afterReady (j + 1)
          regs := { s.regs with ack := false }
          response := some ⟨.ok, .none⟩ }) ∧
    ((∀ i < tmo.toNat, s.readyAt i = false) →
      exec (.waitReady tmo) s =
        .next { s with
          regAccessCount := s.regAccessCount + (tmo.toNat + 1)
          draws := s.draws.afterReady tmo.toNat
          regs := { s.regs with ack := false }
          response := some ⟨.hardwareError, .none⟩ })

/-- R172 for every sequence of draws: READ_BYTE completes with Ok exactly if both polls see ready, the
second starting where the first ended, else with HardwareError; the stored byte if Ok and readable; it
leaves the scrub value in DATA, writes the address fields but not BITPOS, and
changes no array, lock, magic word or other register (D12). -/
def Obligations.ReadByteCompletes : Prop :=
  ∀ (a : StorageArray) (addr : ByteAddr) (s : State),
    s.clkValid = true → s.cfg.DistinctCommands → s.regs.armed = false →
    ∃ (t : State) (st : Status) (d : Byte),
      exec (.readByte a addr) s = .next t ∧ (st = .ok ∨ st = .hardwareError) ∧
      (st = .ok ↔ ∃ i j, i < waitTimeout ∧ j < waitTimeout ∧ (∀ k < i, s.readyAt k = false) ∧
        s.readyAt i = true ∧ s.readyAt (i + 1 + j) = true) ∧
      (st = .ok → s.readable a addr.toNat = true → d = s.readCell a addr.toNat) ∧
      t.fsm = (if st = .ok then .idle else .hardwareError) ∧
      s.regAccessCount + 9 ≤ t.regAccessCount ∧ t.regAccessCount ≤ s.regAccessCount + 8199 ∧
      t = { s with
        regs := { s.regs with ack := false, arr := a, byteAddr := addr, armed := false, data := 0x01 }
        fsm := t.fsm
        fsmTrace := t.fsm :: .pollingReady :: .readPulse :: .addressing :: s.fsmTrace
        regAccessCount := t.regAccessCount
        draws := t.draws
        response := some ⟨st, .byte d⟩ }

/-- R172, R68 with ready polls: nine register accesses, Ok, the stored byte where it is readable and
the drawn byte where it is not (D13); a byte is readable unless it is in KeyArray and the key-access-
disable bit is set or the block of a slot it lies in is read-locked. -/
def Obligations.ReadByteWhenReady : Prop :=
  (∀ (a : StorageArray) (addr : ByteAddr) (s : State),
    s.clkValid = true → s.cfg.DistinctCommands → s.readyFor 2 →
    ∃ t, exec (.readByte a addr) s = .next t ∧ t.regAccessCount = s.regAccessCount + 9 ∧
      t.fsm = .idle ∧
      t.response = some ⟨.ok, .byte
        (if s.readable a addr.toNat = true then s.readCell a addr.toNat
          else s.draws.byte.headD (Config.freeByte (s.draws.drawn + 2)))⟩) ∧
  ∀ (s : State) (a : StorageArray) (n : Nat), s.readable a n = true ↔
    ¬(a = .key ∧ (s.keyAccessDisabled = true ∨
      ∃ kt i, i < KeyType.slots kt ∧ (keySlot kt i).base ≤ n ∧
        n < (keySlot kt i).base + (keySlot kt i).size ∧ s.locked .read (keySlot kt i).block = true))

/-- R173: BIT_IS_PROGRAMMED is READ_BYTE with one bit of the byte in place of the byte. -/
def Obligations.BitIsProgrammedReadsOneBit : Prop :=
  ∀ (a : StorageArray) (addr : ByteAddr) (bit : BitPos) (s : State), s.clkValid = true →
    ∃ (t : State) (st : Status) (d : Byte), exec (.readByte a addr) s = .next t ∧
      t.response = some ⟨st, .byte d⟩ ∧
      exec (.bitIsProgrammed a addr bit) s =
        .next { t with response := some ⟨st, .flag (d.getLsbD bit.toNat)⟩ }

/-- R176, R180, R182 for every sequence of draws and both algorithms: PROGRAM_BIT completes with Ok or
HardwareError; the only fuse it can change is its own, which it can only set; the magic word is 0
afterwards (R187). Unless verify-first ends it with Ok, BITPOS takes the operand and the algorithm's own
control bit is 0, the other one's left alone; if it does, these and the arrays stay. What else the
state holds is left alone. -/
def Obligations.ProgramBitCompletes : Prop :=
  ∀ (a : StorageArray) (addr : ByteAddr) (bit : BitPos) (vfy : Bool) (s : State),
    s.clkValid = true → s.cfg.DistinctCommands →
    ∃ (t : State) (st : Status),
      exec (.programBit a addr bit vfy) s = .next t ∧ (st = .ok ∨ st = .hardwareError) ∧
      (∀ a' n, a' ≠ a ∨ n ≠ addr.toNat → t.readCell a' n = s.readCell a' n) ∧
      (t.readCell a addr.toNat = s.readCell a addr.toNat ∨
        t.readCell a addr.toNat = s.readCell a addr.toNat ||| (1#8 <<< bit.toNat)) ∧
      ((t.regs.bitPos = bit ∧
          (s.cfg.progAlgo = .smart → t.regs.smart = false ∧ t.regs.inProg = s.regs.inProg) ∧
          (s.cfg.progAlgo = .legacy → t.regs.inProg = false ∧ t.regs.smart = s.regs.smart)) ∨
        (vfy = true ∧ st = .ok ∧ t.regs.bitPos = s.regs.bitPos ∧ t.regs.smart = s.regs.smart ∧
          t.regs.inProg = s.regs.inProg ∧ t.key = s.key ∧ t.fuse = s.fuse)) ∧
      (s.warnLog.length ≤ t.warnLog.length ∧ t.warnLog.take s.warnLog.length = s.warnLog) ∧
      t = { s with
        key := t.key
        fuse := t.fuse
        magic := 0
        regs := { s.regs with
          ack := false, arr := a, byteAddr := addr, bitPos := t.regs.bitPos
          data := 0x01, armed := false, inProg := t.regs.inProg, smart := t.regs.smart }
        fsm := t.fsm
        fsmTrace := t.fsmTrace
        regAccessCount := t.regAccessCount
        pulseCount := t.pulseCount
        warnLog := t.warnLog
        draws := t.draws
        response := some ⟨st, .none⟩ }

/-- R180, R174 with ready polls and the right command: smart PROGRAM_BIT makes one pulse and 18
register accesses; the bit ends as it was, or 1 if the pulse burns; Ok exactly if it ends 1 (D15). -/
def Obligations.SmartProgramBitWhenReady : Prop :=
  ∀ (a : StorageArray) (addr : ByteAddr) (bit : BitPos) (s : State) (p : Bool) (ps : List Bool),
    s.cfg.progAlgo = .smart → s.clkValid = true → s.cfg.DistinctCommands → s.commandReady →
    s.readable a addr.toNat = true → s.readyFor 3 → s.draws.pulse = p :: ps →
    ∃ t, exec (.programBit a addr bit false) s = .next t ∧
      t.readCell a addr.toNat =
        (if p then s.readCell a addr.toNat ||| (1#8 <<< bit.toNat) else s.readCell a addr.toNat) ∧
      t.response =
        some ⟨if p || s.fuseBit a addr bit then .ok else .hardwareError, .none⟩ ∧
      t.regAccessCount = s.regAccessCount + 18 ∧ t.pulseCount = s.pulseCount + 1 ∧
      t.warnLog = s.warnLog ∧ t.regs.smart = false ∧ t.regs.data = 0x01 ∧ t.regs.bitPos = bit ∧
      t.magic = 0

/-- R182: for every sequence of draws legacy PROGRAM_BIT makes at least 4 and at most 20 pulses, all 20
where it returns HardwareError, and leaves DATA scrubbed and INPROG 0 on every exit (D17, D18; log
entry 22 for the premise on the magic word). With ready polls, the right command and twenty listed
pulse draws the verifications decide: Ok exactly if the bit was 1 or one of the twenty burns it; the
pulses stop at the first verification that reads 1, from the fourth pulse on. -/
def Obligations.LegacyProgramBitPulses : Prop :=
  (∀ (a : StorageArray) (addr : ByteAddr) (bit : BitPos) (s : State),
    s.cfg.progAlgo = .legacy → s.clkValid = true → s.cfg.DistinctCommands → s.commandNotArm →
    ∃ (t : State) (st : Status), exec (.programBit a addr bit false) s = .next t ∧
      t.response = some ⟨st, .none⟩ ∧
      s.pulseCount + 4 ≤ t.pulseCount ∧ t.pulseCount ≤ s.pulseCount + 20 ∧
      (st ≠ .ok → st = .hardwareError ∧ t.pulseCount = s.pulseCount + 20) ∧
      t.regs.data = 0x01 ∧ t.regs.inProg = false ∧ t.regs.bitPos = bit) ∧
  ∀ (a : StorageArray) (addr : ByteAddr) (bit : BitPos) (s : State),
    s.cfg.progAlgo = .legacy → s.clkValid = true → s.cfg.DistinctCommands → s.commandReady →
    s.readable a addr.toNat = true → s.readyFor 60 → 20 ≤ s.draws.pulse.length →
    ∃ t, exec (.programBit a addr bit false) s = .next t ∧
      t.response = some
        ⟨if s.fuseBit a addr bit || (s.draws.pulse.take 20).any id then .ok else .hardwareError,
          .none⟩ ∧
      t.readCell a addr.toNat =
        (if (s.draws.pulse.take 20).any id then s.readCell a addr.toNat ||| (1#8 <<< bit.toNat)
          else s.readCell a addr.toNat) ∧
      t.pulseCount = s.pulseCount +
        (if s.fuseBit a addr bit then 4 else ProgAlgo.legacy.pulsesFor s.draws.pulse)

/-- R176: with verify-first and ready polls, a bit that is already 1 gives Ok with one read transaction
and no pulse, and the magic word is 0 all the same (R187). -/
def Obligations.VerifyFirstShortCircuits : Prop :=
  ∀ (a : StorageArray) (addr : ByteAddr) (bit : BitPos) (s : State),
    s.clkValid = true → s.regs.armed = false → s.readable a addr.toNat = true → s.readyFor 2 →
    s.fuseBit a addr bit = true →
    ∃ t, exec (.programBit a addr bit true) s = .next t ∧ t.response = some ⟨.ok, .none⟩ ∧
      t.pulseCount = s.pulseCount ∧ t.key = s.key ∧ t.fuse = s.fuse ∧
      t.regAccessCount = s.regAccessCount + 9 ∧ t.magic = 0

/-- R184 for every sequence of draws and both algorithms: PROGRAM_BYTE completes with Ok or
HardwareError; no byte but its own changes, and that one gains only bits of the value; where a bit was
programmed the algorithm's own control bit is 0, the other one's left alone; the magic word is 0
afterwards (R187); the rest is left alone. -/
def Obligations.ProgramByteCompletes : Prop :=
  ∀ (a : StorageArray) (addr : ByteAddr) (val : Byte) (s : State),
    s.clkValid = true → s.cfg.DistinctCommands →
    ∃ (t : State) (st : Status),
      exec (.programByte a addr val) s = .next t ∧ (st = .ok ∨ st = .hardwareError) ∧
      (∀ a' n, a' ≠ a ∨ n ≠ addr.toNat → t.readCell a' n = s.readCell a' n) ∧
      bitsWithin (s.readCell a addr.toNat) (t.readCell a addr.toNat) ∧
      bitsWithin (t.readCell a addr.toNat) (s.readCell a addr.toNat ||| val) ∧
      ((t.regs.bitPos = s.regs.bitPos ∧ t.regs.smart = s.regs.smart ∧
          t.regs.inProg = s.regs.inProg ∧ t.key = s.key ∧ t.fuse = s.fuse) ∨
        ((s.cfg.progAlgo = .smart → t.regs.smart = false ∧ t.regs.inProg = s.regs.inProg) ∧
          (s.cfg.progAlgo = .legacy → t.regs.inProg = false ∧ t.regs.smart = s.regs.smart))) ∧
      (s.warnLog.length ≤ t.warnLog.length ∧ t.warnLog.take s.warnLog.length = s.warnLog) ∧
      t = { s with
        key := t.key
        fuse := t.fuse
        magic := 0
        regs := { s.regs with
          ack := false, arr := a, byteAddr := addr, bitPos := t.regs.bitPos
          data := 0x01, armed := false, inProg := t.regs.inProg, smart := t.regs.smart }
        fsm := t.fsm
        fsmTrace := t.fsmTrace
        regAccessCount := t.regAccessCount
        pulseCount := t.pulseCount
        warnLog := t.warnLog
        draws := t.draws
        response := some ⟨st, .none⟩ }

/-- R184 with ready polls, the right command, a readable byte and any listed pulse draws: every missing
bit is attempted in ascending order (D20), whether or not an earlier one failed, and the status is Ok
exactly if every bit of the value reads 1 in the end. R189: where every accepted pulse burns, the byte
ends at `old | val` with Ok, whichever algorithm is built in; 50 polls and 32 pulses are enough. -/
def Obligations.ProgramByteReachesOr : Prop :=
  (∀ (a : StorageArray) (addr : ByteAddr) (val : Byte) (s : State),
    s.clkValid = true → s.cfg.DistinctCommands → s.commandReady →
    s.readable a addr.toNat = true → s.readyFor 482 → 160 ≤ s.draws.pulse.length →
    ∃ t, exec (.programByte a addr val) s = .next t ∧
      t.readCell a addr.toNat = s.readCell a addr.toNat |||
        burntBits s.cfg.progAlgo (~~~(s.readCell a addr.toNat) &&& val) [0, 1, 2, 3, 4, 5, 6, 7]
          s.draws.pulse ∧
      t.response = some
        ⟨if bitsWithin val (t.readCell a addr.toNat) then .ok else .hardwareError, .none⟩) ∧
  ∀ (a : StorageArray) (addr : ByteAddr) (val : Byte) (s : State),
    s.clkValid = true → s.cfg.DistinctCommands → s.commandReady →
    s.readable a addr.toNat = true → s.readyFor 50 → s.burnsFor 32 →
    ∃ t, exec (.programByte a addr val) s = .next t ∧
      t.readCell a addr.toNat = s.readCell a addr.toNat ||| val ∧
      t.response = some ⟨.ok, .none⟩

/-- R189: where every bit of the value is already programmed, PROGRAM_BYTE with ready polls issues no
pulse, makes one read transaction and returns Ok. -/
def Obligations.ProgramByteIdempotent : Prop :=
  ∀ (a : StorageArray) (addr : ByteAddr) (val : Byte) (s : State),
    s.clkValid = true → s.regs.armed = false → s.readable a addr.toNat = true → s.readyFor 2 →
    bitsWithin val (s.readCell a addr.toNat) →
    ∃ t, exec (.programByte a addr val) s = .next t ∧ t.response = some ⟨.ok, .none⟩ ∧
      t.pulseCount = s.pulseCount ∧ t.key = s.key ∧ t.fuse = s.fuse ∧
      t.regAccessCount = s.regAccessCount + 9 ∧ t.magic = 0

/-- R172, R173, R176, R184: without a configured clock the four array operations stop with
ClockNotConfigured before any register access (D47). -/
def Obligations.UnconfiguredClockFaults : Prop :=
  ∀ (i : Instr) (s : State), i.needsClock = true → s.clkValid = false →
    exec i s = .fault (.clockNotConfigured { s with faulted := true, response := none })

/-- R186: INIT; a clock of 0 MHz stops with BadClock (D23, D48). -/
def Obligations.InitResult : Prop :=
  (∀ (clk : BitVec 8) (s : State), clk ≠ 0 →
    exec (.init clk) s =
      .next { s with
        regs := { s.regs with clkMhz := clk }
        clkValid := true
        magic := 0
        fsm := .idle
        fsmTrace := .idle :: s.fsmTrace
        regAccessCount := s.regAccessCount + 1
        response := some ⟨.ok, .none⟩ }) ∧
  ∀ s : State, exec (.init 0) s = .fault (.badClock { s with faulted := true, response := none })

/-- R188, R284: for every sequence of draws an operation makes a bounded number of register accesses:
READ_BYTE, and PROGRAM_BIT and PROGRAM_BYTE of either algorithm, in numbers of accesses with 4096
polls to a wait. -/
def Obligations.ArrayOperationsAreBounded : Prop :=
  ∀ s t : State,
    (∀ a addr, exec (.readByte a addr) s = .next t → t.regAccessCount ≤ s.regAccessCount + 8199) ∧
    (∀ a addr bit vfy, s.cfg.progAlgo = .smart → exec (.programBit a addr bit vfy) s = .next t →
      t.regAccessCount ≤ s.regAccessCount + 20502) ∧
    (∀ a addr bit vfy, s.cfg.progAlgo = .legacy → exec (.programBit a addr bit vfy) s = .next t →
      t.regAccessCount ≤ s.regAccessCount + 229568) ∧
    ∀ a addr val, exec (.programByte a addr val) s = .next t →
      t.regAccessCount ≤ s.regAccessCount + 1779151

/-! ## The key vault -/

/-- R66, R67: the slot map; every slot lies in the array, has a block below 48, and no two slots
share a byte or a block. -/
def Obligations.KeySlotsAreDisjoint : Prop :=
  ∀ (kt kt' : KeyType) (i j : Nat), i < kt.slots → j < kt'.slots →
    (keySlot kt i).base + (keySlot kt i).size ≤ 8192 ∧ (keySlot kt i).block < 48 ∧
    ((kt, i) ≠ (kt', j) →
      (keySlot kt i).block ≠ (keySlot kt' j).block ∧
      ∀ n, ¬((keySlot kt i).holds n = true ∧ (keySlot kt' j).holds n = true))

/-- R230, R275: READ_KEY's early ends in their order: a bad index before any register access; a set
strap or read-lock after exactly the two gate reads, with no read transaction (C5); an unconfigured
clock after a granted check (D24, D47). -/
def Obligations.ReadKeyEarlyEnds : Prop :=
  ∀ (kt : KeyType) (kidx : BitVec 8) (s : State),
    (kt.slots ≤ kidx.toNat →
      exec (.readKey kt kidx) s = .next { s with response := some ⟨.invalidParameter, .bytes []⟩ }) ∧
    (kidx.toNat < kt.slots →
      (s.keyAccessDisabled = true ∨ s.locked .read (keySlot kt kidx.toNat).block = true) →
      exec (.readKey kt kidx) s =
        .next { s with
          regAccessCount := s.regAccessCount + 2
          response := some ⟨.accessDenied, .bytes []⟩ }) ∧
    (kidx.toNat < kt.slots → s.keyAccessDisabled = false →
      s.locked .read (keySlot kt kidx.toNat).block = false → s.clkValid = false →
      exec (.readKey kt kidx) s =
        .fault (.clockNotConfigured
          { s with faulted := true, response := none, regAccessCount := s.regAccessCount + 2 }))

/-- R230 with ready polls: a granted READ_KEY delivers the slot's stored bytes in ascending address
order (R61) with Ok, in 2 + 9·size register accesses. -/
def Obligations.ReadKeyDeliversSlot : Prop :=
  ∀ (kt : KeyType) (kidx : BitVec 8) (s : State),
    kidx.toNat < kt.slots → s.keyAccessDisabled = false →
    s.locked .read (keySlot kt kidx.toNat).block = false → s.clkValid = true →
    s.cfg.DistinctCommands → s.readyFor (2 * (keySlot kt kidx.toNat).size) →
    ∃ t, exec (.readKey kt kidx) s = .next t ∧
      t.response = some ⟨.ok, .bytes ((List.range (keySlot kt kidx.toNat).size).map fun j =>
        s.readCell .key ((keySlot kt kidx.toNat).base + j))⟩ ∧
      t.regAccessCount = s.regAccessCount + 2 + 9 * (keySlot kt kidx.toNat).size

/-- R230 for every sequence of draws: a granted READ_KEY is the READ_BYTEs of its slot's bytes in
ascending order, from the state after the two gate reads on: it delivers their bytes, each the stored
one where its read was Ok, and HardwareError if one of them timed out, which ends nothing, else Ok; of
the state it changes only what its read transactions change. -/
def Obligations.ReadKeyCompletes : Prop :=
  ∀ (kt : KeyType) (kidx : BitVec 8) (s : State),
    s.cfg.DistinctCommands → s.regs.armed = false →
    kidx.toNat < kt.slots → s.keyAccessDisabled = false →
    s.locked .read (keySlot kt kidx.toNat).block = false → s.clkValid = true →
    ∃ (u : Nat → State) (st : Nat → Status) (d : Nat → Byte) (t : State),
      u 0 = { s with regAccessCount := s.regAccessCount + 2 } ∧
      (∀ j < (keySlot kt kidx.toNat).size,
        exec (.readByte .key (BitVec.ofNat 13 ((keySlot kt kidx.toNat).base + j))) (u j) =
          .next (u (j + 1)) ∧
        (u (j + 1)).response = some ⟨st j, .byte (d j)⟩ ∧
        (st j = .ok ∨ st j = .hardwareError) ∧
        (st j = .ok → d j = s.readCell .key ((keySlot kt kidx.toNat).base + j))) ∧
      exec (.readKey kt kidx) s = .next t ∧
      t = { u (keySlot kt kidx.toNat).size with
        response := some
          ⟨if ∀ j < (keySlot kt kidx.toNat).size, st j = .ok then .ok else .hardwareError,
            .bytes ((List.range (keySlot kt kidx.toNat).size).map d)⟩ } ∧
      t = { s with
        regs := { s.regs with
          ack := false, arr := .key, data := 0x01
          byteAddr := BitVec.ofNat 13
            ((keySlot kt kidx.toNat).base + (keySlot kt kidx.toNat).size - 1) }
        fsm := t.fsm
        fsmTrace := t.fsmTrace
        regAccessCount := t.regAccessCount
        draws := t.draws
        response := t.response }

/-- R230, R231, R232: the key vault never reveals a locked key through READ_KEY: where the gate denies,
the outcome is the same whatever the key array holds. -/
def Obligations.DeniedReadKeyRevealsNothing : Prop :=
  ∀ (kt : KeyType) (kidx : BitVec 8) (s : State) (m : Memory),
    (s.keyAccessDisabled = true ∨ s.locked .read (keySlot kt kidx.toNat).block = true) →
    ∃ t, exec (.readKey kt kidx) s = .next t ∧
      exec (.readKey kt kidx) { s with key := m } = .next { t with key := m } ∧ t.key = s.key

/-- R231: SELECT_KEY. An index of 16 or more is InvalidParameter with no access; otherwise KIND takes
the index, KSIZE and ECCDIS keep their values, and the bounded poll decides the status (D25). -/
def Obligations.SelectKeyResult : Prop :=
  ∀ (kidx : BitVec 8) (s : State),
    (16 ≤ kidx.toNat →
      exec (.selectKey kidx) s = .next { s with response := some ⟨.invalidParameter, .none⟩ }) ∧
    (kidx.toNat < 16 → ∀ j < s.cfg.selectKeyRetries, s.kvalAt j = true →
      (∀ i < j, s.kvalAt i = false) →
      exec (.selectKey kidx) s =
        .next { s with
          regs := { s.regs with keyInd := { s.regs.keyInd with kind := kidx.setWidth 4 } }
          regAccessCount := s.regAccessCount + (j + 3)
          draws := s.draws.afterKval (j + 1)
          response := some ⟨.ok, .none⟩ }) ∧
    (kidx.toNat < 16 → (∀ i < s.cfg.selectKeyRetries, s.kvalAt i = false) →
      exec (.selectKey kidx) s =
        .next { s with
          regs := { s.regs with keyInd := { s.regs.keyInd with kind := kidx.setWidth 4 } }
          regAccessCount := s.regAccessCount + (s.cfg.selectKeyRetries + 2)
          draws := s.draws.afterKval s.cfg.selectKeyRetries
          response := some ⟨.hardwareError, .none⟩ })

/-- R232: UPLOAD_KEY. An index of 16 or more is InvalidParameter with no access; otherwise KSIZE and
KIND take the operands and ECCDIS keeps its value; if the first poll reads KVAL = 1 it ends with Ok,
else it waits, with no status yet (D25, D26; log entry 6). -/
def Obligations.UploadKeyResult : Prop :=
  ∀ (ksz kidx : BitVec 8) (s : State),
    (16 ≤ kidx.toNat →
      exec (.uploadKey ksz kidx) s = .next { s with response := some ⟨.invalidParameter, .none⟩ }) ∧
    (kidx.toNat < 16 →
      exec (.uploadKey ksz kidx) s =
        .next { s with
          regs := { s.regs with
            keyInd := { s.regs.keyInd with ksize := ksz, kind := kidx.setWidth 4 } }
          regAccessCount := s.regAccessCount + 3
          draws := s.draws.afterKval 1
          uploading := !s.kvalAt 0
          response := if s.kvalAt 0 then some ⟨.ok, .none⟩ else none })

/-- R307, R284: a waiting UPLOAD_KEY whose poll number n is the first to read KVAL = 1 ends with Ok at
that step, one register access to each poll; as long as no poll reads 1 it goes on waiting. -/
def Obligations.UploadKeyEndsWhenKvalRises : Prop :=
  ∀ (n : Nat) (s : State), s.uploading = true → (∀ i < n, s.kvalAt i = false) →
    (s.kvalAt n = true → ∃ t, core.run (n + 1) s = .next t ∧ t.uploading = false ∧
      t.response = some ⟨.ok, .none⟩ ∧ t.regAccessCount = s.regAccessCount + (n + 1) ∧
      t.position = s.position + 1 ∧ t.pending = s.pending.tail) ∧
    ∃ t, core.run n s = .next t ∧ t.uploading = true ∧ t.position = s.position ∧
      t.pending = s.pending ∧ t.regAccessCount = s.regAccessCount + n

/-- R284: every operation but UPLOAD_KEY ends within its own step. -/
def Obligations.OnlyUploadKeyWaits : Prop :=
  ∀ (i : Instr) (s t : State), exec i s = .next t → s.uploading = false → t.uploading = true →
    ∃ ksz kidx, i = .uploadKey ksz kidx ∧ kidx.toNat < 16

/-- R233: DISABLE_KEY_ACCESS, with its encoding. It always returns Ok; issued again it changes no more
than the access count; no step but a power-on reset undoes it; from then on every READ_KEY of a slot
is denied and no byte of KeyArray is readable raw. -/
def Obligations.DisableKeyAccessIsPermanent : Prop :=
  encode .disableKeyAccess = ⟨0x33, none⟩ ∧
  (∀ s : State, exec .disableKeyAccess s =
    .next { s with keyAccessDisabled := true, regAccessCount := s.regAccessCount + 1,
                   response := some ⟨.ok, .none⟩ }) ∧
  (∀ s t : State, s.keyAccessDisabled = true → ¬s.porNext → step s = .next t →
    t.keyAccessDisabled = true) ∧
  (∀ (s : State) (kt : KeyType) (kidx : BitVec 8), s.keyAccessDisabled = true →
    kidx.toNat < kt.slots → ∃ t, exec (.readKey kt kidx) s = .next t ∧
      t.response = some ⟨.accessDenied, .bytes []⟩) ∧
  ∀ (s : State) (n : Nat), s.keyAccessDisabled = true → s.readable .key n = false

/-! ## The magic word -/

/-- R260, R261, R262: MAGIC_INIT overwrites the word, MAGIC_ACCUMULATE adds modulo 2^32 (D30), MAGIC_GET
returns it and changes nothing; none makes a register access. After INIT (D48) and after any PROGRAM_BIT
or PROGRAM_BYTE (D19) MAGIC_GET returns 0. The code of MAGIC_GET is D1's. -/
def Obligations.MagicOperationsResult : Prop :=
  (∀ (v : BitVec 32) (s : State),
    exec (.magicInit v) s = .next { s with magic := v, response := some ⟨.ok, .none⟩ } ∧
    exec (.magicAccumulate v) s =
      .next { s with
        magic := BitVec.ofNat 32 ((s.magic.toNat + v.toNat) % 2 ^ 32)
        response := some ⟨.ok, .none⟩ }) ∧
  encode .magicGet = ⟨0x42, none⟩ ∧
  (∀ s : State, exec .magicGet s = .next { s with response := some ⟨.ok, .word s.magic⟩ }) ∧
  ∀ (i : Instr) (s t : State), exec i s = .next t → (i.programs = true ∨ ∃ clk, i = .init clk) →
    exec .magicGet t = .next { t with response := some ⟨.ok, .word 0⟩ }

/-- R187: every PROGRAM_BIT and PROGRAM_BYTE that returns a status leaves the magic word 0, and one
that faults leaves it as it was (D19); no operation but these, INIT and the magic operations changes
it. -/
def Obligations.MagicWordIsSingleUse : Prop :=
  ∀ (i : Instr) (s : State),
    (∀ t, exec i s = .next t → i.programs = true → t.magic = 0) ∧
    (∀ f, exec i s = .fault f → f.left.magic = s.magic) ∧
    ∀ t, exec i s = .next t → t.magic ≠ s.magic →
      i.programs = true ∨ (∃ clk, i = .init clk) ∨ (∃ v, i = .magicInit v) ∨
        ∃ v, i = .magicAccumulate v

/-- R263, R175, R308: under MAGIC_CAP a program operation with a wrong magic word changes no fuse,
whatever the draws; where it has a bit to pulse it still logs the mismatch and issues a pulse, a word
equal to ARM_VALUE apart (log entry 22). -/
def Obligations.WrongMagicBurnsNothing : Prop :=
  ∀ (i : Instr) (s t : State), i.programs = true → s.cfg.magicCap = true →
    s.magic ≠ s.cfg.progCmd → s.cfg.DistinctCommands → exec i s = .next t →
    t.key = s.key ∧ t.fuse = s.fuse ∧
    (s.hasBitToPulse i →
      (∃ n, 0 < n ∧ t.warnLog = s.warnLog ++ List.replicate n .magicMismatch) ∧
      (s.magic ≠ s.cfg.armValue → s.pulseCount < t.pulseCount))

/-! ## Statuses, faults, observations -/

/-- R270: every operation that ends delivers one status, one of those its rule names; a waiting
UPLOAD_KEY has delivered none yet. R271: `worst` is the later of two statuses in Ok < BadChecksum <
HardwareError < AccessDenied < InvalidParameter. The numeric codes and the order are D7's. -/
def Obligations.StatusesReturned : Prop :=
  ([Status.ok, .badChecksum, .hardwareError, .accessDenied, .invalidParameter].Pairwise
    (fun x y => x.worst y = y ∧ y.worst x = y) ∧ ∀ x : Status, x.worst x = x) ∧
  (Status.ok.code = 0 ∧ Status.hardwareError.code = 1 ∧ Status.accessDenied.code = 2 ∧
    Status.invalidParameter.code = 3 ∧ Status.badChecksum.code = 4) ∧
  ∀ (i : Instr) (s t : State), exec i s = .next t → s.uploading = false → t.uploading = false →
    ∃ r, t.response = some r ∧ i.mayReturn r.status = true

/-- R272, R276: what raises each fault, and the state a fault leaves: the mark set, no status, and
otherwise the state before the operation, with the two gate reads of READ_KEY counted. -/
def Obligations.FaultsAndWhatTheyLeave : Prop :=
  ∀ (i : Instr) (s : State) (f : Fault), exec i s = .fault f →
    (∃ n, n ≤ 2 ∧ f.left = { s with faulted := true, response := none,
                                    regAccessCount := s.regAccessCount + n }) ∧
    match f with
    | .oddEncodedSize _ => ∃ b, i = .npDecode b ∧ b.length % 2 = 1
    | .blockOutOfRange _ =>
      ∃ blk : BitVec 8, 8 * s.cfg.numLockRegs ≤ blk.toNat ∧
        (i = .checkReadAllowed blk ∨ i = .checkWriteAllowed blk ∨
          ∃ lr lw lg, i = .setBlockAccess blk lr lw lg)
    | .clockNotConfigured _ =>
      s.clkValid = false ∧ (i.needsClock = true ∨ ∃ kt kidx, i = .readKey kt kidx)
    | .badClock _ => i = .init 0

/-- R45, R46: the observation counters never go down and the warning log only grows, by mismatch
warnings. -/
def Obligations.ObservationsOnlyGrow : Prop :=
  ∀ s t : State, step s = .next t →
    s.regAccessCount ≤ t.regAccessCount ∧ s.pulseCount ≤ t.pulseCount ∧
    ∃ n, t.warnLog = s.warnLog ++ List.replicate n .magicMismatch

/-- R155, R278: the raw read and program operations consult neither the gate nor the key-access-disable
bit: with other lock registers and another strap value they do the same, on FuseArray always, on
KeyArray where these leave the addressed byte as readable as it was (R68, D13). -/
def Obligations.RawOperationsIgnoreTheGate : Prop :=
  ∀ (i : Instr) (s t : State) (ls : List LockRegs) (dis : Bool) (a : StorageArray) (addr : ByteAddr),
    (∃ bit vfy val, i = .readByte a addr ∨ i = .bitIsProgrammed a addr bit ∨
      i = .programBit a addr bit vfy ∨ i = .programByte a addr val) →
    (a = .fuse ∨
      State.readable { s with locks := ls, keyAccessDisabled := dis } a addr.toNat =
        s.readable a addr.toNat) →
    exec i s = .next t →
    exec i { s with locks := ls, keyAccessDisabled := dis } =
      .next { t with locks := ls, keyAccessDisabled := dis }
end

