-- ==== Sys2Proof/Laws/Codec.lean ====
section
/-! SUPPORT. The codecs bit by bit: nibbles and votes (spec/40_ecc_nibble.md R107, spec/41_ecc_majority.md R131). -/

namespace Sys2Proof.Machine

/-- The nibbles of a byte put back together. -/
theorem nibbles_append (b : Byte) : highNibble b ++ lowNibble b = b := by
  revert b
  decide +kernel

/-- The vote of three bits. -/
theorem maj_bit (b0 b1 b2 : Byte) (j : Nat) :
    (maj b0 b1 b2).getLsbD j =
      ((b1.getLsbD j && (b0.getLsbD j || b2.getLsbD j)) || (b0.getLsbD j && b2.getLsbD j)) := by
  simp [maj]

/-- Two equal copies decide the vote. -/
theorem maj_self (x y : Byte) : maj y x x = x ∧ maj x y x = x ∧ maj x x y = x := by
  refine ⟨?_, ?_, ?_⟩
  all_goals
    apply BitVec.eq_of_getLsbD_eq
    intro j _
    rw [maj_bit]
    cases x.getLsbD j <;> cases y.getLsbD j <;> rfl

theorem npDecodeBytes_length (c : Config) (buf : List Byte) :
    (npDecodeBytes c buf).length = buf.length / 2 := by
  induction buf using npDecodeBytes.induct with
  | case1 lo hi rest ih =>
    simp only [npDecodeBytes, List.length_cons, ih]
    omega
  | case2 buf h =>
    rcases buf with _ | ⟨x, _ | ⟨y, ys⟩⟩
    · rfl
    · simp [npDecodeBytes]
    · exact absurd rfl (h x y ys)

/-- A buffer is bad exactly where one of its lookups reports the sentinel (R106), its length being
even. -/
theorem npAnyBad_iff (c : Config) (buf : List Byte) (h : buf.length % 2 = 0) :
    npAnyBad c buf = true ↔ ∃ e ∈ buf, c.decReport e = npSentinel := by
  induction buf using npDecodeBytes.induct with
  | case1 lo hi rest ih =>
    have hr : rest.length % 2 = 0 := by
      simp only [List.length_cons] at h
      omega
    simp [npAnyBad, npPairBad, ih hr, or_assoc]
  | case2 buf h' =>
    rcases buf with _ | ⟨x, _ | ⟨y, ys⟩⟩
    · simp [npAnyBad]
    · simp at h
    · exact absurd rfl (h' x y ys)

end Sys2Proof.Machine
end

