-- ==== Sys2Proof/Laws/Encoding.lean ====
section
/-! SUPPORT. Command words as numbers: what a field of a word is, and what the word of an encoding is, so
that facts about encodings are arithmetic. -/

namespace Sys2Proof

/-- A field of a word as a number. -/
theorem CmdWord.toNat_field (w : CmdWord) (lo n : Nat) :
    (CmdWord.field w lo n).toNat = w.toNat / 2 ^ lo % 2 ^ n := by
  simp [CmdWord.field, BitVec.extractLsb'_toNat, Nat.shiftRight_eq_div_pow]

/-- A flag of a word as a number. -/
theorem CmdWord.flag_eq (w : CmdWord) (k : Nat) :
    CmdWord.flag w k = decide (w.toNat / 2 ^ k % 2 = 1) := by
  simp [CmdWord.flag, BitVec.getLsbD, Nat.testBit_eq_decide_div_mod_eq]

/-- Two words one after the other, as a number. -/
theorem toNat_append_eq {m n : Nat} (x : BitVec m) (y : BitVec n) :
    (x ++ y).toNat = x.toNat * 2 ^ n + y.toNat := by
  rw [BitVec.toNat_append, Nat.shiftLeft_eq, Nat.mul_comm, Nat.two_pow_add_eq_or_of_lt y.isLt]

theorem StorageArray.ofBit_toBit (a : StorageArray) : StorageArray.ofBit (a.toBit.toNat == 1) = a := by
  cases a <;> rfl

theorem KeyType.ofBit_toBit (k : KeyType) : KeyType.ofBit (k.toBit.toNat == 1) = k := by
  cases k <;> rfl

/-- The word of a command without a buffer. -/
theorem Command.plain_word {n : Nat} (x : BitVec n) (h : n ≤ 64) :
    (Command.plain x).word.toNat = x.toNat := by
  have : x.toNat < 2 ^ 64 := lt_of_lt_of_le x.isLt (Nat.pow_le_pow_right (by decide) h)
  simpa [Command.plain] using this

@[simp] theorem Command.plain_buf {n : Nat} (x : BitVec n) : (Command.plain x).buf = none := rfl

/-- A command of a plain format decodes where its word is short enough. -/
theorem decodePlain_ok {c : Command} {width : Nat} {i : Instr} (h : c.word.toNat < 2 ^ width)
    (hb : c.buf = none) : decodePlain c width i = .ok i := by
  simp [decodePlain, Nat.not_le.2 h, hb]

/-- What a plain format decodes. -/
theorem decodePlain_eq_ok {c : Command} {width : Nat} {i j : Instr} :
    decodePlain c width i = .ok j ↔ c.word.toNat < 2 ^ width ∧ c.buf = none ∧ i = j := by
  unfold decodePlain
  split_ifs with h
  · simp [Nat.not_lt.2 h]
  · cases c.buf <;> simp [Nat.not_le.1 h]

/-- What format FB decodes. -/
theorem decodeBuffered_eq_ok {c : Command} {mk : List Byte → Instr} {j : Instr} :
    decodeBuffered c mk = .ok j ↔ c.word.toNat < 2 ^ 8 ∧ ∃ b, c.buf = some b ∧ mk b = j := by
  unfold decodeBuffered
  split_ifs with h
  · simp only [Nat.not_lt.2 h, false_and]
  · simp only [Nat.not_le.1 h, true_and]
    cases c.buf <;> simp

end Sys2Proof
end

