-- ==== Sys2Proof/Laws/State.lean ====
section
/-! SUPPORT. One lemma for each field of the state and each plain update of it, so that no proof unfolds
a record update. -/

namespace Sys2Proof.Machine

variable (s : State)

/-! ### access -/

@[simp] theorem State.access_cfg : s.access.cfg = s.cfg := rfl
@[simp] theorem State.access_key : s.access.key = s.key := rfl
@[simp] theorem State.access_fuse : s.access.fuse = s.fuse := rfl
@[simp] theorem State.access_locks : s.access.locks = s.locks := rfl
@[simp] theorem State.access_keyAccessDisabled :
    s.access.keyAccessDisabled = s.keyAccessDisabled := rfl
@[simp] theorem State.access_magic : s.access.magic = s.magic := rfl
@[simp] theorem State.access_regs : s.access.regs = s.regs := rfl
@[simp] theorem State.access_fsm : s.access.fsm = s.fsm := rfl
@[simp] theorem State.access_clkValid : s.access.clkValid = s.clkValid := rfl
@[simp] theorem State.access_regAccessCount : s.access.regAccessCount = s.regAccessCount + 1 := rfl
@[simp] theorem State.access_pulseCount : s.access.pulseCount = s.pulseCount := rfl
@[simp] theorem State.access_warnLog : s.access.warnLog = s.warnLog := rfl
@[simp] theorem State.access_faulted : s.access.faulted = s.faulted := rfl
@[simp] theorem State.access_position : s.access.position = s.position := rfl
@[simp] theorem State.access_pending : s.access.pending = s.pending := rfl
@[simp] theorem State.access_draws : s.access.draws = s.draws := rfl
@[simp] theorem State.access_uploading : s.access.uploading = s.uploading := rfl
@[simp] theorem State.access_response : s.access.response = s.response := rfl
@[simp] theorem State.access_fsmTrace : s.access.fsmTrace = s.fsmTrace := rfl

/-! ### drawReady -/

@[simp] theorem State.drawReady_cfg : s.drawReady.2.cfg = s.cfg := rfl
@[simp] theorem State.drawReady_key : s.drawReady.2.key = s.key := rfl
@[simp] theorem State.drawReady_fuse : s.drawReady.2.fuse = s.fuse := rfl
@[simp] theorem State.drawReady_locks : s.drawReady.2.locks = s.locks := rfl
@[simp] theorem State.drawReady_keyAccessDisabled :
    s.drawReady.2.keyAccessDisabled = s.keyAccessDisabled := rfl
@[simp] theorem State.drawReady_magic : s.drawReady.2.magic = s.magic := rfl
@[simp] theorem State.drawReady_regs : s.drawReady.2.regs = s.regs := rfl
@[simp] theorem State.drawReady_fsm : s.drawReady.2.fsm = s.fsm := rfl
@[simp] theorem State.drawReady_clkValid : s.drawReady.2.clkValid = s.clkValid := rfl
@[simp] theorem State.drawReady_regAccessCount :
    s.drawReady.2.regAccessCount = s.regAccessCount := rfl
@[simp] theorem State.drawReady_pulseCount : s.drawReady.2.pulseCount = s.pulseCount := rfl
@[simp] theorem State.drawReady_warnLog : s.drawReady.2.warnLog = s.warnLog := rfl
@[simp] theorem State.drawReady_faulted : s.drawReady.2.faulted = s.faulted := rfl
@[simp] theorem State.drawReady_position : s.drawReady.2.position = s.position := rfl
@[simp] theorem State.drawReady_pending : s.drawReady.2.pending = s.pending := rfl
@[simp] theorem State.drawReady_draws :
    s.drawReady.2.draws = { s.draws with ready := s.draws.ready.tail, drawn := s.draws.drawn + 1 } := rfl
@[simp] theorem State.drawReady_uploading : s.drawReady.2.uploading = s.uploading := rfl
@[simp] theorem State.drawReady_response : s.drawReady.2.response = s.response := rfl
@[simp] theorem State.drawReady_fsmTrace : s.drawReady.2.fsmTrace = s.fsmTrace := rfl

/-! ### drawPulse -/

@[simp] theorem State.drawPulse_cfg : s.drawPulse.2.cfg = s.cfg := rfl
@[simp] theorem State.drawPulse_key : s.drawPulse.2.key = s.key := rfl
@[simp] theorem State.drawPulse_fuse : s.drawPulse.2.fuse = s.fuse := rfl
@[simp] theorem State.drawPulse_locks : s.drawPulse.2.locks = s.locks := rfl
@[simp] theorem State.drawPulse_keyAccessDisabled :
    s.drawPulse.2.keyAccessDisabled = s.keyAccessDisabled := rfl
@[simp] theorem State.drawPulse_magic : s.drawPulse.2.magic = s.magic := rfl
@[simp] theorem State.drawPulse_regs : s.drawPulse.2.regs = s.regs := rfl
@[simp] theorem State.drawPulse_fsm : s.drawPulse.2.fsm = s.fsm := rfl
@[simp] theorem State.drawPulse_clkValid : s.drawPulse.2.clkValid = s.clkValid := rfl
@[simp] theorem State.drawPulse_regAccessCount :
    s.drawPulse.2.regAccessCount = s.regAccessCount := rfl
@[simp] theorem State.drawPulse_pulseCount : s.drawPulse.2.pulseCount = s.pulseCount := rfl
@[simp] theorem State.drawPulse_warnLog : s.drawPulse.2.warnLog = s.warnLog := rfl
@[simp] theorem State.drawPulse_faulted : s.drawPulse.2.faulted = s.faulted := rfl
@[simp] theorem State.drawPulse_position : s.drawPulse.2.position = s.position := rfl
@[simp] theorem State.drawPulse_pending : s.drawPulse.2.pending = s.pending := rfl
@[simp] theorem State.drawPulse_draws :
    s.drawPulse.2.draws = { s.draws with pulse := s.draws.pulse.tail, drawn := s.draws.drawn + 1 } := rfl
@[simp] theorem State.drawPulse_uploading : s.drawPulse.2.uploading = s.uploading := rfl
@[simp] theorem State.drawPulse_response : s.drawPulse.2.response = s.response := rfl
@[simp] theorem State.drawPulse_fsmTrace : s.drawPulse.2.fsmTrace = s.fsmTrace := rfl

/-! ### drawKval -/

@[simp] theorem State.drawKval_cfg : s.drawKval.2.cfg = s.cfg := rfl
@[simp] theorem State.drawKval_key : s.drawKval.2.key = s.key := rfl
@[simp] theorem State.drawKval_fuse : s.drawKval.2.fuse = s.fuse := rfl
@[simp] theorem State.drawKval_locks : s.drawKval.2.locks = s.locks := rfl
@[simp] theorem State.drawKval_keyAccessDisabled :
    s.drawKval.2.keyAccessDisabled = s.keyAccessDisabled := rfl
@[simp] theorem State.drawKval_magic : s.drawKval.2.magic = s.magic := rfl
@[simp] theorem State.drawKval_regs : s.drawKval.2.regs = s.regs := rfl
@[simp] theorem State.drawKval_fsm : s.drawKval.2.fsm = s.fsm := rfl
@[simp] theorem State.drawKval_clkValid : s.drawKval.2.clkValid = s.clkValid := rfl
@[simp] theorem State.drawKval_regAccessCount :
    s.drawKval.2.regAccessCount = s.regAccessCount := rfl
@[simp] theorem State.drawKval_pulseCount : s.drawKval.2.pulseCount = s.pulseCount := rfl
@[simp] theorem State.drawKval_warnLog : s.drawKval.2.warnLog = s.warnLog := rfl
@[simp] theorem State.drawKval_faulted : s.drawKval.2.faulted = s.faulted := rfl
@[simp] theorem State.drawKval_position : s.drawKval.2.position = s.position := rfl
@[simp] theorem State.drawKval_pending : s.drawKval.2.pending = s.pending := rfl
@[simp] theorem State.drawKval_draws :
    s.drawKval.2.draws = { s.draws with kval := s.draws.kval.tail, drawn := s.draws.drawn + 1 } := rfl
@[simp] theorem State.drawKval_uploading : s.drawKval.2.uploading = s.uploading := rfl
@[simp] theorem State.drawKval_response : s.drawKval.2.response = s.response := rfl
@[simp] theorem State.drawKval_fsmTrace : s.drawKval.2.fsmTrace = s.fsmTrace := rfl

/-! ### drawByte -/

@[simp] theorem State.drawByte_cfg : s.drawByte.2.cfg = s.cfg := rfl
@[simp] theorem State.drawByte_key : s.drawByte.2.key = s.key := rfl
@[simp] theorem State.drawByte_fuse : s.drawByte.2.fuse = s.fuse := rfl
@[simp] theorem State.drawByte_locks : s.drawByte.2.locks = s.locks := rfl
@[simp] theorem State.drawByte_keyAccessDisabled :
    s.drawByte.2.keyAccessDisabled = s.keyAccessDisabled := rfl
@[simp] theorem State.drawByte_magic : s.drawByte.2.magic = s.magic := rfl
@[simp] theorem State.drawByte_regs : s.drawByte.2.regs = s.regs := rfl
@[simp] theorem State.drawByte_fsm : s.drawByte.2.fsm = s.fsm := rfl
@[simp] theorem State.drawByte_clkValid : s.drawByte.2.clkValid = s.clkValid := rfl
@[simp] theorem State.drawByte_regAccessCount :
    s.drawByte.2.regAccessCount = s.regAccessCount := rfl
@[simp] theorem State.drawByte_pulseCount : s.drawByte.2.pulseCount = s.pulseCount := rfl
@[simp] theorem State.drawByte_warnLog : s.drawByte.2.warnLog = s.warnLog := rfl
@[simp] theorem State.drawByte_faulted : s.drawByte.2.faulted = s.faulted := rfl
@[simp] theorem State.drawByte_position : s.drawByte.2.position = s.position := rfl
@[simp] theorem State.drawByte_pending : s.drawByte.2.pending = s.pending := rfl
@[simp] theorem State.drawByte_draws :
    s.drawByte.2.draws = { s.draws with byte := s.draws.byte.tail, drawn := s.draws.drawn + 1 } := rfl
@[simp] theorem State.drawByte_uploading : s.drawByte.2.uploading = s.uploading := rfl
@[simp] theorem State.drawByte_response : s.drawByte.2.response = s.response := rfl
@[simp] theorem State.drawByte_fsmTrace : s.drawByte.2.fsmTrace = s.fsmTrace := rfl

/-! ### readRdy -/

@[simp] theorem State.readRdy_cfg : s.readRdy.2.cfg = s.cfg := rfl
@[simp] theorem State.readRdy_key : s.readRdy.2.key = s.key := rfl
@[simp] theorem State.readRdy_fuse : s.readRdy.2.fuse = s.fuse := rfl
@[simp] theorem State.readRdy_locks : s.readRdy.2.locks = s.locks := rfl
@[simp] theorem State.readRdy_keyAccessDisabled :
    s.readRdy.2.keyAccessDisabled = s.keyAccessDisabled := rfl
@[simp] theorem State.readRdy_magic : s.readRdy.2.magic = s.magic := rfl
@[simp] theorem State.readRdy_regs : s.readRdy.2.regs = s.regs := rfl
@[simp] theorem State.readRdy_fsm : s.readRdy.2.fsm = s.fsm := rfl
@[simp] theorem State.readRdy_clkValid : s.readRdy.2.clkValid = s.clkValid := rfl
@[simp] theorem State.readRdy_regAccessCount :
    s.readRdy.2.regAccessCount = s.regAccessCount + 1 := rfl
@[simp] theorem State.readRdy_pulseCount : s.readRdy.2.pulseCount = s.pulseCount := rfl
@[simp] theorem State.readRdy_warnLog : s.readRdy.2.warnLog = s.warnLog := rfl
@[simp] theorem State.readRdy_faulted : s.readRdy.2.faulted = s.faulted := rfl
@[simp] theorem State.readRdy_position : s.readRdy.2.position = s.position := rfl
@[simp] theorem State.readRdy_pending : s.readRdy.2.pending = s.pending := rfl
@[simp] theorem State.readRdy_draws :
    s.readRdy.2.draws = { s.draws with ready := s.draws.ready.tail, drawn := s.draws.drawn + 1 } := rfl
@[simp] theorem State.readRdy_uploading : s.readRdy.2.uploading = s.uploading := rfl
@[simp] theorem State.readRdy_response : s.readRdy.2.response = s.response := rfl
@[simp] theorem State.readRdy_fsmTrace : s.readRdy.2.fsmTrace = s.fsmTrace := rfl

/-! ### readKval -/

@[simp] theorem State.readKval_cfg : s.readKval.2.cfg = s.cfg := rfl
@[simp] theorem State.readKval_key : s.readKval.2.key = s.key := rfl
@[simp] theorem State.readKval_fuse : s.readKval.2.fuse = s.fuse := rfl
@[simp] theorem State.readKval_locks : s.readKval.2.locks = s.locks := rfl
@[simp] theorem State.readKval_keyAccessDisabled :
    s.readKval.2.keyAccessDisabled = s.keyAccessDisabled := rfl
@[simp] theorem State.readKval_magic : s.readKval.2.magic = s.magic := rfl
@[simp] theorem State.readKval_regs : s.readKval.2.regs = s.regs := rfl
@[simp] theorem State.readKval_fsm : s.readKval.2.fsm = s.fsm := rfl
@[simp] theorem State.readKval_clkValid : s.readKval.2.clkValid = s.clkValid := rfl
@[simp] theorem State.readKval_regAccessCount :
    s.readKval.2.regAccessCount = s.regAccessCount + 1 := rfl
@[simp] theorem State.readKval_pulseCount : s.readKval.2.pulseCount = s.pulseCount := rfl
@[simp] theorem State.readKval_warnLog : s.readKval.2.warnLog = s.warnLog := rfl
@[simp] theorem State.readKval_faulted : s.readKval.2.faulted = s.faulted := rfl
@[simp] theorem State.readKval_position : s.readKval.2.position = s.position := rfl
@[simp] theorem State.readKval_pending : s.readKval.2.pending = s.pending := rfl
@[simp] theorem State.readKval_draws :
    s.readKval.2.draws = { s.draws with kval := s.draws.kval.tail, drawn := s.draws.drawn + 1 } := rfl
@[simp] theorem State.readKval_uploading : s.readKval.2.uploading = s.uploading := rfl
@[simp] theorem State.readKval_response : s.readKval.2.response = s.response := rfl
@[simp] theorem State.readKval_fsmTrace : s.readKval.2.fsmTrace = s.fsmTrace := rfl

/-! ### setFsm -/

@[simp] theorem State.setFsm_cfg (f : Fsm) : (s.setFsm f).cfg = s.cfg := rfl
@[simp] theorem State.setFsm_key (f : Fsm) : (s.setFsm f).key = s.key := rfl
@[simp] theorem State.setFsm_fuse (f : Fsm) : (s.setFsm f).fuse = s.fuse := rfl
@[simp] theorem State.setFsm_locks (f : Fsm) : (s.setFsm f).locks = s.locks := rfl
@[simp] theorem State.setFsm_keyAccessDisabled (f : Fsm) :
    (s.setFsm f).keyAccessDisabled = s.keyAccessDisabled := rfl
@[simp] theorem State.setFsm_magic (f : Fsm) : (s.setFsm f).magic = s.magic := rfl
@[simp] theorem State.setFsm_regs (f : Fsm) : (s.setFsm f).regs = s.regs := rfl
@[simp] theorem State.setFsm_fsm (f : Fsm) : (s.setFsm f).fsm = f := rfl
@[simp] theorem State.setFsm_clkValid (f : Fsm) : (s.setFsm f).clkValid = s.clkValid := rfl
@[simp] theorem State.setFsm_regAccessCount (f : Fsm) :
    (s.setFsm f).regAccessCount = s.regAccessCount := rfl
@[simp] theorem State.setFsm_pulseCount (f : Fsm) : (s.setFsm f).pulseCount = s.pulseCount := rfl
@[simp] theorem State.setFsm_warnLog (f : Fsm) : (s.setFsm f).warnLog = s.warnLog := rfl
@[simp] theorem State.setFsm_faulted (f : Fsm) : (s.setFsm f).faulted = s.faulted := rfl
@[simp] theorem State.setFsm_position (f : Fsm) : (s.setFsm f).position = s.position := rfl
@[simp] theorem State.setFsm_pending (f : Fsm) : (s.setFsm f).pending = s.pending := rfl
@[simp] theorem State.setFsm_draws (f : Fsm) : (s.setFsm f).draws = s.draws := rfl
@[simp] theorem State.setFsm_uploading (f : Fsm) : (s.setFsm f).uploading = s.uploading := rfl
@[simp] theorem State.setFsm_response (f : Fsm) : (s.setFsm f).response = s.response := rfl
@[simp] theorem State.setFsm_fsmTrace (f : Fsm) : (s.setFsm f).fsmTrace = f :: s.fsmTrace := rfl

/-! ### warn -/

@[simp] theorem State.warn_cfg (w : Warning) : (s.warn w).cfg = s.cfg := rfl
@[simp] theorem State.warn_key (w : Warning) : (s.warn w).key = s.key := rfl
@[simp] theorem State.warn_fuse (w : Warning) : (s.warn w).fuse = s.fuse := rfl
@[simp] theorem State.warn_locks (w : Warning) : (s.warn w).locks = s.locks := rfl
@[simp] theorem State.warn_keyAccessDisabled (w : Warning) :
    (s.warn w).keyAccessDisabled = s.keyAccessDisabled := rfl
@[simp] theorem State.warn_magic (w : Warning) : (s.warn w).magic = s.magic := rfl
@[simp] theorem State.warn_regs (w : Warning) : (s.warn w).regs = s.regs := rfl
@[simp] theorem State.warn_fsm (w : Warning) : (s.warn w).fsm = s.fsm := rfl
@[simp] theorem State.warn_clkValid (w : Warning) : (s.warn w).clkValid = s.clkValid := rfl
@[simp] theorem State.warn_regAccessCount (w : Warning) :
    (s.warn w).regAccessCount = s.regAccessCount := rfl
@[simp] theorem State.warn_pulseCount (w : Warning) : (s.warn w).pulseCount = s.pulseCount := rfl
@[simp] theorem State.warn_warnLog (w : Warning) : (s.warn w).warnLog = s.warnLog ++ [w] := rfl
@[simp] theorem State.warn_faulted (w : Warning) : (s.warn w).faulted = s.faulted := rfl
@[simp] theorem State.warn_position (w : Warning) : (s.warn w).position = s.position := rfl
@[simp] theorem State.warn_pending (w : Warning) : (s.warn w).pending = s.pending := rfl
@[simp] theorem State.warn_draws (w : Warning) : (s.warn w).draws = s.draws := rfl
@[simp] theorem State.warn_uploading (w : Warning) : (s.warn w).uploading = s.uploading := rfl
@[simp] theorem State.warn_response (w : Warning) : (s.warn w).response = s.response := rfl
@[simp] theorem State.warn_fsmTrace (w : Warning) : (s.warn w).fsmTrace = s.fsmTrace := rfl

/-! ### deliver -/

@[simp] theorem State.deliver_cfg (st : Status) (r : Result) : (s.deliver st r).cfg = s.cfg := rfl
@[simp] theorem State.deliver_key (st : Status) (r : Result) : (s.deliver st r).key = s.key := rfl
@[simp] theorem State.deliver_fuse (st : Status) (r : Result) :
    (s.deliver st r).fuse = s.fuse := rfl
@[simp] theorem State.deliver_locks (st : Status) (r : Result) :
    (s.deliver st r).locks = s.locks := rfl
@[simp] theorem State.deliver_keyAccessDisabled (st : Status) (r : Result) :
    (s.deliver st r).keyAccessDisabled = s.keyAccessDisabled := rfl
@[simp] theorem State.deliver_magic (st : Status) (r : Result) :
    (s.deliver st r).magic = s.magic := rfl
@[simp] theorem State.deliver_regs (st : Status) (r : Result) :
    (s.deliver st r).regs = s.regs := rfl
@[simp] theorem State.deliver_fsm (st : Status) (r : Result) : (s.deliver st r).fsm = s.fsm := rfl
@[simp] theorem State.deliver_clkValid (st : Status) (r : Result) :
    (s.deliver st r).clkValid = s.clkValid := rfl
@[simp] theorem State.deliver_regAccessCount (st : Status) (r : Result) :
    (s.deliver st r).regAccessCount = s.regAccessCount := rfl
@[simp] theorem State.deliver_pulseCount (st : Status) (r : Result) :
    (s.deliver st r).pulseCount = s.pulseCount := rfl
@[simp] theorem State.deliver_warnLog (st : Status) (r : Result) :
    (s.deliver st r).warnLog = s.warnLog := rfl
@[simp] theorem State.deliver_faulted (st : Status) (r : Result) :
    (s.deliver st r).faulted = s.faulted := rfl
@[simp] theorem State.deliver_position (st : Status) (r : Result) :
    (s.deliver st r).position = s.position := rfl
@[simp] theorem State.deliver_pending (st : Status) (r : Result) :
    (s.deliver st r).pending = s.pending := rfl
@[simp] theorem State.deliver_draws (st : Status) (r : Result) :
    (s.deliver st r).draws = s.draws := rfl
@[simp] theorem State.deliver_uploading (st : Status) (r : Result) :
    (s.deliver st r).uploading = s.uploading := rfl
@[simp] theorem State.deliver_response (st : Status) (r : Result) :
    (s.deliver st r).response = some ⟨st, r⟩ := rfl
@[simp] theorem State.deliver_fsmTrace (st : Status) (r : Result) :
    (s.deliver st r).fsmTrace = s.fsmTrace := rfl

/-! ### raise -/

@[simp] theorem State.raise_cfg : s.raise.cfg = s.cfg := rfl
@[simp] theorem State.raise_key : s.raise.key = s.key := rfl
@[simp] theorem State.raise_fuse : s.raise.fuse = s.fuse := rfl
@[simp] theorem State.raise_locks : s.raise.locks = s.locks := rfl
@[simp] theorem State.raise_keyAccessDisabled :
    s.raise.keyAccessDisabled = s.keyAccessDisabled := rfl
@[simp] theorem State.raise_magic : s.raise.magic = s.magic := rfl
@[simp] theorem State.raise_regs : s.raise.regs = s.regs := rfl
@[simp] theorem State.raise_fsm : s.raise.fsm = s.fsm := rfl
@[simp] theorem State.raise_clkValid : s.raise.clkValid = s.clkValid := rfl
@[simp] theorem State.raise_regAccessCount : s.raise.regAccessCount = s.regAccessCount := rfl
@[simp] theorem State.raise_pulseCount : s.raise.pulseCount = s.pulseCount := rfl
@[simp] theorem State.raise_warnLog : s.raise.warnLog = s.warnLog := rfl
@[simp] theorem State.raise_faulted : s.raise.faulted = true := rfl
@[simp] theorem State.raise_position : s.raise.position = s.position := rfl
@[simp] theorem State.raise_pending : s.raise.pending = s.pending := rfl
@[simp] theorem State.raise_draws : s.raise.draws = s.draws := rfl
@[simp] theorem State.raise_uploading : s.raise.uploading = s.uploading := rfl
@[simp] theorem State.raise_response : s.raise.response = none := rfl
@[simp] theorem State.raise_fsmTrace : s.raise.fsmTrace = s.fsmTrace := rfl

/-! ### writeAck -/

@[simp] theorem State.writeAck_cfg : s.writeAck.cfg = s.cfg := rfl
@[simp] theorem State.writeAck_key : s.writeAck.key = s.key := rfl
@[simp] theorem State.writeAck_fuse : s.writeAck.fuse = s.fuse := rfl
@[simp] theorem State.writeAck_locks : s.writeAck.locks = s.locks := rfl
@[simp] theorem State.writeAck_keyAccessDisabled :
    s.writeAck.keyAccessDisabled = s.keyAccessDisabled := rfl
@[simp] theorem State.writeAck_magic : s.writeAck.magic = s.magic := rfl
@[simp] theorem State.writeAck_regs : s.writeAck.regs = { s.regs with ack := false } := rfl
@[simp] theorem State.writeAck_fsm : s.writeAck.fsm = s.fsm := rfl
@[simp] theorem State.writeAck_clkValid : s.writeAck.clkValid = s.clkValid := rfl
@[simp] theorem State.writeAck_regAccessCount :
    s.writeAck.regAccessCount = s.regAccessCount + 1 := rfl
@[simp] theorem State.writeAck_pulseCount : s.writeAck.pulseCount = s.pulseCount := rfl
@[simp] theorem State.writeAck_warnLog : s.writeAck.warnLog = s.warnLog := rfl
@[simp] theorem State.writeAck_faulted : s.writeAck.faulted = s.faulted := rfl
@[simp] theorem State.writeAck_position : s.writeAck.position = s.position := rfl
@[simp] theorem State.writeAck_pending : s.writeAck.pending = s.pending := rfl
@[simp] theorem State.writeAck_draws : s.writeAck.draws = s.draws := rfl
@[simp] theorem State.writeAck_uploading : s.writeAck.uploading = s.uploading := rfl
@[simp] theorem State.writeAck_response : s.writeAck.response = s.response := rfl
@[simp] theorem State.writeAck_fsmTrace : s.writeAck.fsmTrace = s.fsmTrace := rfl

/-! ### writeArr -/

@[simp] theorem State.writeArr_cfg (a : StorageArray) : (s.writeArr a).cfg = s.cfg := rfl
@[simp] theorem State.writeArr_key (a : StorageArray) : (s.writeArr a).key = s.key := rfl
@[simp] theorem State.writeArr_fuse (a : StorageArray) : (s.writeArr a).fuse = s.fuse := rfl
@[simp] theorem State.writeArr_locks (a : StorageArray) : (s.writeArr a).locks = s.locks := rfl
@[simp] theorem State.writeArr_keyAccessDisabled (a : StorageArray) :
    (s.writeArr a).keyAccessDisabled = s.keyAccessDisabled := rfl
@[simp] theorem State.writeArr_magic (a : StorageArray) : (s.writeArr a).magic = s.magic := rfl
@[simp] theorem State.writeArr_regs (a : StorageArray) :
    (s.writeArr a).regs = { s.regs with arr := a } := rfl
@[simp] theorem State.writeArr_fsm (a : StorageArray) : (s.writeArr a).fsm = s.fsm := rfl
@[simp] theorem State.writeArr_clkValid (a : StorageArray) :
    (s.writeArr a).clkValid = s.clkValid := rfl
@[simp] theorem State.writeArr_regAccessCount (a : StorageArray) :
    (s.writeArr a).regAccessCount = s.regAccessCount + 1 := rfl
@[simp] theorem State.writeArr_pulseCount (a : StorageArray) :
    (s.writeArr a).pulseCount = s.pulseCount := rfl
@[simp] theorem State.writeArr_warnLog (a : StorageArray) :
    (s.writeArr a).warnLog = s.warnLog := rfl
@[simp] theorem State.writeArr_faulted (a : StorageArray) :
    (s.writeArr a).faulted = s.faulted := rfl
@[simp] theorem State.writeArr_position (a : StorageArray) :
    (s.writeArr a).position = s.position := rfl
@[simp] theorem State.writeArr_pending (a : StorageArray) :
    (s.writeArr a).pending = s.pending := rfl
@[simp] theorem State.writeArr_draws (a : StorageArray) : (s.writeArr a).draws = s.draws := rfl
@[simp] theorem State.writeArr_uploading (a : StorageArray) :
    (s.writeArr a).uploading = s.uploading := rfl
@[simp] theorem State.writeArr_response (a : StorageArray) :
    (s.writeArr a).response = s.response := rfl
@[simp] theorem State.writeArr_fsmTrace (a : StorageArray) :
    (s.writeArr a).fsmTrace = s.fsmTrace := rfl

/-! ### writeByteAddr -/

@[simp] theorem State.writeByteAddr_cfg (n : ByteAddr) : (s.writeByteAddr n).cfg = s.cfg := rfl
@[simp] theorem State.writeByteAddr_key (n : ByteAddr) : (s.writeByteAddr n).key = s.key := rfl
@[simp] theorem State.writeByteAddr_fuse (n : ByteAddr) : (s.writeByteAddr n).fuse = s.fuse := rfl
@[simp] theorem State.writeByteAddr_locks (n : ByteAddr) :
    (s.writeByteAddr n).locks = s.locks := rfl
@[simp] theorem State.writeByteAddr_keyAccessDisabled (n : ByteAddr) :
    (s.writeByteAddr n).keyAccessDisabled = s.keyAccessDisabled := rfl
@[simp] theorem State.writeByteAddr_magic (n : ByteAddr) :
    (s.writeByteAddr n).magic = s.magic := rfl
@[simp] theorem State.writeByteAddr_regs (n : ByteAddr) :
    (s.writeByteAddr n).regs = { s.regs with byteAddr := n } := rfl
@[simp] theorem State.writeByteAddr_fsm (n : ByteAddr) : (s.writeByteAddr n).fsm = s.fsm := rfl
@[simp] theorem State.writeByteAddr_clkValid (n : ByteAddr) :
    (s.writeByteAddr n).clkValid = s.clkValid := rfl
@[simp] theorem State.writeByteAddr_regAccessCount (n : ByteAddr) :
    (s.writeByteAddr n).regAccessCount = s.regAccessCount + 1 := rfl
@[simp] theorem State.writeByteAddr_pulseCount (n : ByteAddr) :
    (s.writeByteAddr n).pulseCount = s.pulseCount := rfl
@[simp] theorem State.writeByteAddr_warnLog (n : ByteAddr) :
    (s.writeByteAddr n).warnLog = s.warnLog := rfl
@[simp] theorem State.writeByteAddr_faulted (n : ByteAddr) :
    (s.writeByteAddr n).faulted = s.faulted := rfl
@[simp] theorem State.writeByteAddr_position (n : ByteAddr) :
    (s.writeByteAddr n).position = s.position := rfl
@[simp] theorem State.writeByteAddr_pending (n : ByteAddr) :
    (s.writeByteAddr n).pending = s.pending := rfl
@[simp] theorem State.writeByteAddr_draws (n : ByteAddr) :
    (s.writeByteAddr n).draws = s.draws := rfl
@[simp] theorem State.writeByteAddr_uploading (n : ByteAddr) :
    (s.writeByteAddr n).uploading = s.uploading := rfl
@[simp] theorem State.writeByteAddr_response (n : ByteAddr) :
    (s.writeByteAddr n).response = s.response := rfl
@[simp] theorem State.writeByteAddr_fsmTrace (n : ByteAddr) :
    (s.writeByteAddr n).fsmTrace = s.fsmTrace := rfl

/-! ### writeBitPos -/

@[simp] theorem State.writeBitPos_cfg (b : BitPos) : (s.writeBitPos b).cfg = s.cfg := rfl
@[simp] theorem State.writeBitPos_key (b : BitPos) : (s.writeBitPos b).key = s.key := rfl
@[simp] theorem State.writeBitPos_fuse (b : BitPos) : (s.writeBitPos b).fuse = s.fuse := rfl
@[simp] theorem State.writeBitPos_locks (b : BitPos) : (s.writeBitPos b).locks = s.locks := rfl
@[simp] theorem State.writeBitPos_keyAccessDisabled (b : BitPos) :
    (s.writeBitPos b).keyAccessDisabled = s.keyAccessDisabled := rfl
@[simp] theorem State.writeBitPos_magic (b : BitPos) : (s.writeBitPos b).magic = s.magic := rfl
@[simp] theorem State.writeBitPos_regs (b : BitPos) :
    (s.writeBitPos b).regs = { s.regs with bitPos := b } := rfl
@[simp] theorem State.writeBitPos_fsm (b : BitPos) : (s.writeBitPos b).fsm = s.fsm := rfl
@[simp] theorem State.writeBitPos_clkValid (b : BitPos) :
    (s.writeBitPos b).clkValid = s.clkValid := rfl
@[simp] theorem State.writeBitPos_regAccessCount (b : BitPos) :
    (s.writeBitPos b).regAccessCount = s.regAccessCount + 1 := rfl
@[simp] theorem State.writeBitPos_pulseCount (b : BitPos) :
    (s.writeBitPos b).pulseCount = s.pulseCount := rfl
@[simp] theorem State.writeBitPos_warnLog (b : BitPos) :
    (s.writeBitPos b).warnLog = s.warnLog := rfl
@[simp] theorem State.writeBitPos_faulted (b : BitPos) :
    (s.writeBitPos b).faulted = s.faulted := rfl
@[simp] theorem State.writeBitPos_position (b : BitPos) :
    (s.writeBitPos b).position = s.position := rfl
@[simp] theorem State.writeBitPos_pending (b : BitPos) :
    (s.writeBitPos b).pending = s.pending := rfl
@[simp] theorem State.writeBitPos_draws (b : BitPos) : (s.writeBitPos b).draws = s.draws := rfl
@[simp] theorem State.writeBitPos_uploading (b : BitPos) :
    (s.writeBitPos b).uploading = s.uploading := rfl
@[simp] theorem State.writeBitPos_response (b : BitPos) :
    (s.writeBitPos b).response = s.response := rfl
@[simp] theorem State.writeBitPos_fsmTrace (b : BitPos) :
    (s.writeBitPos b).fsmTrace = s.fsmTrace := rfl

/-! ### readData -/

@[simp] theorem State.readData_cfg (d : Byte) : (s.readData d).cfg = s.cfg := rfl
@[simp] theorem State.readData_key (d : Byte) : (s.readData d).key = s.key := rfl
@[simp] theorem State.readData_fuse (d : Byte) : (s.readData d).fuse = s.fuse := rfl
@[simp] theorem State.readData_locks (d : Byte) : (s.readData d).locks = s.locks := rfl
@[simp] theorem State.readData_keyAccessDisabled (d : Byte) :
    (s.readData d).keyAccessDisabled = s.keyAccessDisabled := rfl
@[simp] theorem State.readData_magic (d : Byte) : (s.readData d).magic = s.magic := rfl
@[simp] theorem State.readData_regs (d : Byte) :
    (s.readData d).regs = { s.regs with data := d } := rfl
@[simp] theorem State.readData_fsm (d : Byte) : (s.readData d).fsm = s.fsm := rfl
@[simp] theorem State.readData_clkValid (d : Byte) : (s.readData d).clkValid = s.clkValid := rfl
@[simp] theorem State.readData_regAccessCount (d : Byte) :
    (s.readData d).regAccessCount = s.regAccessCount + 1 := rfl
@[simp] theorem State.readData_pulseCount (d : Byte) :
    (s.readData d).pulseCount = s.pulseCount := rfl
@[simp] theorem State.readData_warnLog (d : Byte) : (s.readData d).warnLog = s.warnLog := rfl
@[simp] theorem State.readData_faulted (d : Byte) : (s.readData d).faulted = s.faulted := rfl
@[simp] theorem State.readData_position (d : Byte) : (s.readData d).position = s.position := rfl
@[simp] theorem State.readData_pending (d : Byte) : (s.readData d).pending = s.pending := rfl
@[simp] theorem State.readData_draws (d : Byte) : (s.readData d).draws = s.draws := rfl
@[simp] theorem State.readData_uploading (d : Byte) : (s.readData d).uploading = s.uploading := rfl
@[simp] theorem State.readData_response (d : Byte) : (s.readData d).response = s.response := rfl
@[simp] theorem State.readData_fsmTrace (d : Byte) : (s.readData d).fsmTrace = s.fsmTrace := rfl

/-! ### writeData -/

@[simp] theorem State.writeData_cfg (d : Byte) : (s.writeData d).cfg = s.cfg := rfl
@[simp] theorem State.writeData_key (d : Byte) : (s.writeData d).key = s.key := rfl
@[simp] theorem State.writeData_fuse (d : Byte) : (s.writeData d).fuse = s.fuse := rfl
@[simp] theorem State.writeData_locks (d : Byte) : (s.writeData d).locks = s.locks := rfl
@[simp] theorem State.writeData_keyAccessDisabled (d : Byte) :
    (s.writeData d).keyAccessDisabled = s.keyAccessDisabled := rfl
@[simp] theorem State.writeData_magic (d : Byte) : (s.writeData d).magic = s.magic := rfl
@[simp] theorem State.writeData_regs (d : Byte) :
    (s.writeData d).regs = { s.regs with data := d } := rfl
@[simp] theorem State.writeData_fsm (d : Byte) : (s.writeData d).fsm = s.fsm := rfl
@[simp] theorem State.writeData_clkValid (d : Byte) : (s.writeData d).clkValid = s.clkValid := rfl
@[simp] theorem State.writeData_regAccessCount (d : Byte) :
    (s.writeData d).regAccessCount = s.regAccessCount + 1 := rfl
@[simp] theorem State.writeData_pulseCount (d : Byte) :
    (s.writeData d).pulseCount = s.pulseCount := rfl
@[simp] theorem State.writeData_warnLog (d : Byte) : (s.writeData d).warnLog = s.warnLog := rfl
@[simp] theorem State.writeData_faulted (d : Byte) : (s.writeData d).faulted = s.faulted := rfl
@[simp] theorem State.writeData_position (d : Byte) : (s.writeData d).position = s.position := rfl
@[simp] theorem State.writeData_pending (d : Byte) : (s.writeData d).pending = s.pending := rfl
@[simp] theorem State.writeData_draws (d : Byte) : (s.writeData d).draws = s.draws := rfl
@[simp] theorem State.writeData_uploading (d : Byte) :
    (s.writeData d).uploading = s.uploading := rfl
@[simp] theorem State.writeData_response (d : Byte) : (s.writeData d).response = s.response := rfl
@[simp] theorem State.writeData_fsmTrace (d : Byte) : (s.writeData d).fsmTrace = s.fsmTrace := rfl

/-! ### writeInProg -/

@[simp] theorem State.writeInProg_cfg (b : Bool) : (s.writeInProg b).cfg = s.cfg := rfl
@[simp] theorem State.writeInProg_key (b : Bool) : (s.writeInProg b).key = s.key := rfl
@[simp] theorem State.writeInProg_fuse (b : Bool) : (s.writeInProg b).fuse = s.fuse := rfl
@[simp] theorem State.writeInProg_locks (b : Bool) : (s.writeInProg b).locks = s.locks := rfl
@[simp] theorem State.writeInProg_keyAccessDisabled (b : Bool) :
    (s.writeInProg b).keyAccessDisabled = s.keyAccessDisabled := rfl
@[simp] theorem State.writeInProg_magic (b : Bool) : (s.writeInProg b).magic = s.magic := rfl
@[simp] theorem State.writeInProg_regs (b : Bool) :
    (s.writeInProg b).regs = { s.regs with inProg := b } := rfl
@[simp] theorem State.writeInProg_fsm (b : Bool) : (s.writeInProg b).fsm = s.fsm := rfl
@[simp] theorem State.writeInProg_clkValid (b : Bool) :
    (s.writeInProg b).clkValid = s.clkValid := rfl
@[simp] theorem State.writeInProg_regAccessCount (b : Bool) :
    (s.writeInProg b).regAccessCount = s.regAccessCount + 1 := rfl
@[simp] theorem State.writeInProg_pulseCount (b : Bool) :
    (s.writeInProg b).pulseCount = s.pulseCount := rfl
@[simp] theorem State.writeInProg_warnLog (b : Bool) : (s.writeInProg b).warnLog = s.warnLog := rfl
@[simp] theorem State.writeInProg_faulted (b : Bool) : (s.writeInProg b).faulted = s.faulted := rfl
@[simp] theorem State.writeInProg_position (b : Bool) :
    (s.writeInProg b).position = s.position := rfl
@[simp] theorem State.writeInProg_pending (b : Bool) : (s.writeInProg b).pending = s.pending := rfl
@[simp] theorem State.writeInProg_draws (b : Bool) : (s.writeInProg b).draws = s.draws := rfl
@[simp] theorem State.writeInProg_uploading (b : Bool) :
    (s.writeInProg b).uploading = s.uploading := rfl
@[simp] theorem State.writeInProg_response (b : Bool) :
    (s.writeInProg b).response = s.response := rfl
@[simp] theorem State.writeInProg_fsmTrace (b : Bool) :
    (s.writeInProg b).fsmTrace = s.fsmTrace := rfl

/-! ### writeSmart -/

@[simp] theorem State.writeSmart_cfg (b : Bool) : (s.writeSmart b).cfg = s.cfg := rfl
@[simp] theorem State.writeSmart_key (b : Bool) : (s.writeSmart b).key = s.key := rfl
@[simp] theorem State.writeSmart_fuse (b : Bool) : (s.writeSmart b).fuse = s.fuse := rfl
@[simp] theorem State.writeSmart_locks (b : Bool) : (s.writeSmart b).locks = s.locks := rfl
@[simp] theorem State.writeSmart_keyAccessDisabled (b : Bool) :
    (s.writeSmart b).keyAccessDisabled = s.keyAccessDisabled := rfl
@[simp] theorem State.writeSmart_magic (b : Bool) : (s.writeSmart b).magic = s.magic := rfl
@[simp] theorem State.writeSmart_regs (b : Bool) :
    (s.writeSmart b).regs = { s.regs with smart := b } := rfl
@[simp] theorem State.writeSmart_fsm (b : Bool) : (s.writeSmart b).fsm = s.fsm := rfl
@[simp] theorem State.writeSmart_clkValid (b : Bool) : (s.writeSmart b).clkValid = s.clkValid := rfl
@[simp] theorem State.writeSmart_regAccessCount (b : Bool) :
    (s.writeSmart b).regAccessCount = s.regAccessCount + 1 := rfl
@[simp] theorem State.writeSmart_pulseCount (b : Bool) :
    (s.writeSmart b).pulseCount = s.pulseCount := rfl
@[simp] theorem State.writeSmart_warnLog (b : Bool) : (s.writeSmart b).warnLog = s.warnLog := rfl
@[simp] theorem State.writeSmart_faulted (b : Bool) : (s.writeSmart b).faulted = s.faulted := rfl
@[simp] theorem State.writeSmart_position (b : Bool) : (s.writeSmart b).position = s.position := rfl
@[simp] theorem State.writeSmart_pending (b : Bool) : (s.writeSmart b).pending = s.pending := rfl
@[simp] theorem State.writeSmart_draws (b : Bool) : (s.writeSmart b).draws = s.draws := rfl
@[simp] theorem State.writeSmart_uploading (b : Bool) :
    (s.writeSmart b).uploading = s.uploading := rfl
@[simp] theorem State.writeSmart_response (b : Bool) : (s.writeSmart b).response = s.response := rfl
@[simp] theorem State.writeSmart_fsmTrace (b : Bool) : (s.writeSmart b).fsmTrace = s.fsmTrace := rfl

/-! ### writeClkMhz -/

@[simp] theorem State.writeClkMhz_cfg (v : BitVec 8) : (s.writeClkMhz v).cfg = s.cfg := rfl
@[simp] theorem State.writeClkMhz_key (v : BitVec 8) : (s.writeClkMhz v).key = s.key := rfl
@[simp] theorem State.writeClkMhz_fuse (v : BitVec 8) : (s.writeClkMhz v).fuse = s.fuse := rfl
@[simp] theorem State.writeClkMhz_locks (v : BitVec 8) : (s.writeClkMhz v).locks = s.locks := rfl
@[simp] theorem State.writeClkMhz_keyAccessDisabled (v : BitVec 8) :
    (s.writeClkMhz v).keyAccessDisabled = s.keyAccessDisabled := rfl
@[simp] theorem State.writeClkMhz_magic (v : BitVec 8) : (s.writeClkMhz v).magic = s.magic := rfl
@[simp] theorem State.writeClkMhz_regs (v : BitVec 8) :
    (s.writeClkMhz v).regs = { s.regs with clkMhz := v } := rfl
@[simp] theorem State.writeClkMhz_fsm (v : BitVec 8) : (s.writeClkMhz v).fsm = s.fsm := rfl
@[simp] theorem State.writeClkMhz_clkValid (v : BitVec 8) :
    (s.writeClkMhz v).clkValid = s.clkValid := rfl
@[simp] theorem State.writeClkMhz_regAccessCount (v : BitVec 8) :
    (s.writeClkMhz v).regAccessCount = s.regAccessCount + 1 := rfl
@[simp] theorem State.writeClkMhz_pulseCount (v : BitVec 8) :
    (s.writeClkMhz v).pulseCount = s.pulseCount := rfl
@[simp] theorem State.writeClkMhz_warnLog (v : BitVec 8) :
    (s.writeClkMhz v).warnLog = s.warnLog := rfl
@[simp] theorem State.writeClkMhz_faulted (v : BitVec 8) :
    (s.writeClkMhz v).faulted = s.faulted := rfl
@[simp] theorem State.writeClkMhz_position (v : BitVec 8) :
    (s.writeClkMhz v).position = s.position := rfl
@[simp] theorem State.writeClkMhz_pending (v : BitVec 8) :
    (s.writeClkMhz v).pending = s.pending := rfl
@[simp] theorem State.writeClkMhz_draws (v : BitVec 8) : (s.writeClkMhz v).draws = s.draws := rfl
@[simp] theorem State.writeClkMhz_uploading (v : BitVec 8) :
    (s.writeClkMhz v).uploading = s.uploading := rfl
@[simp] theorem State.writeClkMhz_response (v : BitVec 8) :
    (s.writeClkMhz v).response = s.response := rfl
@[simp] theorem State.writeClkMhz_fsmTrace (v : BitVec 8) :
    (s.writeClkMhz v).fsmTrace = s.fsmTrace := rfl

/-! ### readKeyInd -/

@[simp] theorem State.readKeyInd_cfg : s.readKeyInd.2.cfg = s.cfg := rfl
@[simp] theorem State.readKeyInd_key : s.readKeyInd.2.key = s.key := rfl
@[simp] theorem State.readKeyInd_fuse : s.readKeyInd.2.fuse = s.fuse := rfl
@[simp] theorem State.readKeyInd_locks : s.readKeyInd.2.locks = s.locks := rfl
@[simp] theorem State.readKeyInd_keyAccessDisabled :
    s.readKeyInd.2.keyAccessDisabled = s.keyAccessDisabled := rfl
@[simp] theorem State.readKeyInd_magic : s.readKeyInd.2.magic = s.magic := rfl
@[simp] theorem State.readKeyInd_regs : s.readKeyInd.2.regs = s.regs := rfl
@[simp] theorem State.readKeyInd_fsm : s.readKeyInd.2.fsm = s.fsm := rfl
@[simp] theorem State.readKeyInd_clkValid : s.readKeyInd.2.clkValid = s.clkValid := rfl
@[simp] theorem State.readKeyInd_regAccessCount :
    s.readKeyInd.2.regAccessCount = s.regAccessCount + 1 := rfl
@[simp] theorem State.readKeyInd_pulseCount : s.readKeyInd.2.pulseCount = s.pulseCount := rfl
@[simp] theorem State.readKeyInd_warnLog : s.readKeyInd.2.warnLog = s.warnLog := rfl
@[simp] theorem State.readKeyInd_faulted : s.readKeyInd.2.faulted = s.faulted := rfl
@[simp] theorem State.readKeyInd_position : s.readKeyInd.2.position = s.position := rfl
@[simp] theorem State.readKeyInd_pending : s.readKeyInd.2.pending = s.pending := rfl
@[simp] theorem State.readKeyInd_draws : s.readKeyInd.2.draws = s.draws := rfl
@[simp] theorem State.readKeyInd_uploading : s.readKeyInd.2.uploading = s.uploading := rfl
@[simp] theorem State.readKeyInd_response : s.readKeyInd.2.response = s.response := rfl
@[simp] theorem State.readKeyInd_fsmTrace : s.readKeyInd.2.fsmTrace = s.fsmTrace := rfl

/-! ### writeKeyInd -/

@[simp] theorem State.writeKeyInd_cfg (v : KeyInd) : (s.writeKeyInd v).cfg = s.cfg := rfl
@[simp] theorem State.writeKeyInd_key (v : KeyInd) : (s.writeKeyInd v).key = s.key := rfl
@[simp] theorem State.writeKeyInd_fuse (v : KeyInd) : (s.writeKeyInd v).fuse = s.fuse := rfl
@[simp] theorem State.writeKeyInd_locks (v : KeyInd) : (s.writeKeyInd v).locks = s.locks := rfl
@[simp] theorem State.writeKeyInd_keyAccessDisabled (v : KeyInd) :
    (s.writeKeyInd v).keyAccessDisabled = s.keyAccessDisabled := rfl
@[simp] theorem State.writeKeyInd_magic (v : KeyInd) : (s.writeKeyInd v).magic = s.magic := rfl
@[simp] theorem State.writeKeyInd_regs (v : KeyInd) :
    (s.writeKeyInd v).regs = { s.regs with keyInd := v } := rfl
@[simp] theorem State.writeKeyInd_fsm (v : KeyInd) : (s.writeKeyInd v).fsm = s.fsm := rfl
@[simp] theorem State.writeKeyInd_clkValid (v : KeyInd) :
    (s.writeKeyInd v).clkValid = s.clkValid := rfl
@[simp] theorem State.writeKeyInd_regAccessCount (v : KeyInd) :
    (s.writeKeyInd v).regAccessCount = s.regAccessCount + 1 := rfl
@[simp] theorem State.writeKeyInd_pulseCount (v : KeyInd) :
    (s.writeKeyInd v).pulseCount = s.pulseCount := rfl
@[simp] theorem State.writeKeyInd_warnLog (v : KeyInd) :
    (s.writeKeyInd v).warnLog = s.warnLog := rfl
@[simp] theorem State.writeKeyInd_faulted (v : KeyInd) :
    (s.writeKeyInd v).faulted = s.faulted := rfl
@[simp] theorem State.writeKeyInd_position (v : KeyInd) :
    (s.writeKeyInd v).position = s.position := rfl
@[simp] theorem State.writeKeyInd_pending (v : KeyInd) :
    (s.writeKeyInd v).pending = s.pending := rfl
@[simp] theorem State.writeKeyInd_draws (v : KeyInd) : (s.writeKeyInd v).draws = s.draws := rfl
@[simp] theorem State.writeKeyInd_uploading (v : KeyInd) :
    (s.writeKeyInd v).uploading = s.uploading := rfl
@[simp] theorem State.writeKeyInd_response (v : KeyInd) :
    (s.writeKeyInd v).response = s.response := rfl
@[simp] theorem State.writeKeyInd_fsmTrace (v : KeyInd) :
    (s.writeKeyInd v).fsmTrace = s.fsmTrace := rfl

/-! ### readKeydis -/

@[simp] theorem State.readKeydis_cfg : s.readKeydis.2.cfg = s.cfg := rfl
@[simp] theorem State.readKeydis_key : s.readKeydis.2.key = s.key := rfl
@[simp] theorem State.readKeydis_fuse : s.readKeydis.2.fuse = s.fuse := rfl
@[simp] theorem State.readKeydis_locks : s.readKeydis.2.locks = s.locks := rfl
@[simp] theorem State.readKeydis_keyAccessDisabled :
    s.readKeydis.2.keyAccessDisabled = s.keyAccessDisabled := rfl
@[simp] theorem State.readKeydis_magic : s.readKeydis.2.magic = s.magic := rfl
@[simp] theorem State.readKeydis_regs : s.readKeydis.2.regs = s.regs := rfl
@[simp] theorem State.readKeydis_fsm : s.readKeydis.2.fsm = s.fsm := rfl
@[simp] theorem State.readKeydis_clkValid : s.readKeydis.2.clkValid = s.clkValid := rfl
@[simp] theorem State.readKeydis_regAccessCount :
    s.readKeydis.2.regAccessCount = s.regAccessCount + 1 := rfl
@[simp] theorem State.readKeydis_pulseCount : s.readKeydis.2.pulseCount = s.pulseCount := rfl
@[simp] theorem State.readKeydis_warnLog : s.readKeydis.2.warnLog = s.warnLog := rfl
@[simp] theorem State.readKeydis_faulted : s.readKeydis.2.faulted = s.faulted := rfl
@[simp] theorem State.readKeydis_position : s.readKeydis.2.position = s.position := rfl
@[simp] theorem State.readKeydis_pending : s.readKeydis.2.pending = s.pending := rfl
@[simp] theorem State.readKeydis_draws : s.readKeydis.2.draws = s.draws := rfl
@[simp] theorem State.readKeydis_uploading : s.readKeydis.2.uploading = s.uploading := rfl
@[simp] theorem State.readKeydis_response : s.readKeydis.2.response = s.response := rfl
@[simp] theorem State.readKeydis_fsmTrace : s.readKeydis.2.fsmTrace = s.fsmTrace := rfl

/-! ### writeKeydis -/

@[simp] theorem State.writeKeydis_cfg : s.writeKeydis.cfg = s.cfg := rfl
@[simp] theorem State.writeKeydis_key : s.writeKeydis.key = s.key := rfl
@[simp] theorem State.writeKeydis_fuse : s.writeKeydis.fuse = s.fuse := rfl
@[simp] theorem State.writeKeydis_locks : s.writeKeydis.locks = s.locks := rfl
@[simp] theorem State.writeKeydis_keyAccessDisabled : s.writeKeydis.keyAccessDisabled = true := rfl
@[simp] theorem State.writeKeydis_magic : s.writeKeydis.magic = s.magic := rfl
@[simp] theorem State.writeKeydis_regs : s.writeKeydis.regs = s.regs := rfl
@[simp] theorem State.writeKeydis_fsm : s.writeKeydis.fsm = s.fsm := rfl
@[simp] theorem State.writeKeydis_clkValid : s.writeKeydis.clkValid = s.clkValid := rfl
@[simp] theorem State.writeKeydis_regAccessCount :
    s.writeKeydis.regAccessCount = s.regAccessCount + 1 := rfl
@[simp] theorem State.writeKeydis_pulseCount : s.writeKeydis.pulseCount = s.pulseCount := rfl
@[simp] theorem State.writeKeydis_warnLog : s.writeKeydis.warnLog = s.warnLog := rfl
@[simp] theorem State.writeKeydis_faulted : s.writeKeydis.faulted = s.faulted := rfl
@[simp] theorem State.writeKeydis_position : s.writeKeydis.position = s.position := rfl
@[simp] theorem State.writeKeydis_pending : s.writeKeydis.pending = s.pending := rfl
@[simp] theorem State.writeKeydis_draws : s.writeKeydis.draws = s.draws := rfl
@[simp] theorem State.writeKeydis_uploading : s.writeKeydis.uploading = s.uploading := rfl
@[simp] theorem State.writeKeydis_response : s.writeKeydis.response = s.response := rfl
@[simp] theorem State.writeKeydis_fsmTrace : s.writeKeydis.fsmTrace = s.fsmTrace := rfl

/-! ### readLock -/

@[simp] theorem State.readLock_cfg (k : LockKind) (r : Nat) : (s.readLock k r).2.cfg = s.cfg := rfl
@[simp] theorem State.readLock_key (k : LockKind) (r : Nat) : (s.readLock k r).2.key = s.key := rfl
@[simp] theorem State.readLock_fuse (k : LockKind) (r : Nat) :
    (s.readLock k r).2.fuse = s.fuse := rfl
@[simp] theorem State.readLock_locks (k : LockKind) (r : Nat) :
    (s.readLock k r).2.locks = s.locks := rfl
@[simp] theorem State.readLock_keyAccessDisabled (k : LockKind) (r : Nat) :
    (s.readLock k r).2.keyAccessDisabled = s.keyAccessDisabled := rfl
@[simp] theorem State.readLock_magic (k : LockKind) (r : Nat) :
    (s.readLock k r).2.magic = s.magic := rfl
@[simp] theorem State.readLock_regs (k : LockKind) (r : Nat) :
    (s.readLock k r).2.regs = s.regs := rfl
@[simp] theorem State.readLock_fsm (k : LockKind) (r : Nat) : (s.readLock k r).2.fsm = s.fsm := rfl
@[simp] theorem State.readLock_clkValid (k : LockKind) (r : Nat) :
    (s.readLock k r).2.clkValid = s.clkValid := rfl
@[simp] theorem State.readLock_regAccessCount (k : LockKind) (r : Nat) :
    (s.readLock k r).2.regAccessCount = s.regAccessCount + 1 := rfl
@[simp] theorem State.readLock_pulseCount (k : LockKind) (r : Nat) :
    (s.readLock k r).2.pulseCount = s.pulseCount := rfl
@[simp] theorem State.readLock_warnLog (k : LockKind) (r : Nat) :
    (s.readLock k r).2.warnLog = s.warnLog := rfl
@[simp] theorem State.readLock_faulted (k : LockKind) (r : Nat) :
    (s.readLock k r).2.faulted = s.faulted := rfl
@[simp] theorem State.readLock_position (k : LockKind) (r : Nat) :
    (s.readLock k r).2.position = s.position := rfl
@[simp] theorem State.readLock_pending (k : LockKind) (r : Nat) :
    (s.readLock k r).2.pending = s.pending := rfl
@[simp] theorem State.readLock_draws (k : LockKind) (r : Nat) :
    (s.readLock k r).2.draws = s.draws := rfl
@[simp] theorem State.readLock_uploading (k : LockKind) (r : Nat) :
    (s.readLock k r).2.uploading = s.uploading := rfl
@[simp] theorem State.readLock_response (k : LockKind) (r : Nat) :
    (s.readLock k r).2.response = s.response := rfl
@[simp] theorem State.readLock_fsmTrace (k : LockKind) (r : Nat) :
    (s.readLock k r).2.fsmTrace = s.fsmTrace := rfl

/-! ### writeLock -/

@[simp] theorem State.writeLock_cfg (k : LockKind) (r : Nat) (v : Byte) :
    (s.writeLock k r v).cfg = s.cfg := rfl
@[simp] theorem State.writeLock_key (k : LockKind) (r : Nat) (v : Byte) :
    (s.writeLock k r v).key = s.key := rfl
@[simp] theorem State.writeLock_fuse (k : LockKind) (r : Nat) (v : Byte) :
    (s.writeLock k r v).fuse = s.fuse := rfl
@[simp] theorem State.writeLock_keyAccessDisabled (k : LockKind) (r : Nat) (v : Byte) :
    (s.writeLock k r v).keyAccessDisabled = s.keyAccessDisabled := rfl
@[simp] theorem State.writeLock_magic (k : LockKind) (r : Nat) (v : Byte) :
    (s.writeLock k r v).magic = s.magic := rfl
@[simp] theorem State.writeLock_regs (k : LockKind) (r : Nat) (v : Byte) :
    (s.writeLock k r v).regs = s.regs := rfl
@[simp] theorem State.writeLock_fsm (k : LockKind) (r : Nat) (v : Byte) :
    (s.writeLock k r v).fsm = s.fsm := rfl
@[simp] theorem State.writeLock_clkValid (k : LockKind) (r : Nat) (v : Byte) :
    (s.writeLock k r v).clkValid = s.clkValid := rfl
@[simp] theorem State.writeLock_regAccessCount (k : LockKind) (r : Nat) (v : Byte) :
    (s.writeLock k r v).regAccessCount = s.regAccessCount + 1 := rfl
@[simp] theorem State.writeLock_pulseCount (k : LockKind) (r : Nat) (v : Byte) :
    (s.writeLock k r v).pulseCount = s.pulseCount := rfl
@[simp] theorem State.writeLock_warnLog (k : LockKind) (r : Nat) (v : Byte) :
    (s.writeLock k r v).warnLog = s.warnLog := rfl
@[simp] theorem State.writeLock_faulted (k : LockKind) (r : Nat) (v : Byte) :
    (s.writeLock k r v).faulted = s.faulted := rfl
@[simp] theorem State.writeLock_position (k : LockKind) (r : Nat) (v : Byte) :
    (s.writeLock k r v).position = s.position := rfl
@[simp] theorem State.writeLock_pending (k : LockKind) (r : Nat) (v : Byte) :
    (s.writeLock k r v).pending = s.pending := rfl
@[simp] theorem State.writeLock_draws (k : LockKind) (r : Nat) (v : Byte) :
    (s.writeLock k r v).draws = s.draws := rfl
@[simp] theorem State.writeLock_uploading (k : LockKind) (r : Nat) (v : Byte) :
    (s.writeLock k r v).uploading = s.uploading := rfl
@[simp] theorem State.writeLock_response (k : LockKind) (r : Nat) (v : Byte) :
    (s.writeLock k r v).response = s.response := rfl
@[simp] theorem State.writeLock_fsmTrace (k : LockKind) (r : Nat) (v : Byte) :
    (s.writeLock k r v).fsmTrace = s.fsmTrace := rfl

/-! ### setArmed -/

@[simp] theorem State.setArmed_cfg (b : Bool) : (s.setArmed b).cfg = s.cfg := rfl
@[simp] theorem State.setArmed_key (b : Bool) : (s.setArmed b).key = s.key := rfl
@[simp] theorem State.setArmed_fuse (b : Bool) : (s.setArmed b).fuse = s.fuse := rfl
@[simp] theorem State.setArmed_locks (b : Bool) : (s.setArmed b).locks = s.locks := rfl
@[simp] theorem State.setArmed_keyAccessDisabled (b : Bool) :
    (s.setArmed b).keyAccessDisabled = s.keyAccessDisabled := rfl
@[simp] theorem State.setArmed_magic (b : Bool) : (s.setArmed b).magic = s.magic := rfl
@[simp] theorem State.setArmed_regs (b : Bool) :
    (s.setArmed b).regs = { s.regs with armed := b } := rfl
@[simp] theorem State.setArmed_fsm (b : Bool) : (s.setArmed b).fsm = s.fsm := rfl
@[simp] theorem State.setArmed_clkValid (b : Bool) : (s.setArmed b).clkValid = s.clkValid := rfl
@[simp] theorem State.setArmed_regAccessCount (b : Bool) :
    (s.setArmed b).regAccessCount = s.regAccessCount := rfl
@[simp] theorem State.setArmed_pulseCount (b : Bool) :
    (s.setArmed b).pulseCount = s.pulseCount := rfl
@[simp] theorem State.setArmed_warnLog (b : Bool) : (s.setArmed b).warnLog = s.warnLog := rfl
@[simp] theorem State.setArmed_faulted (b : Bool) : (s.setArmed b).faulted = s.faulted := rfl
@[simp] theorem State.setArmed_position (b : Bool) : (s.setArmed b).position = s.position := rfl
@[simp] theorem State.setArmed_pending (b : Bool) : (s.setArmed b).pending = s.pending := rfl
@[simp] theorem State.setArmed_draws (b : Bool) : (s.setArmed b).draws = s.draws := rfl
@[simp] theorem State.setArmed_uploading (b : Bool) : (s.setArmed b).uploading = s.uploading := rfl
@[simp] theorem State.setArmed_response (b : Bool) : (s.setArmed b).response = s.response := rfl
@[simp] theorem State.setArmed_fsmTrace (b : Bool) : (s.setArmed b).fsmTrace = s.fsmTrace := rfl

/-! ### countPulse -/

@[simp] theorem State.countPulse_cfg : s.countPulse.cfg = s.cfg := rfl
@[simp] theorem State.countPulse_key : s.countPulse.key = s.key := rfl
@[simp] theorem State.countPulse_fuse : s.countPulse.fuse = s.fuse := rfl
@[simp] theorem State.countPulse_locks : s.countPulse.locks = s.locks := rfl
@[simp] theorem State.countPulse_keyAccessDisabled :
    s.countPulse.keyAccessDisabled = s.keyAccessDisabled := rfl
@[simp] theorem State.countPulse_magic : s.countPulse.magic = s.magic := rfl
@[simp] theorem State.countPulse_regs : s.countPulse.regs = s.regs := rfl
@[simp] theorem State.countPulse_fsm : s.countPulse.fsm = s.fsm := rfl
@[simp] theorem State.countPulse_clkValid : s.countPulse.clkValid = s.clkValid := rfl
@[simp] theorem State.countPulse_regAccessCount :
    s.countPulse.regAccessCount = s.regAccessCount := rfl
@[simp] theorem State.countPulse_pulseCount : s.countPulse.pulseCount = s.pulseCount + 1 := rfl
@[simp] theorem State.countPulse_warnLog : s.countPulse.warnLog = s.warnLog := rfl
@[simp] theorem State.countPulse_faulted : s.countPulse.faulted = s.faulted := rfl
@[simp] theorem State.countPulse_position : s.countPulse.position = s.position := rfl
@[simp] theorem State.countPulse_pending : s.countPulse.pending = s.pending := rfl
@[simp] theorem State.countPulse_draws : s.countPulse.draws = s.draws := rfl
@[simp] theorem State.countPulse_uploading : s.countPulse.uploading = s.uploading := rfl
@[simp] theorem State.countPulse_response : s.countPulse.response = s.response := rfl
@[simp] theorem State.countPulse_fsmTrace : s.countPulse.fsmTrace = s.fsmTrace := rfl

/-! ### setMagic -/

@[simp] theorem State.setMagic_cfg (v : BitVec 32) : (s.setMagic v).cfg = s.cfg := rfl
@[simp] theorem State.setMagic_key (v : BitVec 32) : (s.setMagic v).key = s.key := rfl
@[simp] theorem State.setMagic_fuse (v : BitVec 32) : (s.setMagic v).fuse = s.fuse := rfl
@[simp] theorem State.setMagic_locks (v : BitVec 32) : (s.setMagic v).locks = s.locks := rfl
@[simp] theorem State.setMagic_keyAccessDisabled (v : BitVec 32) :
    (s.setMagic v).keyAccessDisabled = s.keyAccessDisabled := rfl
@[simp] theorem State.setMagic_magic (v : BitVec 32) : (s.setMagic v).magic = v := rfl
@[simp] theorem State.setMagic_regs (v : BitVec 32) : (s.setMagic v).regs = s.regs := rfl
@[simp] theorem State.setMagic_fsm (v : BitVec 32) : (s.setMagic v).fsm = s.fsm := rfl
@[simp] theorem State.setMagic_clkValid (v : BitVec 32) :
    (s.setMagic v).clkValid = s.clkValid := rfl
@[simp] theorem State.setMagic_regAccessCount (v : BitVec 32) :
    (s.setMagic v).regAccessCount = s.regAccessCount := rfl
@[simp] theorem State.setMagic_pulseCount (v : BitVec 32) :
    (s.setMagic v).pulseCount = s.pulseCount := rfl
@[simp] theorem State.setMagic_warnLog (v : BitVec 32) : (s.setMagic v).warnLog = s.warnLog := rfl
@[simp] theorem State.setMagic_faulted (v : BitVec 32) : (s.setMagic v).faulted = s.faulted := rfl
@[simp] theorem State.setMagic_position (v : BitVec 32) :
    (s.setMagic v).position = s.position := rfl
@[simp] theorem State.setMagic_pending (v : BitVec 32) : (s.setMagic v).pending = s.pending := rfl
@[simp] theorem State.setMagic_draws (v : BitVec 32) : (s.setMagic v).draws = s.draws := rfl
@[simp] theorem State.setMagic_uploading (v : BitVec 32) :
    (s.setMagic v).uploading = s.uploading := rfl
@[simp] theorem State.setMagic_response (v : BitVec 32) :
    (s.setMagic v).response = s.response := rfl
@[simp] theorem State.setMagic_fsmTrace (v : BitVec 32) :
    (s.setMagic v).fsmTrace = s.fsmTrace := rfl

/-! ### clockChange -/

@[simp] theorem State.clockChange_cfg : s.clockChange.cfg = s.cfg := rfl
@[simp] theorem State.clockChange_key : s.clockChange.key = s.key := rfl
@[simp] theorem State.clockChange_fuse : s.clockChange.fuse = s.fuse := rfl
@[simp] theorem State.clockChange_locks : s.clockChange.locks = s.locks := rfl
@[simp] theorem State.clockChange_keyAccessDisabled :
    s.clockChange.keyAccessDisabled = s.keyAccessDisabled := rfl
@[simp] theorem State.clockChange_magic : s.clockChange.magic = s.magic := rfl
@[simp] theorem State.clockChange_regs : s.clockChange.regs = s.regs := rfl
@[simp] theorem State.clockChange_fsm : s.clockChange.fsm = s.fsm := rfl
@[simp] theorem State.clockChange_clkValid : s.clockChange.clkValid = false := rfl
@[simp] theorem State.clockChange_regAccessCount :
    s.clockChange.regAccessCount = s.regAccessCount := rfl
@[simp] theorem State.clockChange_pulseCount : s.clockChange.pulseCount = s.pulseCount := rfl
@[simp] theorem State.clockChange_warnLog : s.clockChange.warnLog = s.warnLog := rfl
@[simp] theorem State.clockChange_faulted : s.clockChange.faulted = s.faulted := rfl
@[simp] theorem State.clockChange_position : s.clockChange.position = s.position := rfl
@[simp] theorem State.clockChange_pending : s.clockChange.pending = s.pending := rfl
@[simp] theorem State.clockChange_draws : s.clockChange.draws = s.draws := rfl
@[simp] theorem State.clockChange_uploading : s.clockChange.uploading = s.uploading := rfl
@[simp] theorem State.clockChange_response : s.clockChange.response = s.response := rfl
@[simp] theorem State.clockChange_fsmTrace : s.clockChange.fsmTrace = s.fsmTrace := rfl

/-! ### powerOnReset -/

@[simp] theorem State.powerOnReset_cfg : s.powerOnReset.cfg = s.cfg := rfl
@[simp] theorem State.powerOnReset_key : s.powerOnReset.key = s.key := rfl
@[simp] theorem State.powerOnReset_fuse : s.powerOnReset.fuse = s.fuse := rfl
@[simp] theorem State.powerOnReset_locks : s.powerOnReset.locks = s.cfg.lockPor := rfl
@[simp] theorem State.powerOnReset_keyAccessDisabled :
    s.powerOnReset.keyAccessDisabled = s.cfg.keydisPor := rfl
@[simp] theorem State.powerOnReset_magic : s.powerOnReset.magic = 0 := rfl
@[simp] theorem State.powerOnReset_regs :
    s.powerOnReset.regs = Regs.afterPor s.cfg.regsPor s.regs.keyInd.eccdis := rfl
@[simp] theorem State.powerOnReset_fsm : s.powerOnReset.fsm = .idle := rfl
@[simp] theorem State.powerOnReset_clkValid : s.powerOnReset.clkValid = false := rfl
@[simp] theorem State.powerOnReset_regAccessCount :
    s.powerOnReset.regAccessCount = s.regAccessCount := rfl
@[simp] theorem State.powerOnReset_pulseCount : s.powerOnReset.pulseCount = s.pulseCount := rfl
@[simp] theorem State.powerOnReset_warnLog : s.powerOnReset.warnLog = s.warnLog := rfl
@[simp] theorem State.powerOnReset_faulted : s.powerOnReset.faulted = s.faulted := rfl
@[simp] theorem State.powerOnReset_position : s.powerOnReset.position = s.position := rfl
@[simp] theorem State.powerOnReset_pending : s.powerOnReset.pending = s.pending := rfl
@[simp] theorem State.powerOnReset_draws : s.powerOnReset.draws = s.draws := rfl
@[simp] theorem State.powerOnReset_uploading : s.powerOnReset.uploading = s.uploading := rfl
@[simp] theorem State.powerOnReset_response : s.powerOnReset.response = s.response := rfl
@[simp] theorem State.powerOnReset_fsmTrace : s.powerOnReset.fsmTrace = .idle :: s.fsmTrace := rfl

/-! ### dropEvent -/

@[simp] theorem State.dropEvent_cfg : s.dropEvent.cfg = s.cfg := rfl
@[simp] theorem State.dropEvent_key : s.dropEvent.key = s.key := rfl
@[simp] theorem State.dropEvent_fuse : s.dropEvent.fuse = s.fuse := rfl
@[simp] theorem State.dropEvent_locks : s.dropEvent.locks = s.locks := rfl
@[simp] theorem State.dropEvent_keyAccessDisabled :
    s.dropEvent.keyAccessDisabled = s.keyAccessDisabled := rfl
@[simp] theorem State.dropEvent_magic : s.dropEvent.magic = s.magic := rfl
@[simp] theorem State.dropEvent_regs : s.dropEvent.regs = s.regs := rfl
@[simp] theorem State.dropEvent_fsm : s.dropEvent.fsm = s.fsm := rfl
@[simp] theorem State.dropEvent_clkValid : s.dropEvent.clkValid = s.clkValid := rfl
@[simp] theorem State.dropEvent_regAccessCount :
    s.dropEvent.regAccessCount = s.regAccessCount := rfl
@[simp] theorem State.dropEvent_pulseCount : s.dropEvent.pulseCount = s.pulseCount := rfl
@[simp] theorem State.dropEvent_warnLog : s.dropEvent.warnLog = s.warnLog := rfl
@[simp] theorem State.dropEvent_faulted : s.dropEvent.faulted = s.faulted := rfl
@[simp] theorem State.dropEvent_position : s.dropEvent.position = s.position := rfl
@[simp] theorem State.dropEvent_pending : s.dropEvent.pending = s.pending.tail := rfl
@[simp] theorem State.dropEvent_draws : s.dropEvent.draws = s.draws := rfl
@[simp] theorem State.dropEvent_uploading : s.dropEvent.uploading = s.uploading := rfl
@[simp] theorem State.dropEvent_response : s.dropEvent.response = s.response := rfl
@[simp] theorem State.dropEvent_fsmTrace : s.dropEvent.fsmTrace = s.fsmTrace := rfl

/-! ### complete -/

@[simp] theorem State.complete_cfg : s.complete.cfg = s.cfg := rfl
@[simp] theorem State.complete_key : s.complete.key = s.key := rfl
@[simp] theorem State.complete_fuse : s.complete.fuse = s.fuse := rfl
@[simp] theorem State.complete_locks : s.complete.locks = s.locks := rfl
@[simp] theorem State.complete_keyAccessDisabled :
    s.complete.keyAccessDisabled = s.keyAccessDisabled := rfl
@[simp] theorem State.complete_magic : s.complete.magic = s.magic := rfl
@[simp] theorem State.complete_regs : s.complete.regs = s.regs := rfl
@[simp] theorem State.complete_fsm : s.complete.fsm = s.fsm := rfl
@[simp] theorem State.complete_clkValid : s.complete.clkValid = s.clkValid := rfl
@[simp] theorem State.complete_regAccessCount : s.complete.regAccessCount = s.regAccessCount := rfl
@[simp] theorem State.complete_pulseCount : s.complete.pulseCount = s.pulseCount := rfl
@[simp] theorem State.complete_warnLog : s.complete.warnLog = s.warnLog := rfl
@[simp] theorem State.complete_faulted : s.complete.faulted = s.faulted := rfl
@[simp] theorem State.complete_position : s.complete.position = s.position + 1 := rfl
@[simp] theorem State.complete_pending : s.complete.pending = s.pending.tail := rfl
@[simp] theorem State.complete_draws : s.complete.draws = s.draws := rfl
@[simp] theorem State.complete_uploading : s.complete.uploading = s.uploading := rfl
@[simp] theorem State.complete_response : s.complete.response = s.response := rfl
@[simp] theorem State.complete_fsmTrace : s.complete.fsmTrace = s.fsmTrace := rfl

/-! ### placeCommand -/

@[simp] theorem State.placeCommand_cfg (c : Command) : (s.placeCommand c).cfg = s.cfg := rfl
@[simp] theorem State.placeCommand_key (c : Command) : (s.placeCommand c).key = s.key := rfl
@[simp] theorem State.placeCommand_fuse (c : Command) : (s.placeCommand c).fuse = s.fuse := rfl
@[simp] theorem State.placeCommand_locks (c : Command) : (s.placeCommand c).locks = s.locks := rfl
@[simp] theorem State.placeCommand_keyAccessDisabled (c : Command) :
    (s.placeCommand c).keyAccessDisabled = s.keyAccessDisabled := rfl
@[simp] theorem State.placeCommand_magic (c : Command) : (s.placeCommand c).magic = s.magic := rfl
@[simp] theorem State.placeCommand_regs (c : Command) : (s.placeCommand c).regs = s.regs := rfl
@[simp] theorem State.placeCommand_fsm (c : Command) : (s.placeCommand c).fsm = s.fsm := rfl
@[simp] theorem State.placeCommand_clkValid (c : Command) :
    (s.placeCommand c).clkValid = s.clkValid := rfl
@[simp] theorem State.placeCommand_regAccessCount (c : Command) :
    (s.placeCommand c).regAccessCount = s.regAccessCount := rfl
@[simp] theorem State.placeCommand_pulseCount (c : Command) :
    (s.placeCommand c).pulseCount = s.pulseCount := rfl
@[simp] theorem State.placeCommand_warnLog (c : Command) :
    (s.placeCommand c).warnLog = s.warnLog := rfl
@[simp] theorem State.placeCommand_faulted (c : Command) :
    (s.placeCommand c).faulted = s.faulted := rfl
@[simp] theorem State.placeCommand_position (c : Command) :
    (s.placeCommand c).position = s.position := rfl
@[simp] theorem State.placeCommand_pending (c : Command) :
    (s.placeCommand c).pending = .command c none :: s.pending := rfl
@[simp] theorem State.placeCommand_draws (c : Command) : (s.placeCommand c).draws = s.draws := rfl
@[simp] theorem State.placeCommand_uploading (c : Command) :
    (s.placeCommand c).uploading = false := rfl
@[simp] theorem State.placeCommand_response (c : Command) :
    (s.placeCommand c).response = s.response := rfl
@[simp] theorem State.placeCommand_fsmTrace (c : Command) :
    (s.placeCommand c).fsmTrace = s.fsmTrace := rfl

/-! ### Writing a cell -/

@[simp] theorem State.writeCell_cfg (a : StorageArray) (n : Nat) (v : Byte) :
    (s.writeCell a n v).cfg = s.cfg := by cases a <;> rfl
@[simp] theorem State.burn_cfg (a : StorageArray) (n : ByteAddr) (b : BitPos) :
    (s.burn a n b).cfg = s.cfg := State.writeCell_cfg s a _ _
@[simp] theorem State.writeCell_locks (a : StorageArray) (n : Nat) (v : Byte) :
    (s.writeCell a n v).locks = s.locks := by cases a <;> rfl
@[simp] theorem State.burn_locks (a : StorageArray) (n : ByteAddr) (b : BitPos) :
    (s.burn a n b).locks = s.locks := State.writeCell_locks s a _ _
@[simp] theorem State.writeCell_keyAccessDisabled (a : StorageArray) (n : Nat) (v : Byte) :
    (s.writeCell a n v).keyAccessDisabled = s.keyAccessDisabled := by cases a <;> rfl
@[simp] theorem State.burn_keyAccessDisabled (a : StorageArray) (n : ByteAddr) (b : BitPos) :
    (s.burn a n b).keyAccessDisabled = s.keyAccessDisabled := State.writeCell_keyAccessDisabled s a _ _
@[simp] theorem State.writeCell_magic (a : StorageArray) (n : Nat) (v : Byte) :
    (s.writeCell a n v).magic = s.magic := by cases a <;> rfl
@[simp] theorem State.burn_magic (a : StorageArray) (n : ByteAddr) (b : BitPos) :
    (s.burn a n b).magic = s.magic := State.writeCell_magic s a _ _
@[simp] theorem State.writeCell_regs (a : StorageArray) (n : Nat) (v : Byte) :
    (s.writeCell a n v).regs = s.regs := by cases a <;> rfl
@[simp] theorem State.burn_regs (a : StorageArray) (n : ByteAddr) (b : BitPos) :
    (s.burn a n b).regs = s.regs := State.writeCell_regs s a _ _
@[simp] theorem State.writeCell_fsm (a : StorageArray) (n : Nat) (v : Byte) :
    (s.writeCell a n v).fsm = s.fsm := by cases a <;> rfl
@[simp] theorem State.burn_fsm (a : StorageArray) (n : ByteAddr) (b : BitPos) :
    (s.burn a n b).fsm = s.fsm := State.writeCell_fsm s a _ _
@[simp] theorem State.writeCell_clkValid (a : StorageArray) (n : Nat) (v : Byte) :
    (s.writeCell a n v).clkValid = s.clkValid := by cases a <;> rfl
@[simp] theorem State.burn_clkValid (a : StorageArray) (n : ByteAddr) (b : BitPos) :
    (s.burn a n b).clkValid = s.clkValid := State.writeCell_clkValid s a _ _
@[simp] theorem State.writeCell_regAccessCount (a : StorageArray) (n : Nat) (v : Byte) :
    (s.writeCell a n v).regAccessCount = s.regAccessCount := by cases a <;> rfl
@[simp] theorem State.burn_regAccessCount (a : StorageArray) (n : ByteAddr) (b : BitPos) :
    (s.burn a n b).regAccessCount = s.regAccessCount := State.writeCell_regAccessCount s a _ _
@[simp] theorem State.writeCell_pulseCount (a : StorageArray) (n : Nat) (v : Byte) :
    (s.writeCell a n v).pulseCount = s.pulseCount := by cases a <;> rfl
@[simp] theorem State.burn_pulseCount (a : StorageArray) (n : ByteAddr) (b : BitPos) :
    (s.burn a n b).pulseCount = s.pulseCount := State.writeCell_pulseCount s a _ _
@[simp] theorem State.writeCell_warnLog (a : StorageArray) (n : Nat) (v : Byte) :
    (s.writeCell a n v).warnLog = s.warnLog := by cases a <;> rfl
@[simp] theorem State.burn_warnLog (a : StorageArray) (n : ByteAddr) (b : BitPos) :
    (s.burn a n b).warnLog = s.warnLog := State.writeCell_warnLog s a _ _
@[simp] theorem State.writeCell_faulted (a : StorageArray) (n : Nat) (v : Byte) :
    (s.writeCell a n v).faulted = s.faulted := by cases a <;> rfl
@[simp] theorem State.burn_faulted (a : StorageArray) (n : ByteAddr) (b : BitPos) :
    (s.burn a n b).faulted = s.faulted := State.writeCell_faulted s a _ _
@[simp] theorem State.writeCell_position (a : StorageArray) (n : Nat) (v : Byte) :
    (s.writeCell a n v).position = s.position := by cases a <;> rfl
@[simp] theorem State.burn_position (a : StorageArray) (n : ByteAddr) (b : BitPos) :
    (s.burn a n b).position = s.position := State.writeCell_position s a _ _
@[simp] theorem State.writeCell_pending (a : StorageArray) (n : Nat) (v : Byte) :
    (s.writeCell a n v).pending = s.pending := by cases a <;> rfl
@[simp] theorem State.burn_pending (a : StorageArray) (n : ByteAddr) (b : BitPos) :
    (s.burn a n b).pending = s.pending := State.writeCell_pending s a _ _
@[simp] theorem State.writeCell_draws (a : StorageArray) (n : Nat) (v : Byte) :
    (s.writeCell a n v).draws = s.draws := by cases a <;> rfl
@[simp] theorem State.burn_draws (a : StorageArray) (n : ByteAddr) (b : BitPos) :
    (s.burn a n b).draws = s.draws := State.writeCell_draws s a _ _
@[simp] theorem State.writeCell_uploading (a : StorageArray) (n : Nat) (v : Byte) :
    (s.writeCell a n v).uploading = s.uploading := by cases a <;> rfl
@[simp] theorem State.burn_uploading (a : StorageArray) (n : ByteAddr) (b : BitPos) :
    (s.burn a n b).uploading = s.uploading := State.writeCell_uploading s a _ _
@[simp] theorem State.writeCell_response (a : StorageArray) (n : Nat) (v : Byte) :
    (s.writeCell a n v).response = s.response := by cases a <;> rfl
@[simp] theorem State.burn_response (a : StorageArray) (n : ByteAddr) (b : BitPos) :
    (s.burn a n b).response = s.response := State.writeCell_response s a _ _
@[simp] theorem State.writeCell_fsmTrace (a : StorageArray) (n : Nat) (v : Byte) :
    (s.writeCell a n v).fsmTrace = s.fsmTrace := by cases a <;> rfl
@[simp] theorem State.burn_fsmTrace (a : StorageArray) (n : ByteAddr) (b : BitPos) :
    (s.burn a n b).fsmTrace = s.fsmTrace := State.writeCell_fsmTrace s a _ _

end Sys2Proof.Machine
end

