-- ==== Sys2Proof/Laws/Memory.lean ====
section
/-! SUPPORT. The storage arrays: a read after a write to the same place gives the value written, a write
leaves every other place alone, and every operation keeps the canonical form. -/

namespace Sys2Proof.Machine

theorem Memory.lookup_put (m : Memory) (a b : Nat) (v : Byte) :
    (Memory.put m a v).lookup b = if b = a then some v else m.lookup b := by
  induction m with
  | nil =>
    simp only [Memory.put, List.lookup_cons, List.lookup_nil]
    grind
  | cons c m ih =>
    obtain ⟨k, w⟩ := c
    simp only [Memory.put]
    split_ifs with h1 h2 h3 h4
    all_goals simp_all [List.lookup_cons]
    all_goals grind

theorem Memory.lookup_drop (m : Memory) (a b : Nat) :
    (Memory.drop m a).lookup b = if b = a then none else m.lookup b := by
  induction m with
  | nil => simp [Memory.drop]
  | cons c m ih =>
    obtain ⟨k, w⟩ := c
    simp only [Memory.drop, List.filter_cons] at ih ⊢
    by_cases hk : k = a <;> by_cases hb : b = a <;> simp_all [List.lookup_cons]
    all_goals grind

/-- A read after a write: the value at the written address, the old byte anywhere else. -/
theorem Memory.read_write (base : Nat → Byte) (m : Memory) (a b : Nat) (v : Byte) :
    Memory.read base (Memory.write base m a v) b = if b = a then v else Memory.read base m b := by
  unfold Memory.read Memory.write
  by_cases hv : v = base a <;> by_cases hb : b = a <;>
    simp [hv, hb, Memory.lookup_put, Memory.lookup_drop]

theorem Memory.mem_put {m : Memory} {a : Nat} {v : Byte} {c : Host.Cell}
    (h : c ∈ Memory.put m a v) : c = (a, v) ∨ c ∈ m := by
  induction m with
  | nil => simpa [Memory.put] using h
  | cons d m ih =>
    simp only [Memory.put] at h
    split_ifs at h <;> simp_all <;> grind

theorem Memory.put_wf {base : Nat → Byte} {m : Memory} {a : Nat} {v : Byte}
    (h : Memory.wf base m) (ha : a < arrayBytes) (hv : v ≠ base a) :
    Memory.wf base (Memory.put m a v) := by
  constructor
  · have hp := h.1
    clear h
    induction m with
    | nil => simp [Memory.put]
    | cons c m ih =>
      rw [List.pairwise_cons] at hp
      simp only [Memory.put]
      split_ifs with h1 h2
      · refine List.pairwise_cons.2 ⟨?_, List.pairwise_cons.2 hp⟩
        intro d hd
        rcases List.mem_cons.1 hd with rfl | hd
        · exact h1
        · exact Nat.lt_trans h1 (hp.1 d hd)
      · exact List.pairwise_cons.2 ⟨fun d hd => h2 ▸ hp.1 d hd, hp.2⟩
      · refine List.pairwise_cons.2 ⟨?_, ih hp.2⟩
        intro d hd
        rcases Memory.mem_put hd with rfl | hd
        · show c.1 < a
          omega
        · exact hp.1 d hd
  · intro c hc
    rcases Memory.mem_put hc with rfl | hc
    · exact ⟨ha, hv⟩
    · exact h.2 c hc

theorem Memory.drop_wf {base : Nat → Byte} {m : Memory} (h : Memory.wf base m) (a : Nat) :
    Memory.wf base (Memory.drop m a) :=
  ⟨h.1.filter _, fun c hc => h.2 c (List.mem_of_mem_filter hc)⟩

/-- Writing a byte inside the array keeps the canonical form. -/
theorem Memory.write_wf {base : Nat → Byte} {m : Memory} {a : Nat}
    (h : Memory.wf base m) (ha : a < arrayBytes) (v : Byte) :
    Memory.wf base (Memory.write base m a v) := by
  unfold Memory.write
  split_ifs with hv
  · exact Memory.drop_wf h a
  · exact Memory.put_wf h ha hv

theorem State.launch_memInv (c : Config) : (State.launch c).MemInv :=
  ⟨⟨List.Pairwise.nil, fun _ h => nomatch h⟩, ⟨List.Pairwise.nil, fun _ h => nomatch h⟩⟩

/-- A cell reads the same in two states with the same configuration and arrays. -/
theorem State.readCell_congr {s t : State} (hc : t.cfg = s.cfg) (hk : t.key = s.key)
    (hf : t.fuse = s.fuse) (a : StorageArray) (n : Nat) : t.readCell a n = s.readCell a n := by
  cases a <;> simp [State.readCell, State.cells, hc, hk, hf]

/-- A read of a cell after a write of a cell. -/
theorem State.readCell_writeCell (s : State) (a a' : StorageArray) (n n' : Nat) (v : Byte) :
    (s.writeCell a n v).readCell a' n' =
      if a' = a ∧ n' = n then v else s.readCell a' n' := by
  cases a <;> cases a' <;>
    simp [State.readCell, State.writeCell, State.cells, Memory.read_write]

/-- A read of a cell after a burn: the addressed bit is set, nothing else changes (R69). -/
theorem State.readCell_burn (s : State) (a a' : StorageArray) (addr : ByteAddr) (b : BitPos)
    (n : Nat) :
    (s.burn a addr b).readCell a' n =
      if a' = a ∧ n = addr.toNat then s.readCell a addr.toNat ||| bitMask b.toNat
      else s.readCell a' n :=
  State.readCell_writeCell s a a' addr.toNat n _

theorem State.memInv_burn {s : State} (h : s.MemInv) (a : StorageArray) (addr : ByteAddr)
    (b : BitPos) : (s.burn a addr b).MemInv := by
  have ha : addr.toNat < arrayBytes := addr.isLt
  refine ⟨?_, ?_⟩
  · rw [State.burn_cfg]
    cases a
    · exact Memory.write_wf h.1 ha _
    · exact h.1
  · rw [State.burn_cfg]
    cases a
    · exact h.2
    · exact Memory.write_wf h.2 ha _

end Sys2Proof.Machine
end

