-- ==== Sys2Proof/Laws/Frame.lean ====
section
/-! SUPPORT. What the operations of the OTP state machine never touch, and how far they can go on what
they do touch: one frame lemma for each shared operation, for every sequence of draws. -/

namespace Sys2Proof.Machine

/-- What every primitive of a read or program transaction keeps, and the direction in which it moves
the arrays, the counters and the warning log. -/
structure PulseFrame (s t : State) : Prop where
  cfg : t.cfg = s.cfg
  locks : t.locks = s.locks
  keyAccessDisabled : t.keyAccessDisabled = s.keyAccessDisabled
  magic : t.magic = s.magic
  clkValid : t.clkValid = s.clkValid
  faulted : t.faulted = s.faulted
  position : t.position = s.position
  pending : t.pending = s.pending
  uploading : t.uploading = s.uploading
  response : t.response = s.response
  clkMhz : t.regs.clkMhz = s.regs.clkMhz
  keyInd : t.regs.keyInd = s.regs.keyInd
  access : s.regAccessCount ≤ t.regAccessCount
  pulses : s.pulseCount ≤ t.pulseCount
  warnings : ∃ n, t.warnLog = s.warnLog ++ List.replicate n .magicMismatch
  memInv : s.MemInv → t.MemInv
  fuses : s.fusesKept t

/-- The same of what does not stop between the count of a pulse and its burn: the arrays have not
changed unless a pulse was counted. -/
structure OtpFrame (s t : State) : Prop extends PulseFrame s t where
  quiet : t.pulseCount = s.pulseCount → t.key = s.key ∧ t.fuse = s.fuse

theorem State.fusesKept_refl (s : State) : s.fusesKept s := fun _ _ => by simp [bitsWithin]

theorem bitsWithin_trans {x y z : Byte} (h1 : bitsWithin x y) (h2 : bitsWithin y z) :
    bitsWithin x z := by
  unfold bitsWithin at *
  rw [← h2, ← BitVec.or_assoc, h1]

theorem State.fusesKept_trans {s t u : State} (h1 : s.fusesKept t) (h2 : t.fusesKept u) :
    s.fusesKept u := fun a n => bitsWithin_trans (h1 a n) (h2 a n)

/-- Nothing but registers, counters, observations and draws has changed. -/
theorem OtpFrame.of_arrays {s t : State} (cfg : t.cfg = s.cfg) (key : t.key = s.key)
    (fuse : t.fuse = s.fuse) (locks : t.locks = s.locks)
    (kad : t.keyAccessDisabled = s.keyAccessDisabled) (magic : t.magic = s.magic)
    (clkValid : t.clkValid = s.clkValid) (faulted : t.faulted = s.faulted)
    (position : t.position = s.position) (pending : t.pending = s.pending)
    (uploading : t.uploading = s.uploading) (response : t.response = s.response)
    (clkMhz : t.regs.clkMhz = s.regs.clkMhz) (keyInd : t.regs.keyInd = s.regs.keyInd)
    (access : s.regAccessCount ≤ t.regAccessCount) (pulses : s.pulseCount ≤ t.pulseCount)
    (warnings : ∃ n, t.warnLog = s.warnLog ++ List.replicate n .magicMismatch) : OtpFrame s t where
  cfg := cfg
  locks := locks
  keyAccessDisabled := kad
  magic := magic
  clkValid := clkValid
  faulted := faulted
  position := position
  pending := pending
  uploading := uploading
  response := response
  clkMhz := clkMhz
  keyInd := keyInd
  access := access
  pulses := pulses
  warnings := warnings
  memInv := fun h => by
    show Memory.wf _ _ ∧ Memory.wf _ _
    rw [cfg, key, fuse]
    exact h
  fuses := fun a n => by
    rw [State.readCell_congr cfg key fuse]
    exact State.fusesKept_refl s a n
  quiet := fun _ => ⟨key, fuse⟩

theorem OtpFrame.refl (s : State) : OtpFrame s s :=
  .of_arrays rfl rfl rfl rfl rfl rfl rfl rfl rfl rfl rfl rfl rfl rfl le_rfl le_rfl ⟨0, by simp⟩

theorem PulseFrame.trans {s t u : State} (h1 : PulseFrame s t) (h2 : PulseFrame t u) :
    PulseFrame s u where
  cfg := h2.cfg.trans h1.cfg
  locks := h2.locks.trans h1.locks
  keyAccessDisabled := h2.keyAccessDisabled.trans h1.keyAccessDisabled
  magic := h2.magic.trans h1.magic
  clkValid := h2.clkValid.trans h1.clkValid
  faulted := h2.faulted.trans h1.faulted
  position := h2.position.trans h1.position
  pending := h2.pending.trans h1.pending
  uploading := h2.uploading.trans h1.uploading
  response := h2.response.trans h1.response
  clkMhz := h2.clkMhz.trans h1.clkMhz
  keyInd := h2.keyInd.trans h1.keyInd
  access := h1.access.trans h2.access
  pulses := h1.pulses.trans h2.pulses
  warnings := by
    obtain ⟨m, hm⟩ := h1.warnings
    obtain ⟨n, hn⟩ := h2.warnings
    exact ⟨m + n, by rw [hn, hm, List.append_assoc, List.replicate_append_replicate]⟩
  memInv := fun h => h2.memInv (h1.memInv h)
  fuses := State.fusesKept_trans h1.fuses h2.fuses

theorem OtpFrame.trans {s t u : State} (h1 : OtpFrame s t) (h2 : OtpFrame t u) : OtpFrame s u where
  toPulseFrame := h1.toPulseFrame.trans h2.toPulseFrame
  quiet := fun h => by
    have hp1 := h1.pulses
    have hp2 := h2.pulses
    have k1 := h1.quiet (by omega)
    have k2 := h2.quiet (by omega)
    exact ⟨k2.1.trans k1.1, k2.2.trans k1.2⟩

/-! ### The plain updates -/

theorem OtpFrame.access_step (s : State) : OtpFrame s s.access :=
  .of_arrays rfl rfl rfl rfl rfl rfl rfl rfl rfl rfl rfl rfl rfl rfl (by simp) le_rfl ⟨0, by simp⟩

theorem OtpFrame.setFsm (s : State) (f : Fsm) : OtpFrame s (s.setFsm f) :=
  .of_arrays rfl rfl rfl rfl rfl rfl rfl rfl rfl rfl rfl rfl rfl rfl le_rfl le_rfl ⟨0, by simp⟩

theorem OtpFrame.warn (s : State) : OtpFrame s (s.warn .magicMismatch) :=
  .of_arrays rfl rfl rfl rfl rfl rfl rfl rfl rfl rfl rfl rfl rfl rfl le_rfl le_rfl ⟨1, by simp⟩

theorem OtpFrame.drawPulse (s : State) : OtpFrame s s.drawPulse.2 :=
  .of_arrays rfl rfl rfl rfl rfl rfl rfl rfl rfl rfl rfl rfl rfl rfl le_rfl le_rfl ⟨0, by simp⟩

theorem OtpFrame.drawByte (s : State) : OtpFrame s s.drawByte.2 :=
  .of_arrays rfl rfl rfl rfl rfl rfl rfl rfl rfl rfl rfl rfl rfl rfl le_rfl le_rfl ⟨0, by simp⟩

theorem OtpFrame.readRdy (s : State) : OtpFrame s s.readRdy.2 :=
  .of_arrays rfl rfl rfl rfl rfl rfl rfl rfl rfl rfl rfl rfl rfl rfl (by simp) le_rfl ⟨0, by simp⟩

theorem OtpFrame.setArmed (s : State) (b : Bool) : OtpFrame s (s.setArmed b) :=
  .of_arrays rfl rfl rfl rfl rfl rfl rfl rfl rfl rfl rfl rfl rfl rfl le_rfl le_rfl ⟨0, by simp⟩

theorem OtpFrame.countPulse (s : State) : OtpFrame s s.countPulse :=
  .of_arrays rfl rfl rfl rfl rfl rfl rfl rfl rfl rfl rfl rfl rfl rfl le_rfl (by simp) ⟨0, by simp⟩

theorem OtpFrame.writeAck (s : State) : OtpFrame s s.writeAck :=
  .of_arrays rfl rfl rfl rfl rfl rfl rfl rfl rfl rfl rfl rfl rfl rfl (by simp) le_rfl ⟨0, by simp⟩

theorem OtpFrame.writeArr (s : State) (a : StorageArray) : OtpFrame s (s.writeArr a) :=
  .of_arrays rfl rfl rfl rfl rfl rfl rfl rfl rfl rfl rfl rfl rfl rfl (by simp) le_rfl ⟨0, by simp⟩

theorem OtpFrame.writeByteAddr (s : State) (n : ByteAddr) : OtpFrame s (s.writeByteAddr n) :=
  .of_arrays rfl rfl rfl rfl rfl rfl rfl rfl rfl rfl rfl rfl rfl rfl (by simp) le_rfl ⟨0, by simp⟩

theorem OtpFrame.writeBitPos (s : State) (b : BitPos) : OtpFrame s (s.writeBitPos b) :=
  .of_arrays rfl rfl rfl rfl rfl rfl rfl rfl rfl rfl rfl rfl rfl rfl (by simp) le_rfl ⟨0, by simp⟩

theorem OtpFrame.readData (s : State) (d : Byte) : OtpFrame s (s.readData d) :=
  .of_arrays rfl rfl rfl rfl rfl rfl rfl rfl rfl rfl rfl rfl rfl rfl (by simp) le_rfl ⟨0, by simp⟩

theorem OtpFrame.writeData (s : State) (d : Byte) : OtpFrame s (s.writeData d) :=
  .of_arrays rfl rfl rfl rfl rfl rfl rfl rfl rfl rfl rfl rfl rfl rfl (by simp) le_rfl ⟨0, by simp⟩

theorem OtpFrame.writeInProg (s : State) (b : Bool) : OtpFrame s (s.writeInProg b) :=
  .of_arrays rfl rfl rfl rfl rfl rfl rfl rfl rfl rfl rfl rfl rfl rfl (by simp) le_rfl ⟨0, by simp⟩

theorem OtpFrame.writeSmart (s : State) (b : Bool) : OtpFrame s (s.writeSmart b) :=
  .of_arrays rfl rfl rfl rfl rfl rfl rfl rfl rfl rfl rfl rfl rfl rfl (by simp) le_rfl ⟨0, by simp⟩

theorem PulseFrame.burn (s : State) (a : StorageArray) (addr : ByteAddr) (b : BitPos) :
    PulseFrame s (s.burn a addr b) where
  cfg := by simp
  locks := by simp
  keyAccessDisabled := by simp
  magic := by simp
  clkValid := by simp
  faulted := by simp
  position := by simp
  pending := by simp
  uploading := by simp
  response := by simp
  clkMhz := by simp
  keyInd := by simp
  access := by simp
  pulses := by simp
  warnings := ⟨0, by simp⟩
  memInv := fun h => State.memInv_burn h a addr b
  fuses := fun a' n => by
    rw [State.readCell_burn]
    split_ifs with h
    · rw [h.1, h.2]
      show _ ||| (_ ||| _) = _ ||| _
      rw [← BitVec.or_assoc, BitVec.or_self]
    · exact State.fusesKept_refl s a' n

/-! ### The shared operations -/

theorem PulseFrame.acceptPulse (s : State) : PulseFrame s s.acceptPulse := by
  unfold State.acceptPulse
  dsimp only
  split_ifs
  · exact (OtpFrame.drawPulse s).toPulseFrame.trans (PulseFrame.burn _ _ _ _)
  · exact (OtpFrame.drawPulse s).toPulseFrame

theorem OtpFrame.acceptPulse (s : State) : OtpFrame s s.countPulse.acceptPulse where
  toPulseFrame := (OtpFrame.countPulse s).toPulseFrame.trans (PulseFrame.acceptPulse _)
  quiet := fun h => by
    have hc : s.countPulse.pulseCount ≤ s.countPulse.acceptPulse.pulseCount :=
      (PulseFrame.acceptPulse s.countPulse).pulses
    rw [h] at hc
    exact absurd hc (Nat.not_succ_le_self _)

theorem OtpFrame.writeCmd (s : State) (v : RegWord) : OtpFrame s (s.writeCmd v) := by
  unfold State.writeCmd
  split_ifs
  · exact (OtpFrame.access_step s).trans (OtpFrame.setArmed _ _)
  · exact ((OtpFrame.access_step s).trans (OtpFrame.setArmed _ _)).trans (OtpFrame.acceptPulse _)
  · exact ((OtpFrame.access_step s).trans (OtpFrame.setArmed _ _)).trans (OtpFrame.countPulse _)
  · exact (OtpFrame.access_step s).trans (OtpFrame.setArmed _ _)

theorem OtpFrame.issuePulse (s : State) : OtpFrame s s.issuePulse := by
  unfold State.issuePulse
  split_ifs
  · exact (OtpFrame.writeCmd s _).trans (OtpFrame.writeCmd _ _)
  · exact ((OtpFrame.writeCmd s _).trans (OtpFrame.warn _)).trans (OtpFrame.writeCmd _ _)
  · exact (OtpFrame.writeCmd s _).trans (OtpFrame.writeCmd _ _)

theorem OtpFrame.waitReady (s : State) (n : Nat) : OtpFrame s (s.waitReady n).2 := by
  induction n generalizing s with
  | zero => exact OtpFrame.writeAck s
  | succ n ih =>
    simp only [State.waitReady]
    split_ifs
    · exact (OtpFrame.readRdy s).trans (OtpFrame.writeAck _)
    · exact (OtpFrame.readRdy s).trans (ih _)

theorem OtpFrame.startRead (s : State) (a : StorageArray) (addr : ByteAddr) :
    OtpFrame s (s.startRead a addr) :=
  (((((OtpFrame.setFsm s _).trans (OtpFrame.writeArr _ a)).trans
    (OtpFrame.writeByteAddr _ addr)).trans (OtpFrame.writeCmd _ _)).trans
    (OtpFrame.setFsm _ _)).trans (OtpFrame.setFsm _ _)

theorem OtpFrame.readValue (s : State) (a : StorageArray) (addr : ByteAddr) (s1 s2 : Status) :
    OtpFrame s (s.readValue a addr s1 s2).2 := by
  unfold State.readValue
  split_ifs
  · exact OtpFrame.refl s
  · exact OtpFrame.drawByte s

theorem OtpFrame.readByteBody (a : StorageArray) (addr : ByteAddr) (s : State) :
    OtpFrame s (readByteBody a addr s).state :=
  ((((((OtpFrame.waitReady s _).trans (OtpFrame.startRead _ a addr)).trans
    (OtpFrame.waitReady _ _)).trans (OtpFrame.readValue _ a addr _ _)).trans
    (OtpFrame.readData _ _)).trans (OtpFrame.writeData _ _)).trans (OtpFrame.setFsm _ _)

theorem OtpFrame.startProgram (s : State) (a : StorageArray) (addr : ByteAddr) (b : BitPos) :
    OtpFrame s (s.startProgram a addr b) :=
  (((OtpFrame.setFsm s _).trans (OtpFrame.writeArr _ a)).trans
    (OtpFrame.writeByteAddr _ addr)).trans (OtpFrame.writeBitPos _ b)

theorem OtpFrame.pulseOnce (s : State) : OtpFrame s s.pulseOnce :=
  ((((OtpFrame.setFsm s _).trans (OtpFrame.issuePulse _)).trans (OtpFrame.setFsm _ _)).trans
    (OtpFrame.waitReady _ _)).trans (OtpFrame.setFsm _ _)

theorem OtpFrame.programBitSmart (a : StorageArray) (addr : ByteAddr) (b : BitPos) (s : State) :
    OtpFrame s (programBitSmart a addr b s).2 :=
  (((((OtpFrame.startProgram s a addr b).trans (OtpFrame.writeSmart _ _)).trans
    (OtpFrame.pulseOnce _)).trans (OtpFrame.writeSmart _ _)).trans
    (OtpFrame.readByteBody a addr _)).trans (OtpFrame.setFsm _ _)

theorem OtpFrame.legacyLoop (a : StorageArray) (addr : ByteAddr) (b : BitPos) (s : State)
    (k left : Nat) : OtpFrame s (legacyLoop a addr b s k left).2 := by
  induction left generalizing s k with
  | zero => exact OtpFrame.refl s
  | succ left ih =>
    simp only [Machine.legacyLoop]
    split_ifs
    · exact (OtpFrame.pulseOnce s).trans (OtpFrame.readByteBody a addr _)
    · exact ((OtpFrame.pulseOnce s).trans (OtpFrame.readByteBody a addr _)).trans (ih _ _)
    · exact (OtpFrame.pulseOnce s).trans (ih _ _)

theorem OtpFrame.programBitLegacy (a : StorageArray) (addr : ByteAddr) (b : BitPos) (s : State) :
    OtpFrame s (programBitLegacy a addr b s).2 :=
  (((((OtpFrame.startProgram s a addr b).trans (OtpFrame.writeInProg _ _)).trans
    (OtpFrame.legacyLoop a addr b _ _ _)).trans (OtpFrame.writeData _ _)).trans
    (OtpFrame.writeInProg _ _)).trans (OtpFrame.setFsm _ _)

theorem OtpFrame.programBitAlgo (a : StorageArray) (addr : ByteAddr) (b : BitPos) (s : State) :
    OtpFrame s (programBitAlgo a addr b s).2 := by
  unfold Machine.programBitAlgo
  split
  · exact OtpFrame.programBitSmart a addr b s
  · exact OtpFrame.programBitLegacy a addr b s

theorem OtpFrame.programBitBody (a : StorageArray) (addr : ByteAddr) (b : BitPos) (vfy : Bool)
    (s : State) : OtpFrame s (programBitBody a addr b vfy s).2 := by
  unfold Machine.programBitBody
  dsimp only
  split_ifs
  · exact OtpFrame.readByteBody a addr s
  · exact (OtpFrame.readByteBody a addr s).trans (OtpFrame.programBitAlgo a addr b _)
  · exact OtpFrame.programBitAlgo a addr b s

theorem OtpFrame.programBits (a : StorageArray) (addr : ByteAddr) (tp : Byte) (bs : List BitPos)
    (st : Status) (s : State) : OtpFrame s (programBits a addr tp bs st s).2 := by
  induction bs generalizing st s with
  | nil => exact OtpFrame.refl s
  | cons b bs ih =>
    simp only [Machine.programBits]
    split_ifs
    · exact (OtpFrame.programBitBody a addr b false s).trans (ih _ _)
    · exact ih _ _

theorem OtpFrame.programByteBody (a : StorageArray) (addr : ByteAddr) (val : Byte) (s : State) :
    OtpFrame s (programByteBody a addr val s).2 :=
  (OtpFrame.readByteBody a addr s).trans (OtpFrame.programBits a addr _ _ _ _)

theorem OtpFrame.readBytes (a : StorageArray) (s : State) (addr : Nat) (st : Status) (n : Nat) :
    OtpFrame s (readBytes a s addr st n).2.2 := by
  induction n generalizing s addr st with
  | zero => exact OtpFrame.refl s
  | succ n ih => exact (OtpFrame.readByteBody a _ s).trans (ih _ _ _)

end Sys2Proof.Machine
end

