-- ==== Sys2Proof/Laws/Otp.lean ====
section
/-! SUPPORT. What the shared operations of the OTP state machine do: the poll, the command register, the
pulse, the read transaction, field by field, for every sequence of draws; and what they do when the
environment's answers are listed. -/

namespace Sys2Proof.Machine

/-! ### The poll (R171) -/

section WaitReady

variable (s : State) (n : Nat)

@[simp] theorem State.waitReady_regs : (s.waitReady n).2.regs = { s.regs with ack := false } := by
  induction n generalizing s with
  | zero => rfl
  | succ n ih => simp only [State.waitReady]; split_ifs <;> simp [ih]

@[simp] theorem State.waitReady_key : (s.waitReady n).2.key = s.key := by
  induction n generalizing s with
  | zero => rfl
  | succ n ih => simp only [State.waitReady]; split_ifs <;> simp [ih]

@[simp] theorem State.waitReady_fuse : (s.waitReady n).2.fuse = s.fuse := by
  induction n generalizing s with
  | zero => rfl
  | succ n ih => simp only [State.waitReady]; split_ifs <;> simp [ih]

@[simp] theorem State.waitReady_fsm : (s.waitReady n).2.fsm = s.fsm := by
  induction n generalizing s with
  | zero => rfl
  | succ n ih => simp only [State.waitReady]; split_ifs <;> simp [ih]

@[simp] theorem State.waitReady_fsmTrace : (s.waitReady n).2.fsmTrace = s.fsmTrace := by
  induction n generalizing s with
  | zero => rfl
  | succ n ih => simp only [State.waitReady]; split_ifs <;> simp [ih]

@[simp] theorem State.waitReady_pulseCount : (s.waitReady n).2.pulseCount = s.pulseCount := by
  induction n generalizing s with
  | zero => rfl
  | succ n ih => simp only [State.waitReady]; split_ifs <;> simp [ih]

@[simp] theorem State.waitReady_warnLog : (s.waitReady n).2.warnLog = s.warnLog := by
  induction n generalizing s with
  | zero => rfl
  | succ n ih => simp only [State.waitReady]; split_ifs <;> simp [ih]

@[simp] theorem State.waitReady_drawsPulse : (s.waitReady n).2.draws.pulse = s.draws.pulse := by
  induction n generalizing s with
  | zero => rfl
  | succ n ih => simp only [State.waitReady]; split_ifs <;> simp [ih]

@[simp] theorem State.waitReady_drawsByte : (s.waitReady n).2.draws.byte = s.draws.byte := by
  induction n generalizing s with
  | zero => rfl
  | succ n ih => simp only [State.waitReady]; split_ifs <;> simp [ih]

@[simp] theorem State.waitReady_cfg : (s.waitReady n).2.cfg = s.cfg := (OtpFrame.waitReady s n).cfg

@[simp] theorem State.waitReady_locks : (s.waitReady n).2.locks = s.locks :=
  (OtpFrame.waitReady s n).locks

@[simp] theorem State.waitReady_keyAccessDisabled :
    (s.waitReady n).2.keyAccessDisabled = s.keyAccessDisabled :=
  (OtpFrame.waitReady s n).keyAccessDisabled

@[simp] theorem State.waitReady_magic : (s.waitReady n).2.magic = s.magic :=
  (OtpFrame.waitReady s n).magic

/-- A poll returns Ok or HardwareError. -/
theorem State.waitReady_status :
    (s.waitReady n).1 = .ok ∨ (s.waitReady n).1 = .hardwareError := by
  induction n generalizing s with
  | zero => exact .inr rfl
  | succ n ih =>
    simp only [State.waitReady]
    split_ifs
    · exact .inl rfl
    · exact ih _

/-- A poll with a budget of `n` makes at most `n + 1` register accesses. -/
theorem State.waitReady_access_le :
    (s.waitReady n).2.regAccessCount ≤ s.regAccessCount + (n + 1) := by
  induction n generalizing s with
  | zero => exact le_rfl
  | succ n ih =>
    simp only [State.waitReady]
    split_ifs
    · simp
    · have := ih s.readRdy.2
      simp only [State.readRdy_regAccessCount] at this
      omega

/-- A poll makes at least the acknowledgment's access, and one more where its budget is not 0. -/
theorem State.le_waitReady_access :
    s.regAccessCount + (min n 1 + 1) ≤ (s.waitReady n).2.regAccessCount := by
  cases n with
  | zero => exact le_rfl
  | succ n =>
    simp only [State.waitReady]
    split_ifs
    · simp
    · have : s.readRdy.2.regAccessCount + 1 ≤ (s.readRdy.2.waitReady n).2.regAccessCount := by
        cases n with
        | zero => exact le_rfl
        | succ n =>
          simp only [State.waitReady]
          split_ifs
          · simp
          · have := (OtpFrame.waitReady s.readRdy.2.readRdy.2 n).access
            simp only [State.readRdy_regAccessCount] at this ⊢
            omega
      simp only [State.readRdy_regAccessCount] at this
      omega

end WaitReady

theorem State.readRdy_fst (s : State) : s.readRdy.1 = s.readyAt 0 := by
  simp only [State.readRdy, State.drawReady, State.readyAt, State.access_draws, Nat.add_zero]
  cases s.draws.ready <;> rfl

theorem State.readRdy_readyAt (s : State) (j : Nat) : s.readRdy.2.readyAt j = s.readyAt (j + 1) := by
  simp only [State.readyAt, State.readRdy_draws, List.getElem?_tail]
  congr 2
  omega

/-- What one poll does (R31). -/
theorem State.readRdy_step (s : State) :
    s.readRdy.2 = { s with
      regAccessCount := s.regAccessCount + 1
      draws := { s.draws with ready := s.draws.ready.tail, drawn := s.draws.drawn + 1 } } := rfl

/-- The poll that first reads ready ends the wait with Ok. -/
theorem State.waitReady_ok (s : State) (n j : Nat) (hj : j < n) (h : s.readyAt j = true)
    (hb : ∀ i < j, s.readyAt i = false) :
    s.waitReady n = (.ok, { s with
      regAccessCount := s.regAccessCount + (j + 2)
      draws := s.draws.afterReady (j + 1)
      regs := { s.regs with ack := false } }) := by
  induction j generalizing s n with
  | zero =>
    obtain ⟨m, rfl⟩ : ∃ m, n = m + 1 := ⟨n - 1, by omega⟩
    simp only [State.waitReady, State.readRdy_fst, h, if_true]
    simp [State.writeAck, State.readRdy, State.drawReady, State.access, Draws.afterReady]
  | succ j ih =>
    obtain ⟨m, rfl⟩ : ∃ m, n = m + 1 := ⟨n - 1, by omega⟩
    have h0 : s.readyAt 0 = false := hb 0 (by omega)
    simp only [State.waitReady, State.readRdy_fst, h0]
    rw [if_neg (by simp)]
    rw [ih s.readRdy.2 m (by omega) (by rw [State.readRdy_readyAt]; exact h)
      (fun i hi => by rw [State.readRdy_readyAt]; exact hb _ (by omega))]
    simp only [State.readRdy_step, Draws.afterReady, List.drop_tail, Nat.add_assoc]
    simp only [Nat.add_comm 1]

/-- Where no poll of the budget reads ready, the wait ends with HardwareError. -/
theorem State.waitReady_timeout (s : State) (n : Nat) (hb : ∀ i < n, s.readyAt i = false) :
    s.waitReady n = (.hardwareError, { s with
      regAccessCount := s.regAccessCount + (n + 1)
      draws := s.draws.afterReady n
      regs := { s.regs with ack := false } }) := by
  induction n generalizing s with
  | zero => simp [State.waitReady, State.writeAck, State.access, Draws.afterReady]
  | succ n ih =>
    have h0 : s.readyAt 0 = false := hb 0 (by omega)
    simp only [State.waitReady, State.readRdy_fst, h0]
    rw [if_neg (by simp)]
    rw [ih s.readRdy.2 (fun i hi => by rw [State.readRdy_readyAt]; exact hb _ (by omega))]
    simp only [State.readRdy_step, Draws.afterReady, List.drop_tail, Nat.add_assoc]
    simp only [Nat.add_comm 1]

/-- A wait ends with Ok exactly if one of its polls reads ready (R171). -/
theorem State.waitReady_ok_iff (s : State) (n : Nat) :
    (s.waitReady n).1 = .ok ↔ ∃ j < n, s.readyAt j = true := by
  induction n generalizing s with
  | zero => simp [State.waitReady]
  | succ n ih =>
    simp only [State.waitReady, State.readRdy_fst]
    cases h : s.readyAt 0 with
    | true => exact ⟨fun _ => ⟨0, Nat.succ_pos n, h⟩, fun _ => rfl⟩
    | false =>
      simp only [Bool.false_eq_true, if_false, ih, State.readRdy_readyAt]
      constructor
      · rintro ⟨j, hj, hr⟩
        exact ⟨j + 1, Nat.succ_lt_succ hj, hr⟩
      · rintro ⟨j, hj, hr⟩
        cases j with
        | zero => rw [h] at hr; cases hr
        | succ j => exact ⟨j, Nat.lt_of_succ_lt_succ hj, hr⟩

/-- What the polls answer depends on the draws alone. -/
theorem State.readyAt_congr {s t : State} (h : t.draws = s.draws) (j : Nat) :
    t.readyAt j = s.readyAt j := by
  simp only [State.readyAt, h]

/-- After a wait that ended at its poll `i`, the next poll is poll `i + 1`. -/
theorem State.waitReady_readyAt {s : State} {n i : Nat} (hi : i < n) (h : s.readyAt i = true)
    (hb : ∀ k < i, s.readyAt k = false) (j : Nat) :
    (s.waitReady n).2.readyAt j = s.readyAt (i + 1 + j) := by
  rw [State.waitReady_ok s n i hi h hb]
  simp only [State.readyAt, Draws.afterReady, List.getElem?_drop, Nat.add_assoc]

/-- A poll whose first answer is listed and ready: Ok, one read and one write. -/
theorem State.waitReady_ready {s : State} {rs : List Bool} (h : s.draws.ready = true :: rs)
    {n : Nat} (hn : n ≠ 0) :
    (s.waitReady n).1 = .ok ∧ (s.waitReady n).2.draws.ready = rs ∧
    (s.waitReady n).2.draws.drawn = s.draws.drawn + 1 ∧
    (s.waitReady n).2.regAccessCount = s.regAccessCount + 2 := by
  rw [State.waitReady_ok s n 0 (by omega) (by simp [State.readyAt, h]) (fun i hi => by omega)]
  simp [Draws.afterReady, h]

/-! ### The command register (R174) -/

section WriteCmd

variable (s : State) (v : RegWord)

@[simp] theorem State.acceptPulse_regs : s.acceptPulse.regs = s.regs := by
  simp only [State.acceptPulse]; split_ifs <;> simp

@[simp] theorem State.acceptPulse_fsm : s.acceptPulse.fsm = s.fsm := by
  simp only [State.acceptPulse]; split_ifs <;> simp

@[simp] theorem State.acceptPulse_fsmTrace : s.acceptPulse.fsmTrace = s.fsmTrace := by
  simp only [State.acceptPulse]; split_ifs <;> simp

@[simp] theorem State.acceptPulse_regAccessCount :
    s.acceptPulse.regAccessCount = s.regAccessCount := by
  simp only [State.acceptPulse]; split_ifs <;> simp

@[simp] theorem State.acceptPulse_pulseCount : s.acceptPulse.pulseCount = s.pulseCount := by
  simp only [State.acceptPulse]; split_ifs <;> simp

@[simp] theorem State.acceptPulse_warnLog : s.acceptPulse.warnLog = s.warnLog := by
  simp only [State.acceptPulse]; split_ifs <;> simp

@[simp] theorem State.acceptPulse_draws :
    s.acceptPulse.draws =
      { s.draws with pulse := s.draws.pulse.tail, drawn := s.draws.drawn + 1 } := by
  simp only [State.acceptPulse]; split_ifs <;> simp

@[simp] theorem State.writeCmd_regs :
    (s.writeCmd v).regs = { s.regs with armed := v == s.cfg.armValue } := by
  simp only [State.writeCmd]; split_ifs <;> simp_all

@[simp] theorem State.writeCmd_fsm : (s.writeCmd v).fsm = s.fsm := by
  simp only [State.writeCmd]; split_ifs <;> simp

@[simp] theorem State.writeCmd_fsmTrace : (s.writeCmd v).fsmTrace = s.fsmTrace := by
  simp only [State.writeCmd]; split_ifs <;> simp

@[simp] theorem State.writeCmd_warnLog : (s.writeCmd v).warnLog = s.warnLog := by
  simp only [State.writeCmd]; split_ifs <;> simp

@[simp] theorem State.writeCmd_regAccessCount :
    (s.writeCmd v).regAccessCount = s.regAccessCount + 1 := by
  simp only [State.writeCmd]; split_ifs <;> simp

@[simp] theorem State.writeCmd_drawsReady : (s.writeCmd v).draws.ready = s.draws.ready := by
  simp only [State.writeCmd]; split_ifs <;> simp

@[simp] theorem State.writeCmd_drawsByte : (s.writeCmd v).draws.byte = s.draws.byte := by
  simp only [State.writeCmd]; split_ifs <;> simp

@[simp] theorem State.writeCmd_cfg : (s.writeCmd v).cfg = s.cfg := (OtpFrame.writeCmd s v).cfg

@[simp] theorem State.writeCmd_locks : (s.writeCmd v).locks = s.locks :=
  (OtpFrame.writeCmd s v).locks

@[simp] theorem State.writeCmd_keyAccessDisabled :
    (s.writeCmd v).keyAccessDisabled = s.keyAccessDisabled :=
  (OtpFrame.writeCmd s v).keyAccessDisabled

@[simp] theorem State.writeCmd_magic : (s.writeCmd v).magic = s.magic :=
  (OtpFrame.writeCmd s v).magic

/-- A write of ARM_VALUE arms and does nothing else. -/
theorem State.writeCmd_arm (h : v = s.cfg.armValue) : s.writeCmd v = s.access.setArmed true := by
  simp [State.writeCmd, h]

/-- A write to a disarmed command register of anything but ARM_VALUE does nothing. -/
theorem State.writeCmd_disarmed (h : v ≠ s.cfg.armValue) (ha : s.regs.armed = false) :
    s.writeCmd v = s.access.setArmed false := by
  simp [State.writeCmd, h, ha]

/-- A pulse-command write with the wrong value is counted and rejected. -/
theorem State.writeCmd_rejected (h : v ≠ s.cfg.armValue) (ha : s.regs.armed = true)
    (hp : v ≠ s.cfg.progCmd) : s.writeCmd v = (s.access.setArmed false).countPulse := by
  simp [State.writeCmd, h, ha, hp]

/-- An accepted program command. -/
theorem State.writeCmd_accepted (h : v ≠ s.cfg.armValue) (ha : s.regs.armed = true)
    (hp : v = s.cfg.progCmd) :
    s.writeCmd v = (s.access.setArmed false).countPulse.acceptPulse := by
  subst hp
  simp [State.writeCmd, h, ha]

/-- Only an accepted program command changes an array (R25). -/
theorem State.writeCmd_arrays (h : v ≠ s.cfg.progCmd ∨ v = s.cfg.armValue ∨ s.regs.armed = false) :
    (s.writeCmd v).key = s.key ∧ (s.writeCmd v).fuse = s.fuse := by
  unfold State.writeCmd
  split_ifs with h1 h2 h3
  · simp
  · rcases h with h | h | h
    · exact absurd h3 h
    · exact absurd h h1
    · rw [h] at h2; cases h2
  · simp
  · simp

/-- What any write of the command register can do to a cell. -/
theorem State.writeCmd_readCell (a : StorageArray) (n : Nat) :
    (s.writeCmd v).readCell a n = s.readCell a n ∨
    (s.regs.armed = true ∧ v = s.cfg.progCmd ∧ a = s.regs.arr ∧ n = s.regs.byteAddr.toNat ∧
      (s.writeCmd v).readCell a n = s.readCell a n ||| bitMask s.regs.bitPos.toNat) := by
  by_cases h : v ≠ s.cfg.progCmd ∨ v = s.cfg.armValue ∨ s.regs.armed = false
  · obtain ⟨hk, hf⟩ := State.writeCmd_arrays s v h
    exact .inl (State.readCell_congr (by simp) hk hf a n)
  · push Not at h
    obtain ⟨hp, ha, hr⟩ := h
    have hr : s.regs.armed = true := by simpa using hr
    rw [State.writeCmd_accepted s v ha hr hp]
    have hu : ∀ a n, (s.access.setArmed false).countPulse.drawPulse.2.readCell a n =
        s.readCell a n := fun a n => State.readCell_congr (by simp) (by simp) (by simp) a n
    unfold State.acceptPulse
    dsimp only
    split_ifs with hd
    · rw [State.readCell_burn]
      split_ifs with hc
      · refine .inr ⟨hr, hp, hc.1, hc.2, ?_⟩
        rw [hu, hc.1, hc.2]
        rfl
      · exact .inl (hu a n)
    · exact .inl (hu a n)

end WriteCmd

/-! ### The pulse (R175) -/

/-- The command an IssuePulse writes after the arm. -/
def State.pulseWord (s : State) : RegWord := bif s.cfg.magicCap then s.magic else s.cfg.progCmd

/-- The magic word is there and wrong (R175). -/
def State.mismatch (s : State) : Bool := s.cfg.magicCap && s.magic != s.cfg.progCmd

section IssuePulse

variable (s : State)

/-- IssuePulse is an arm, perhaps a warning, and the write of the pulse word. -/
theorem State.issuePulse_eq :
    s.issuePulse =
      (bif s.mismatch then (s.writeCmd s.cfg.armValue).warn .magicMismatch
        else s.writeCmd s.cfg.armValue).writeCmd s.pulseWord := by
  unfold State.issuePulse State.pulseWord State.mismatch
  by_cases hc : s.cfg.magicCap = true <;> by_cases hm : s.magic = s.cfg.progCmd <;>
    simp [hc, hm, bne_iff_ne.2]

@[simp] theorem State.issuePulse_regs :
    s.issuePulse.regs = { s.regs with armed := s.pulseWord == s.cfg.armValue } := by
  rw [State.issuePulse_eq]; cases s.mismatch <;> simp

@[simp] theorem State.issuePulse_fsm : s.issuePulse.fsm = s.fsm := by
  rw [State.issuePulse_eq]; cases s.mismatch <;> simp

@[simp] theorem State.issuePulse_fsmTrace : s.issuePulse.fsmTrace = s.fsmTrace := by
  rw [State.issuePulse_eq]; cases s.mismatch <;> simp

@[simp] theorem State.issuePulse_regAccessCount :
    s.issuePulse.regAccessCount = s.regAccessCount + 2 := by
  rw [State.issuePulse_eq]; cases s.mismatch <;> simp

@[simp] theorem State.issuePulse_drawsReady : s.issuePulse.draws.ready = s.draws.ready := by
  rw [State.issuePulse_eq]; cases s.mismatch <;> simp

@[simp] theorem State.issuePulse_drawsByte : s.issuePulse.draws.byte = s.draws.byte := by
  rw [State.issuePulse_eq]; cases s.mismatch <;> simp

@[simp] theorem State.issuePulse_cfg : s.issuePulse.cfg = s.cfg := (OtpFrame.issuePulse s).cfg

@[simp] theorem State.issuePulse_locks : s.issuePulse.locks = s.locks := (OtpFrame.issuePulse s).locks

@[simp] theorem State.issuePulse_keyAccessDisabled :
    s.issuePulse.keyAccessDisabled = s.keyAccessDisabled :=
  (OtpFrame.issuePulse s).keyAccessDisabled

@[simp] theorem State.issuePulse_magic : s.issuePulse.magic = s.magic := (OtpFrame.issuePulse s).magic

/-- A pulse warns exactly where the magic word is there and wrong (R175). -/
theorem State.issuePulse_warnLog :
    s.issuePulse.warnLog =
      bif s.mismatch then s.warnLog ++ [.magicMismatch] else s.warnLog := by
  rw [State.issuePulse_eq]; cases s.mismatch <;> simp

/-- A pulse whose word is not ARM_VALUE is one pulse-command write (R175). -/
theorem State.issuePulse_pulseCount (h : s.pulseWord ≠ s.cfg.armValue) :
    s.issuePulse.pulseCount = s.pulseCount + 1 := by
  rw [State.issuePulse_eq]
  have hw : (s.writeCmd s.cfg.armValue) = s.access.setArmed true := State.writeCmd_arm s _ rfl
  rw [hw]
  by_cases hp : s.pulseWord = s.cfg.progCmd
  · cases s.mismatch
    all_goals
      simp only [cond_true, cond_false]
      rw [State.writeCmd_accepted _ _ (by simpa using h) (by simp) (by simpa using hp)]
      simp
  · cases s.mismatch
    all_goals
      simp only [cond_true, cond_false]
      rw [State.writeCmd_rejected _ _ (by simpa using h) (by simp) (by simpa using hp)]
      simp

/-- What a pulse can do to a cell: nothing but setting the addressed bit. -/
theorem State.issuePulse_readCell (a : StorageArray) (n : Nat) :
    s.issuePulse.readCell a n = s.readCell a n ∨
    (a = s.regs.arr ∧ n = s.regs.byteAddr.toNat ∧
      s.issuePulse.readCell a n = s.readCell a n ||| bitMask s.regs.bitPos.toNat) := by
  have hw : (s.writeCmd s.cfg.armValue) = s.access.setArmed true := State.writeCmd_arm s _ rfl
  rw [State.issuePulse_eq, hw]
  have hu : ∀ a n, (s.access.setArmed true).readCell a n = s.readCell a n :=
    fun a n => State.readCell_congr (by simp) (by simp) (by simp) a n
  have hv : ∀ a n, ((s.access.setArmed true).warn .magicMismatch).readCell a n = s.readCell a n :=
    fun a n => State.readCell_congr (by simp) (by simp) (by simp) a n
  cases s.mismatch <;> simp only [cond_true, cond_false]
  · have := State.writeCmd_readCell (s.access.setArmed true) s.pulseWord a n
    rw [hu] at this
    rcases this with h | ⟨-, -, h3, h4, h5⟩
    · exact .inl h
    · exact .inr ⟨h3, h4, h5⟩
  · have := State.writeCmd_readCell ((s.access.setArmed true).warn .magicMismatch) s.pulseWord a n
    rw [hv] at this
    rcases this with h | ⟨-, -, h3, h4, h5⟩
    · exact .inl h
    · exact .inr ⟨h3, h4, h5⟩

/-- A pulse with another word than PROG_CMD changes no array (R263). -/
theorem State.issuePulse_wrong (h : s.pulseWord ≠ s.cfg.progCmd) :
    s.issuePulse.key = s.key ∧ s.issuePulse.fuse = s.fuse := by
  have hw : (s.writeCmd s.cfg.armValue) = s.access.setArmed true := State.writeCmd_arm s _ rfl
  rw [State.issuePulse_eq, hw]
  cases s.mismatch <;> simp only [cond_true, cond_false]
  · exact State.writeCmd_arrays (s.access.setArmed true) s.pulseWord (.inl (by simpa using h))
  · exact State.writeCmd_arrays ((s.access.setArmed true).warn .magicMismatch) s.pulseWord
      (.inl (by simpa using h))

/-- A pulse with the right word and a listed draw. -/
theorem State.issuePulse_accepted (hc : s.commandReady) (hd : s.cfg.armValue ≠ s.cfg.progCmd)
    {p : Bool} {ps : List Bool} (hp : s.draws.pulse = p :: ps) :
    s.issuePulse.draws = { s.draws with pulse := ps, drawn := s.draws.drawn + 1 } ∧
    s.issuePulse.warnLog = s.warnLog ∧ s.issuePulse.pulseCount = s.pulseCount + 1 ∧
    s.issuePulse.regs = { s.regs with armed := false } ∧
    ∀ a n, s.issuePulse.readCell a n =
      if p = true ∧ a = s.regs.arr ∧ n = s.regs.byteAddr.toNat then
        s.readCell a n ||| bitMask s.regs.bitPos.toNat
      else s.readCell a n := by
  have hword : s.pulseWord = s.cfg.progCmd := by
    unfold State.pulseWord
    rcases hc with h | h <;> simp [h]
  have hnw : s.mismatch = false := by
    unfold State.mismatch
    rcases hc with h | h <;> simp [h]
  have hne : s.pulseWord ≠ s.cfg.armValue := by rw [hword]; exact hd.symm
  have hw : (s.writeCmd s.cfg.armValue) = s.access.setArmed true := State.writeCmd_arm s _ rfl
  have he : s.issuePulse =
      ((s.access.setArmed true).access.setArmed false).countPulse.acceptPulse := by
    rw [State.issuePulse_eq, hnw, cond_false, hw,
      State.writeCmd_accepted _ _ (by simpa using hne) (by simp) (by simpa using hword)]
  refine ⟨?_, ?_, ?_, ?_, ?_⟩
  · rw [he]; simp [hp]
  · rw [State.issuePulse_warnLog, hnw, cond_false]
  · exact State.issuePulse_pulseCount s hne
  · rw [State.issuePulse_regs]; simp [hne]
  · intro a n
    rw [he]
    have hu : ∀ a n,
        ((s.access.setArmed true).access.setArmed false).countPulse.drawPulse.2.readCell a n =
          s.readCell a n := fun a n => State.readCell_congr (by simp) (by simp) (by simp) a n
    have hd1 : ((s.access.setArmed true).access.setArmed false).countPulse.drawPulse.1 = p := by
      simp [State.drawPulse, hp]
    unfold State.acceptPulse
    dsimp only
    rw [hd1]
    cases p
    · simpa using hu a n
    · simp only [if_true, true_and]
      rw [State.readCell_burn]
      simp only [hu]
      split_ifs with h1 h2 h2
      · rw [h1.1, h1.2]; rfl
      · exact absurd h1 h2
      · exact absurd h2 h1
      · rfl

end IssuePulse

/-! ### The read transaction (R172) -/

@[simp] theorem State.readValue_regs (s : State) (a : StorageArray) (addr : ByteAddr) (s1 s2 : Status) :
    (s.readValue a addr s1 s2).2.regs = s.regs := by
  unfold State.readValue; split_ifs <;> rfl

@[simp] theorem State.readValue_key (s : State) (a : StorageArray) (addr : ByteAddr) (s1 s2 : Status) :
    (s.readValue a addr s1 s2).2.key = s.key := by
  unfold State.readValue; split_ifs <;> rfl

@[simp] theorem State.readValue_fuse (s : State) (a : StorageArray) (addr : ByteAddr) (s1 s2 : Status) :
    (s.readValue a addr s1 s2).2.fuse = s.fuse := by
  unfold State.readValue; split_ifs <;> rfl

@[simp] theorem State.readValue_fsm (s : State) (a : StorageArray) (addr : ByteAddr) (s1 s2 : Status) :
    (s.readValue a addr s1 s2).2.fsm = s.fsm := by
  unfold State.readValue; split_ifs <;> rfl

@[simp] theorem State.readValue_fsmTrace (s : State) (a : StorageArray) (addr : ByteAddr) (s1 s2 : Status) :
    (s.readValue a addr s1 s2).2.fsmTrace = s.fsmTrace := by
  unfold State.readValue; split_ifs <;> rfl

@[simp] theorem State.readValue_regAccessCount (s : State) (a : StorageArray) (addr : ByteAddr) (s1 s2 : Status) :
    (s.readValue a addr s1 s2).2.regAccessCount = s.regAccessCount := by
  unfold State.readValue; split_ifs <;> rfl

@[simp] theorem State.readValue_pulseCount (s : State) (a : StorageArray) (addr : ByteAddr) (s1 s2 : Status) :
    (s.readValue a addr s1 s2).2.pulseCount = s.pulseCount := by
  unfold State.readValue; split_ifs <;> rfl

@[simp] theorem State.readValue_warnLog (s : State) (a : StorageArray) (addr : ByteAddr) (s1 s2 : Status) :
    (s.readValue a addr s1 s2).2.warnLog = s.warnLog := by
  unfold State.readValue; split_ifs <;> rfl

@[simp] theorem State.readValue_cfg (s : State) (a : StorageArray) (addr : ByteAddr) (s1 s2 : Status) :
    (s.readValue a addr s1 s2).2.cfg = s.cfg := by
  unfold State.readValue; split_ifs <;> rfl

@[simp] theorem State.readValue_locks (s : State) (a : StorageArray) (addr : ByteAddr) (s1 s2 : Status) :
    (s.readValue a addr s1 s2).2.locks = s.locks := by
  unfold State.readValue; split_ifs <;> rfl

@[simp] theorem State.readValue_keyAccessDisabled (s : State) (a : StorageArray) (addr : ByteAddr) (s1 s2 : Status) :
    (s.readValue a addr s1 s2).2.keyAccessDisabled = s.keyAccessDisabled := by
  unfold State.readValue; split_ifs <;> rfl

@[simp] theorem State.readValue_magic (s : State) (a : StorageArray) (addr : ByteAddr) (s1 s2 : Status) :
    (s.readValue a addr s1 s2).2.magic = s.magic := by
  unfold State.readValue; split_ifs <;> rfl

@[simp] theorem State.readValue_clkValid (s : State) (a : StorageArray) (addr : ByteAddr) (s1 s2 : Status) :
    (s.readValue a addr s1 s2).2.clkValid = s.clkValid := by
  unfold State.readValue; split_ifs <;> rfl

@[simp] theorem State.readValue_draws_ready (s : State) (a : StorageArray) (addr : ByteAddr)
    (s1 s2 : Status) : (s.readValue a addr s1 s2).2.draws.ready = s.draws.ready := by
  unfold State.readValue; split_ifs <;> rfl

@[simp] theorem State.readValue_draws_pulse (s : State) (a : StorageArray) (addr : ByteAddr)
    (s1 s2 : Status) : (s.readValue a addr s1 s2).2.draws.pulse = s.draws.pulse := by
  unfold State.readValue; split_ifs <;> rfl

@[simp] theorem State.readValue_draws_kval (s : State) (a : StorageArray) (addr : ByteAddr)
    (s1 s2 : Status) : (s.readValue a addr s1 s2).2.draws.kval = s.draws.kval := by
  unfold State.readValue; split_ifs <;> rfl

@[simp] theorem State.startRead_regs (s : State) (a : StorageArray) (addr : ByteAddr) :
    (s.startRead a addr).regs =
      { s.regs with arr := a, byteAddr := addr, armed := s.cfg.readCmd == s.cfg.armValue } := by
  simp [State.startRead]

@[simp] theorem State.startRead_fsm (s : State) (a : StorageArray) (addr : ByteAddr) :
    (s.startRead a addr).fsm =
      .pollingReady := by
  simp [State.startRead]

@[simp] theorem State.startRead_fsmTrace (s : State) (a : StorageArray) (addr : ByteAddr) :
    (s.startRead a addr).fsmTrace =
      .pollingReady :: .readPulse :: .addressing :: s.fsmTrace := by
  simp [State.startRead]

@[simp] theorem State.startRead_regAccessCount (s : State) (a : StorageArray) (addr : ByteAddr) :
    (s.startRead a addr).regAccessCount =
      s.regAccessCount + 3 := by
  simp [State.startRead]

@[simp] theorem State.startRead_warnLog (s : State) (a : StorageArray) (addr : ByteAddr) :
    (s.startRead a addr).warnLog =
      s.warnLog := by
  simp [State.startRead]

@[simp] theorem State.startRead_cfg (s : State) (a : StorageArray) (addr : ByteAddr) :
    (s.startRead a addr).cfg =
      s.cfg := by
  simp [State.startRead]

@[simp] theorem State.startRead_locks (s : State) (a : StorageArray) (addr : ByteAddr) :
    (s.startRead a addr).locks =
      s.locks := by
  simp [State.startRead]

@[simp] theorem State.startRead_keyAccessDisabled (s : State) (a : StorageArray) (addr : ByteAddr) :
    (s.startRead a addr).keyAccessDisabled =
      s.keyAccessDisabled := by
  simp [State.startRead]

@[simp] theorem State.startRead_magic (s : State) (a : StorageArray) (addr : ByteAddr) :
    (s.startRead a addr).magic =
      s.magic := by
  simp [State.startRead]

@[simp] theorem State.startRead_draws_ready (s : State) (a : StorageArray) (addr : ByteAddr) :
    (s.startRead a addr).draws.ready =
      s.draws.ready := by
  simp [State.startRead]

@[simp] theorem State.startRead_draws_byte (s : State) (a : StorageArray) (addr : ByteAddr) :
    (s.startRead a addr).draws.byte =
      s.draws.byte := by
  simp [State.startRead]

/-- READ_CMD burns nothing as long as it is not PROG_CMD, or the register is disarmed (R174). -/
theorem State.startRead_arrays (s : State) (a : StorageArray) (addr : ByteAddr)
    (h : s.cfg.readCmd ≠ s.cfg.progCmd ∨ s.regs.armed = false) :
    (s.startRead a addr).key = s.key ∧ (s.startRead a addr).fuse = s.fuse := by
  have hw := State.writeCmd_arrays (((s.setFsm .addressing).writeArr a).writeByteAddr addr)
    s.cfg.readCmd (by
      rcases h with h | h
      · exact .inl (by simpa using h)
      · exact .inr (.inr (by simpa using h)))
  simpa [State.startRead] using hw

/-- From a disarmed command register READ_CMD is no pulse-command write. -/
theorem State.startRead_pulseCount (s : State) (a : StorageArray) (addr : ByteAddr)
    (h : s.regs.armed = false) : (s.startRead a addr).pulseCount = s.pulseCount := by
  simp only [State.startRead, State.writeCmd]
  simp only [State.writeByteAddr_regs, State.writeArr_regs, State.setFsm_regs, h]
  split_ifs <;> simp_all

/-- From a disarmed command register READ_CMD draws nothing. -/
theorem State.startRead_draws (s : State) (a : StorageArray) (addr : ByteAddr)
    (h : s.cfg.readCmd ≠ s.cfg.progCmd ∨ s.regs.armed = false) :
    (s.startRead a addr).draws = s.draws := by
  simp only [State.startRead, State.writeCmd]
  split_ifs <;> simp_all

section ReadByte

variable (a : StorageArray) (addr : ByteAddr) (s : State)

/-- The registers a read transaction leaves, whatever was drawn. -/
@[simp] theorem readByteBody_regs :
    (readByteBody a addr s).state.regs =
      { s.regs with
        ack := false, arr := a, byteAddr := addr, data := 0x01
        armed := s.cfg.readCmd == s.cfg.armValue } := by
  simp [readByteBody, scrub]

/-- The FSM state a read transaction ends in (R172). -/
@[simp] theorem readByteBody_fsm :
    (readByteBody a addr s).state.fsm = Fsm.ofStatus (readByteBody a addr s).status := by
  simp [readByteBody]

/-- The FSM states a read transaction passes through (R48, R172). -/
@[simp] theorem readByteBody_fsmTrace :
    (readByteBody a addr s).state.fsmTrace =
      Fsm.ofStatus (readByteBody a addr s).status ::
        .pollingReady :: .readPulse :: .addressing :: s.fsmTrace := by
  simp [readByteBody]

@[simp] theorem readByteBody_warnLog : (readByteBody a addr s).state.warnLog = s.warnLog := by
  simp [readByteBody]

@[simp] theorem readByteBody_cfg : (readByteBody a addr s).state.cfg = s.cfg :=
  (OtpFrame.readByteBody a addr s).cfg

@[simp] theorem readByteBody_magic : (readByteBody a addr s).state.magic = s.magic :=
  (OtpFrame.readByteBody a addr s).magic

@[simp] theorem readByteBody_locks : (readByteBody a addr s).state.locks = s.locks :=
  (OtpFrame.readByteBody a addr s).locks

@[simp] theorem readByteBody_keyAccessDisabled :
    (readByteBody a addr s).state.keyAccessDisabled = s.keyAccessDisabled :=
  (OtpFrame.readByteBody a addr s).keyAccessDisabled

/-- A read transaction returns Ok or HardwareError (R172). -/
theorem readByteBody_status :
    (readByteBody a addr s).status = .ok ∨ (readByteBody a addr s).status = .hardwareError := by
  simp only [readByteBody]
  rcases State.waitReady_status s waitTimeout with h1 | h1 <;>
  rcases State.waitReady_status ((s.waitReady waitTimeout).2.startRead a addr) waitTimeout
    with h2 | h2 <;> rw [h1, h2] <;> simp [Status.worst, Status.severity]

/-- A read transaction returns Ok exactly if its first wait sees ready and so does its second, which
starts where the first ended (R172). -/
theorem readByteBody_ok_iff (h : s.cfg.readCmd ≠ s.cfg.progCmd ∨ s.regs.armed = false) :
    (readByteBody a addr s).status = .ok ↔
      ∃ i j, i < waitTimeout ∧ j < waitTimeout ∧ (∀ k < i, s.readyAt k = false) ∧
        s.readyAt i = true ∧ s.readyAt (i + 1 + j) = true := by
  have hw : (readByteBody a addr s).status = .ok ↔ (s.waitReady waitTimeout).1 = .ok ∧
      (((s.waitReady waitTimeout).2.startRead a addr).waitReady waitTimeout).1 = .ok := by
    simp only [readByteBody]
    rcases State.waitReady_status s waitTimeout with h1 | h1 <;>
    rcases State.waitReady_status ((s.waitReady waitTimeout).2.startRead a addr) waitTimeout
      with h2 | h2 <;> rw [h1, h2] <;> simp [Status.worst, Status.severity]
  have hd := State.startRead_draws (s.waitReady waitTimeout).2 a addr (by simpa using h)
  have hnext : ∀ {i}, i < waitTimeout → s.readyAt i = true → (∀ k < i, s.readyAt k = false) → ∀ j,
      ((s.waitReady waitTimeout).2.startRead a addr).readyAt j = s.readyAt (i + 1 + j) :=
    fun hi h1 hb j => (State.readyAt_congr hd j).trans (State.waitReady_readyAt hi h1 hb j)
  rw [hw, State.waitReady_ok_iff, State.waitReady_ok_iff]
  constructor
  · rintro ⟨⟨m, hm, hr⟩, j, hj, hr2⟩
    have hex : ∃ i, i < waitTimeout ∧ s.readyAt i = true := ⟨m, hm, hr⟩
    obtain ⟨h1, h2⟩ := Nat.find_spec hex
    have hb : ∀ k < Nat.find hex, s.readyAt k = false := fun k hk =>
      Bool.eq_false_iff.2 fun hk' => Nat.find_min hex hk ⟨hk.trans h1, hk'⟩
    exact ⟨Nat.find hex, j, h1, hj, hb, h2, by rw [← hnext h1 h2 hb]; exact hr2⟩
  · rintro ⟨i, j, hi, hj, hb, h1, h2⟩
    exact ⟨⟨i, hi, h1⟩, j, hj, by rw [hnext hi h1 hb]; exact h2⟩

/-- A read transaction changes no array as long as READ_CMD is not PROG_CMD, or the register is
disarmed (R174). -/
theorem readByteBody_arrays (h : s.cfg.readCmd ≠ s.cfg.progCmd ∨ s.regs.armed = false) :
    (readByteBody a addr s).state.key = s.key ∧ (readByteBody a addr s).state.fuse = s.fuse := by
  have hw := State.startRead_arrays (s.waitReady waitTimeout).2 a addr (by simpa using h)
  simpa [readByteBody] using hw

/-- From a disarmed command register a read transaction issues no pulse-command write. -/
theorem readByteBody_pulseCount (h : s.regs.armed = false) :
    (readByteBody a addr s).state.pulseCount = s.pulseCount := by
  have hw := State.startRead_pulseCount (s.waitReady waitTimeout).2 a addr (by simpa using h)
  simpa [readByteBody] using hw

/-- A read transaction takes no pulse draw. -/
theorem readByteBody_drawsPulse (h : s.cfg.readCmd ≠ s.cfg.progCmd ∨ s.regs.armed = false) :
    (readByteBody a addr s).state.draws.pulse = s.draws.pulse := by
  have hw := State.startRead_draws (s.waitReady waitTimeout).2 a addr (by simpa using h)
  simp [readByteBody, hw]

/-- A read transaction makes at least nine register accesses, and at most two full waits and five
more. -/
theorem readByteBody_access :
    s.regAccessCount + 9 ≤ (readByteBody a addr s).state.regAccessCount ∧
    (readByteBody a addr s).state.regAccessCount ≤ s.regAccessCount + 8199 := by
  have h1 := State.waitReady_access_le s waitTimeout
  have h2 := State.waitReady_access_le ((s.waitReady waitTimeout).2.startRead a addr) waitTimeout
  have h3 := State.le_waitReady_access s waitTimeout
  have h4 := State.le_waitReady_access ((s.waitReady waitTimeout).2.startRead a addr) waitTimeout
  have h5 : waitTimeout = 4096 := rfl
  simp only [State.startRead_regAccessCount] at h2 h4
  simp only [readByteBody, State.setFsm_regAccessCount, State.writeData_regAccessCount,
    State.readData_regAccessCount, State.readValue_regAccessCount]
  omega

/-- Whether a byte is readable depends on KEYDIS and the locks alone (R68). -/
theorem State.readable_congr {s t : State} (hk : t.keyAccessDisabled = s.keyAccessDisabled)
    (hl : t.locks = s.locks) (a : StorageArray) (n : Nat) : t.readable a n = s.readable a n := by
  simp [State.readable, State.locked, State.lockByteAt, State.lockRegs, hk, hl]

/-- The byte of a read transaction: the stored one where both polls were Ok and it is readable, else
the next byte draw (R172). -/
theorem State.readValue_fst (s : State) (a : StorageArray) (addr : ByteAddr) (s1 s2 : Status) :
    (s.readValue a addr s1 s2).1 =
      if s1 = .ok ∧ s2 = .ok ∧ s.readable a addr.toNat = true then s.readCell a addr.toNat
      else s.draws.byte.headD (Config.freeByte s.draws.drawn) := by
  unfold State.readValue
  split_ifs <;> rfl

/-- A read that returns Ok delivers the stored byte where it is readable (R172). -/
theorem readByteBody_byte (hc : s.cfg.readCmd ≠ s.cfg.progCmd ∨ s.regs.armed = false)
    (h : (readByteBody a addr s).status = .ok) (hr : s.readable a addr.toNat = true) :
    (readByteBody a addr s).byte = s.readCell a addr.toNat := by
  have hw := State.startRead_arrays (s.waitReady waitTimeout).2 a addr (by simpa using hc)
  have hs : (s.waitReady waitTimeout).1 = .ok ∧
      (((s.waitReady waitTimeout).2.startRead a addr).waitReady waitTimeout).1 = .ok := by
    simp only [readByteBody] at h
    rcases State.waitReady_status s waitTimeout with h1 | h1 <;>
    rcases State.waitReady_status ((s.waitReady waitTimeout).2.startRead a addr) waitTimeout
      with h2 | h2 <;> rw [h1, h2] at h <;> simp_all [Status.worst, Status.severity]
  simp only [readByteBody, State.readValue_fst]
  rw [if_pos ⟨hs.1, hs.2, by
    rw [State.readable_congr (s := s) (by simp) (by simp)]
    exact hr⟩]
  exact State.readCell_congr (by simp) (by simpa using hw.1) (by simpa using hw.2) a _

/-- A read transaction with two listed ready polls: Ok, nine register accesses (R172). -/
theorem readByteBody_ready {rs : List Bool} (h : s.draws.ready = true :: true :: rs) :
    (readByteBody a addr s).status = .ok ∧
    (readByteBody a addr s).state.draws.ready = rs ∧
    (readByteBody a addr s).state.regAccessCount = s.regAccessCount + 9 := by
  have h1 := State.waitReady_ready h (n := waitTimeout) (by decide)
  have h2 := State.waitReady_ready (s := (s.waitReady waitTimeout).2.startRead a addr) (rs := rs)
    (by rw [State.startRead_draws_ready]; exact h1.2.1) (n := waitTimeout) (by decide)
  refine ⟨?_, ?_, ?_⟩
  · simp only [readByteBody]
    rw [h1.1, h2.1]
    rfl
  · simpa [readByteBody] using h2.2.1
  · simp only [readByteBody, State.setFsm_regAccessCount, State.writeData_regAccessCount,
      State.readData_regAccessCount, State.readValue_regAccessCount, h2.2.2.2,
      State.startRead_regAccessCount, h1.2.2.2]

/-- The byte of a read transaction with two listed ready polls: the stored one where it is readable,
the drawn one where it is not (R68, R172). -/
theorem readByteBody_ready_byte {rs : List Bool} (h : s.draws.ready = true :: true :: rs)
    (hc : s.cfg.readCmd ≠ s.cfg.progCmd ∨ s.regs.armed = false) :
    (readByteBody a addr s).byte =
      if s.readable a addr.toNat = true then s.readCell a addr.toNat
      else s.draws.byte.headD (Config.freeByte (s.draws.drawn + 2)) := by
  have h1 := State.waitReady_ready h (n := waitTimeout) (by decide)
  have hw := State.startRead_arrays (s.waitReady waitTimeout).2 a addr (by simpa using hc)
  have hd := State.startRead_draws (s.waitReady waitTimeout).2 a addr (by simpa using hc)
  have h2 := State.waitReady_ready (s := (s.waitReady waitTimeout).2.startRead a addr) (rs := rs)
    (by rw [State.startRead_draws_ready]; exact h1.2.1) (n := waitTimeout) (by decide)
  simp only [readByteBody, State.readValue_fst, h1.1, h2.1, true_and]
  rw [State.readable_congr (s := s) (by simp) (by simp),
    State.readCell_congr (s := s) (by simp) (by simpa using hw.1) (by simpa using hw.2)]
  simp only [State.waitReady_drawsByte, h2.2.2.1, hd, h1.2.2.1]

end ReadByte

end Sys2Proof.Machine
end

