-- ==== Sys2Proof/Laws/Program.lean ====
section
/-! SUPPORT. What the program side of the OTP state machine does (spec/43_otp_fsm.md R175 to R184), for every
sequence of draws: the registers it leaves, the fuses it can change, its counts of accesses and pulses. -/

namespace Sys2Proof.Machine

/-- The address fields hold a program transaction's target. -/
structure State.Pointed (s : State) (a : StorageArray) (addr : ByteAddr) (bit : BitPos) : Prop where
  arr : s.regs.arr = a
  byteAddr : s.regs.byteAddr = addr
  bitPos : s.regs.bitPos = bit

/-- No cell has changed but perhaps one, and that one has gained at most one bit. -/
def BitFrame (a : StorageArray) (addr : ByteAddr) (bit : BitPos) (s t : State) : Prop :=
  ∀ a' n, t.readCell a' n = s.readCell a' n ∨
    (a' = a ∧ n = addr.toNat ∧ t.readCell a' n = s.readCell a' n ||| bitMask bit.toNat)

theorem BitFrame.of_arrays {a : StorageArray} {addr : ByteAddr} {bit : BitPos} {s t : State}
    (hc : t.cfg = s.cfg) (hk : t.key = s.key) (hf : t.fuse = s.fuse) : BitFrame a addr bit s t :=
  fun a' n => .inl (State.readCell_congr hc hk hf a' n)

theorem BitFrame.trans {a : StorageArray} {addr : ByteAddr} {bit : BitPos} {s t u : State}
    (h1 : BitFrame a addr bit s t) (h2 : BitFrame a addr bit t u) : BitFrame a addr bit s u := by
  intro a' n
  rcases h1 a' n with e1 | ⟨ha, hn, e1⟩ <;> rcases h2 a' n with e2 | ⟨ha', hn', e2⟩
  · exact .inl (e2.trans e1)
  · exact .inr ⟨ha', hn', by rw [e2, e1]⟩
  · exact .inr ⟨ha, hn, by rw [e2, e1]⟩
  · exact .inr ⟨ha, hn, by rw [e2, e1, BitVec.or_assoc, BitVec.or_self]⟩

/-! ### One pulse with its poll (R180, R182) -/

section PulseOnce

variable (s : State)

theorem State.pulseOnce_regs :
    s.pulseOnce.regs =
      { s.regs with ack := false, armed := s.pulseWord == s.cfg.armValue } := by
  simp [State.pulseOnce, State.pulseWord]

@[simp] theorem State.pulseOnce_cfg : s.pulseOnce.cfg = s.cfg := (OtpFrame.pulseOnce s).cfg

@[simp] theorem State.pulseOnce_magic : s.pulseOnce.magic = s.magic := (OtpFrame.pulseOnce s).magic

@[simp] theorem State.pulseOnce_pulseWord : s.pulseOnce.pulseWord = s.pulseWord := by
  simp [State.pulseWord]

theorem State.Pointed.pulseOnce {s : State} {a : StorageArray} {addr : ByteAddr} {bit : BitPos}
    (h : s.Pointed a addr bit) : s.pulseOnce.Pointed a addr bit :=
  ⟨by rw [State.pulseOnce_regs]; exact h.arr, by rw [State.pulseOnce_regs]; exact h.byteAddr,
    by rw [State.pulseOnce_regs]; exact h.bitPos⟩

/-- The FSM states a pulse passes through (R48). -/
theorem State.pulseOnce_fsm :
    ∃ f, (f = .idle ∨ f = .hardwareError) ∧ s.pulseOnce.fsm = f ∧
      s.pulseOnce.fsmTrace = f :: .pollingReady :: .programPulse :: s.fsmTrace := by
  refine ⟨_, ?_, rfl, ?_⟩
  · simp only [State.pulseOnce, State.setFsm_fsm, Fsm.ofStatus]
    split_ifs <;> simp
  · simp [State.pulseOnce]

/-- A pulse with its poll makes four register accesses at least, and a full wait and two at most. -/
theorem State.pulseOnce_access :
    s.regAccessCount + 4 ≤ s.pulseOnce.regAccessCount ∧
    s.pulseOnce.regAccessCount ≤ s.regAccessCount + 4099 := by
  have h1 := State.waitReady_access_le (((s.setFsm .programPulse).issuePulse).setFsm .pollingReady)
    waitTimeout
  have h2 := State.le_waitReady_access (((s.setFsm .programPulse).issuePulse).setFsm .pollingReady)
    waitTimeout
  have h3 : waitTimeout = 4096 := rfl
  simp only [State.setFsm_regAccessCount, State.issuePulse_regAccessCount] at h1 h2
  simp only [State.pulseOnce, State.setFsm_regAccessCount]
  omega

/-- A pulse whose word is not ARM_VALUE is one pulse-command write (R175). -/
theorem State.pulseOnce_pulseCount (h : s.pulseWord ≠ s.cfg.armValue) :
    s.pulseOnce.pulseCount = s.pulseCount + 1 := by
  have := State.issuePulse_pulseCount (s.setFsm .programPulse) (by simpa [State.pulseWord] using h)
  simpa [State.pulseOnce] using this

/-- A pulse warns exactly where the magic word is there and wrong (R175). -/
theorem State.pulseOnce_warnLog :
    s.pulseOnce.warnLog =
      bif s.mismatch then s.warnLog ++ [.magicMismatch] else s.warnLog := by
  have := State.issuePulse_warnLog (s.setFsm .programPulse)
  simpa [State.pulseOnce, State.mismatch] using this

/-- What a pulse can do to the arrays. -/
theorem BitFrame.pulseOnce {s : State} {a : StorageArray} {addr : ByteAddr} {bit : BitPos}
    (h : s.Pointed a addr bit) : BitFrame a addr bit s s.pulseOnce := by
  intro a' n
  have e : s.pulseOnce.readCell a' n = (s.setFsm .programPulse).issuePulse.readCell a' n :=
    State.readCell_congr (by simp) (by simp [State.pulseOnce]) (by simp [State.pulseOnce]) a' n
  have e0 : (s.setFsm .programPulse).readCell a' n = s.readCell a' n :=
    State.readCell_congr rfl rfl rfl a' n
  have := State.issuePulse_readCell (s.setFsm .programPulse) a' n
  rw [e0, ← e] at this
  rcases this with h' | ⟨h1, h2, h3⟩
  · exact .inl h'
  · refine .inr ⟨by rw [h1]; exact h.arr, by rw [h2]; exact congrArg _ h.byteAddr, ?_⟩
    rw [h3]
    exact congrArg (fun b : BitPos => s.readCell a' n ||| bitMask b.toNat) h.bitPos

/-- A pulse with another word than PROG_CMD changes no array (R263). -/
theorem State.pulseOnce_wrong (h : s.pulseWord ≠ s.cfg.progCmd) :
    s.pulseOnce.key = s.key ∧ s.pulseOnce.fuse = s.fuse := by
  have := State.issuePulse_wrong (s.setFsm .programPulse) (by simpa [State.pulseWord] using h)
  simpa [State.pulseOnce] using this

end PulseOnce

/-! ### Reads inside a program transaction -/

theorem State.Pointed.readByteBody {s : State} {a : StorageArray} {addr : ByteAddr} {bit : BitPos}
    (h : s.Pointed a addr bit) : (readByteBody a addr s).state.Pointed a addr bit :=
  ⟨by simp, by simp, by simpa using h.bitPos⟩

theorem BitFrame.readByteBody {s : State} {a a' : StorageArray} {addr addr' : ByteAddr} {bit : BitPos}
    (h : s.cfg.readCmd ≠ s.cfg.progCmd) :
    BitFrame a addr bit s (readByteBody a' addr' s).state :=
  .of_arrays (by simp) (readByteBody_arrays a' addr' s (.inl h)).1
    (readByteBody_arrays a' addr' s (.inl h)).2

/-! ### The smart algorithm (R180) -/

section Smart

variable (a : StorageArray) (addr : ByteAddr) (bit : BitPos) (s : State)

/-- The state in which the smart algorithm verifies. -/
def State.smartPulsed : State :=
  (((s.startProgram a addr bit).writeSmart true).pulseOnce).writeSmart false

theorem programBitSmart_eq :
    programBitSmart a addr bit s =
      (Status.ofSuccess ((readByteBody a addr (s.smartPulsed a addr bit)).byte.getLsbD bit.toNat),
        (readByteBody a addr (s.smartPulsed a addr bit)).state.setFsm (Fsm.ofStatus (Status.ofSuccess
          ((readByteBody a addr (s.smartPulsed a addr bit)).byte.getLsbD bit.toNat)))) := by
  simp only [programBitSmart, bitIsProgrammedBody, State.smartPulsed]

theorem State.startProgram_pointed : (s.startProgram a addr bit).Pointed a addr bit :=
  ⟨by simp [State.startProgram], by simp [State.startProgram], by simp [State.startProgram]⟩

theorem State.smartPulsed_pointed : (s.smartPulsed a addr bit).Pointed a addr bit := by
  have h := State.startProgram_pointed a addr bit s
  have h' : ((s.startProgram a addr bit).writeSmart true).Pointed a addr bit :=
    ⟨h.arr, h.byteAddr, h.bitPos⟩
  have := h'.pulseOnce
  exact ⟨by simpa [State.smartPulsed] using this.arr, by simpa [State.smartPulsed] using this.byteAddr,
    by simpa [State.smartPulsed] using this.bitPos⟩

@[simp] theorem State.smartPulsed_cfg : (s.smartPulsed a addr bit).cfg = s.cfg := by
  simp [State.smartPulsed, State.startProgram]

theorem State.smartPulsed_regs :
    (s.smartPulsed a addr bit).regs =
      { s.regs with
        ack := false, arr := a, byteAddr := addr, bitPos := bit, smart := false
        armed := s.pulseWord == s.cfg.armValue } := by
  simp [State.smartPulsed, State.pulseOnce_regs, State.startProgram, State.pulseWord]

theorem State.smartPulsed_pulseCount (h : s.pulseWord ≠ s.cfg.armValue) :
    (s.smartPulsed a addr bit).pulseCount = s.pulseCount + 1 := by
  have := State.pulseOnce_pulseCount ((s.startProgram a addr bit).writeSmart true)
    (by simpa [State.pulseWord, State.startProgram] using h)
  simpa [State.smartPulsed, State.startProgram] using this

theorem State.smartPulsed_access :
    s.regAccessCount + 9 ≤ (s.smartPulsed a addr bit).regAccessCount ∧
    (s.smartPulsed a addr bit).regAccessCount ≤ s.regAccessCount + 4104 := by
  have := State.pulseOnce_access ((s.startProgram a addr bit).writeSmart true)
  simp only [State.startProgram, State.writeSmart_regAccessCount, State.writeBitPos_regAccessCount,
    State.writeByteAddr_regAccessCount, State.writeArr_regAccessCount,
    State.setFsm_regAccessCount] at this
  simp only [State.smartPulsed, State.startProgram, State.writeSmart_regAccessCount]
  omega

theorem BitFrame.smartPulsed : BitFrame a addr bit s (s.smartPulsed a addr bit) := by
  have h := State.startProgram_pointed a addr bit s
  have h' : ((s.startProgram a addr bit).writeSmart true).Pointed a addr bit :=
    ⟨h.arr, h.byteAddr, h.bitPos⟩
  have h1 : BitFrame a addr bit s ((s.startProgram a addr bit).writeSmart true) :=
    .of_arrays (by simp [State.startProgram]) (by simp [State.startProgram])
      (by simp [State.startProgram])
  have h2 : BitFrame a addr bit ((s.startProgram a addr bit).writeSmart true).pulseOnce
      (s.smartPulsed a addr bit) :=
    .of_arrays (by simp [State.smartPulsed]) (by simp [State.smartPulsed]) (by simp [State.smartPulsed])
  exact (h1.trans (BitFrame.pulseOnce h')).trans h2

/-- The registers the smart algorithm leaves (R180). -/
theorem programBitSmart_regs :
    (programBitSmart a addr bit s).2.regs =
      { s.regs with
        ack := false, arr := a, byteAddr := addr, bitPos := bit, data := 0x01, smart := false
        armed := s.cfg.readCmd == s.cfg.armValue } := by
  rw [programBitSmart_eq]
  simp only [State.setFsm_regs, readByteBody_regs, State.smartPulsed_regs, State.smartPulsed_cfg]

end Smart

/-! ### The legacy algorithm (R182) -/

section Legacy

variable (a : StorageArray) (addr : ByteAddr) (bit : BitPos)

theorem legacyLoop_status (s : State) (k left : Nat) :
    (legacyLoop a addr bit s k left).1 = .ok ∨ (legacyLoop a addr bit s k left).1 = .hardwareError := by
  induction left generalizing s k with
  | zero => exact .inr rfl
  | succ left ih =>
    simp only [legacyLoop]
    split_ifs
    · exact .inl rfl
    · exact ih _ _
    · exact ih _ _

/-- What the pulse loop leaves in the registers it does not always write. -/
theorem legacyLoop_regs_keep (s : State) (k left : Nat) (h : s.Pointed a addr bit) :
    (legacyLoop a addr bit s k left).2.Pointed a addr bit ∧
    (legacyLoop a addr bit s k left).2.regs.inProg = s.regs.inProg ∧
    (legacyLoop a addr bit s k left).2.regs.smart = s.regs.smart := by
  induction left generalizing s k with
  | zero => exact ⟨h, rfl, rfl⟩
  | succ left ih =>
    have hr : ((bitIsProgrammedBody a addr bit s.pulseOnce).2).Pointed a addr bit :=
      h.pulseOnce.readByteBody
    have hi : (bitIsProgrammedBody a addr bit s.pulseOnce).2.regs.inProg = s.regs.inProg ∧
        (bitIsProgrammedBody a addr bit s.pulseOnce).2.regs.smart = s.regs.smart := by
      simp [bitIsProgrammedBody, State.pulseOnce_regs]
    have hp : s.pulseOnce.regs.inProg = s.regs.inProg ∧ s.pulseOnce.regs.smart = s.regs.smart := by
      simp [State.pulseOnce_regs]
    simp only [legacyLoop]
    split_ifs
    · exact ⟨hr, hi⟩
    · obtain ⟨h1, h2, h3⟩ := ih _ (k + 1) hr
      exact ⟨h1, h2.trans hi.1, h3.trans hi.2⟩
    · obtain ⟨h1, h2, h3⟩ := ih _ (k + 1) h.pulseOnce
      exact ⟨h1, h2.trans hp.1, h3.trans hp.2⟩

/-- The pulse loop ends with a read, and so with a cleared acknowledgment and, READ_CMD not being
ARM_VALUE, a disarmed command register. -/
theorem legacyLoop_regs_end (s : State) (k left : Nat) (hl : minPulses < k + left)
    (h0 : left ≠ 0) :
    (legacyLoop a addr bit s k left).2.regs.ack = false ∧
    (legacyLoop a addr bit s k left).2.regs.armed = (s.cfg.readCmd == s.cfg.armValue) := by
  induction left generalizing s k with
  | zero => exact absurd rfl h0
  | succ left ih =>
    simp only [legacyLoop]
    split_ifs with hk hv
    · simp [bitIsProgrammedBody]
    · rcases Nat.eq_zero_or_pos left with rfl | hp
      · simp [legacyLoop, bitIsProgrammedBody]
      · have := ih (bitIsProgrammedBody a addr bit s.pulseOnce).2 (k + 1) (by omega) (by omega)
        simpa [bitIsProgrammedBody] using this
    · have := ih s.pulseOnce (k + 1) (by omega) (by omega)
      simpa using this

theorem BitFrame.legacyLoop (s : State) (k left : Nat) (h : s.Pointed a addr bit)
    (hc : s.cfg.readCmd ≠ s.cfg.progCmd) :
    BitFrame a addr bit s (Machine.legacyLoop a addr bit s k left).2 := by
  induction left generalizing s k with
  | zero => exact .of_arrays rfl rfl rfl
  | succ left ih =>
    have hr : ((bitIsProgrammedBody a addr bit s.pulseOnce).2).Pointed a addr bit :=
      h.pulseOnce.readByteBody
    have hb : BitFrame a addr bit s (bitIsProgrammedBody a addr bit s.pulseOnce).2 :=
      (BitFrame.pulseOnce h).trans (BitFrame.readByteBody (by simpa using hc))
    simp only [Machine.legacyLoop]
    split_ifs
    · exact hb
    · exact hb.trans (ih _ _ hr (by simpa [bitIsProgrammedBody] using hc))
    · exact (BitFrame.pulseOnce h).trans (ih _ _ h.pulseOnce (by simpa using hc))

/-- The pulses of the loop (R182): the word not being ARM_VALUE, one for each turn; all of them where it
fails; at least one, and as many as lead up to the MIN_PULSES-th, where it succeeds. -/
theorem legacyLoop_pulseCount (s : State) (k left : Nat) (h : s.pulseWord ≠ s.cfg.armValue) :
    (legacyLoop a addr bit s k left).2.pulseCount ≤ s.pulseCount + left ∧
    ((legacyLoop a addr bit s k left).1 ≠ .ok →
      (legacyLoop a addr bit s k left).2.pulseCount = s.pulseCount + left) ∧
    ((legacyLoop a addr bit s k left).1 = .ok →
      s.pulseCount + (minPulses + 1 - k) ≤ (legacyLoop a addr bit s k left).2.pulseCount) := by
  induction left generalizing s k with
  | zero => exact ⟨le_rfl, fun _ => rfl, fun h => by cases h⟩
  | succ left ih =>
    have hp := State.pulseOnce_pulseCount s h
    have ha : s.pulseOnce.regs.armed = false := by simp [State.pulseOnce_regs, h]
    have hr : (bitIsProgrammedBody a addr bit s.pulseOnce).2.pulseCount = s.pulseCount + 1 :=
      (readByteBody_pulseCount a addr _ ha).trans hp
    have hw : (bitIsProgrammedBody a addr bit s.pulseOnce).2.pulseWord = s.pulseWord := by
      simp [bitIsProgrammedBody, State.pulseWord]
    simp only [legacyLoop]
    split_ifs with hk hv
    · exact ⟨by simp only [hr]; omega, fun h => absurd rfl h, fun _ => by simp only [hr]; omega⟩
    · have := ih (bitIsProgrammedBody a addr bit s.pulseOnce).2 (k + 1)
        (by rw [hw]; simpa [bitIsProgrammedBody] using h)
      rw [hr] at this
      refine ⟨by omega, fun h => by rw [this.2.1 h]; omega, fun h => ?_⟩
      have := this.2.2 h
      omega
    · have := ih s.pulseOnce (k + 1) (by simpa using h)
      rw [hp] at this
      refine ⟨by omega, fun h => by rw [this.2.1 h]; omega, fun h => ?_⟩
      have := this.2.2 h
      omega

/-- The register accesses of the loop: a pulse with its poll at each turn, a read transaction at each
turn from the MIN_PULSES-th on. -/
theorem legacyLoop_access_le (s : State) (k left : Nat) :
    (legacyLoop a addr bit s k left).2.regAccessCount ≤
      s.regAccessCount + left * 4099 + (left - (minPulses - k)) * 8199 := by
  induction left generalizing s k with
  | zero => simp [legacyLoop]
  | succ left ih =>
    have hp := (State.pulseOnce_access s).2
    have hr := (readByteBody_access a addr s.pulseOnce).2
    simp only [legacyLoop]
    split_ifs with hk hv
    · simp only [bitIsProgrammedBody]
      have : 1 ≤ left + 1 - (minPulses - k) := by omega
      nlinarith
    · have := ih (bitIsProgrammedBody a addr bit s.pulseOnce).2 (k + 1)
      have e1 : left - (minPulses - (k + 1)) = left := by omega
      have e2 : left + 1 - (minPulses - k) = left + 1 := by omega
      rw [e1] at this
      rw [e2]
      simp only [bitIsProgrammedBody] at this ⊢
      omega
    · have := ih s.pulseOnce (k + 1)
      have e : left + 1 - (minPulses - k) = left - (minPulses - (k + 1)) := by omega
      rw [e]
      omega

/-- The registers the legacy algorithm leaves (R182). -/
theorem programBitLegacy_regs (s : State) :
    (programBitLegacy a addr bit s).2.regs =
      { s.regs with
        ack := false, arr := a, byteAddr := addr, bitPos := bit, data := 0x01, inProg := false
        armed := s.cfg.readCmd == s.cfg.armValue } := by
  have h := State.startProgram_pointed a addr bit s
  have h' : ((s.startProgram a addr bit).writeInProg true).Pointed a addr bit :=
    ⟨h.arr, h.byteAddr, h.bitPos⟩
  have hk := legacyLoop_regs_keep a addr bit _ 1 maxPulses h'
  have he := legacyLoop_regs_end a addr bit ((s.startProgram a addr bit).writeInProg true) 1 maxPulses
    (by decide) (by decide)
  have hf := OtpFrame.legacyLoop a addr bit ((s.startProgram a addr bit).writeInProg true) 1 maxPulses
  simp only [programBitLegacy, State.setFsm_regs, State.writeInProg_regs, State.writeData_regs]
  generalize (legacyLoop a addr bit ((s.startProgram a addr bit).writeInProg true) 1 maxPulses).2 = t
    at *
  ext1 <;> simp [hk.1.arr, hk.1.byteAddr, hk.1.bitPos, he.1, he.2, hk.2.2, hf.clkMhz, hf.keyInd,
    State.startProgram, scrub]

theorem programBitLegacy_status (s : State) :
    (programBitLegacy a addr bit s).1 = .ok ∨ (programBitLegacy a addr bit s).1 = .hardwareError := by
  simp only [programBitLegacy]
  exact legacyLoop_status a addr bit _ 1 maxPulses

theorem BitFrame.programBitLegacy (s : State) (hc : s.cfg.readCmd ≠ s.cfg.progCmd) :
    BitFrame a addr bit s (Machine.programBitLegacy a addr bit s).2 := by
  have h := State.startProgram_pointed a addr bit s
  have h' : ((s.startProgram a addr bit).writeInProg true).Pointed a addr bit :=
    ⟨h.arr, h.byteAddr, h.bitPos⟩
  have h1 : BitFrame a addr bit s ((s.startProgram a addr bit).writeInProg true) :=
    .of_arrays (by simp [State.startProgram]) (by simp [State.startProgram])
      (by simp [State.startProgram])
  have h2 := BitFrame.legacyLoop a addr bit _ 1 maxPulses h'
    (by simpa [State.startProgram] using hc)
  refine (h1.trans h2).trans ?_
  simp only [Machine.programBitLegacy]
  exact .of_arrays (by simp) (by simp) (by simp)

end Legacy

/-! ### The chosen algorithm (R176) -/

section Algo

variable (a : StorageArray) (addr : ByteAddr) (bit : BitPos) (s : State)

theorem programBitAlgo_status :
    (programBitAlgo a addr bit s).1 = .ok ∨ (programBitAlgo a addr bit s).1 = .hardwareError := by
  unfold programBitAlgo
  split
  · rw [programBitSmart_eq]
    dsimp only [Status.ofSuccess]
    split_ifs <;> simp
  · exact programBitLegacy_status a addr bit s

theorem BitFrame.programBitAlgo (hc : s.cfg.readCmd ≠ s.cfg.progCmd) :
    BitFrame a addr bit s (Machine.programBitAlgo a addr bit s).2 := by
  unfold Machine.programBitAlgo
  split
  · rw [programBitSmart_eq]
    refine ((BitFrame.smartPulsed a addr bit s).trans
      (BitFrame.readByteBody (a' := a) (addr' := addr) (by simpa using hc))).trans ?_
    exact .of_arrays (by simp) (by simp) (by simp)
  · exact BitFrame.programBitLegacy a addr bit s hc

/-- The registers a program transaction leaves: INPROG and SMART as its algorithm leaves them, the
others as both do. -/
theorem programBitAlgo_regs :
    (programBitAlgo a addr bit s).2.regs =
      { s.regs with
        ack := false, arr := a, byteAddr := addr, bitPos := bit, data := 0x01
        armed := s.cfg.readCmd == s.cfg.armValue
        smart := (programBitAlgo a addr bit s).2.regs.smart
        inProg := (programBitAlgo a addr bit s).2.regs.inProg } := by
  unfold programBitAlgo
  split
  · rw [programBitSmart_regs]
  · rw [programBitLegacy_regs]

theorem programBitBody_status (vfy : Bool) :
    (programBitBody a addr bit vfy s).1 = .ok ∨ (programBitBody a addr bit vfy s).1 = .hardwareError := by
  unfold programBitBody
  dsimp only
  split_ifs
  · exact .inl rfl
  · exact programBitAlgo_status a addr bit _
  · exact programBitAlgo_status a addr bit _

theorem BitFrame.programBitBody (vfy : Bool) (hc : s.cfg.readCmd ≠ s.cfg.progCmd) :
    BitFrame a addr bit s (Machine.programBitBody a addr bit vfy s).2 := by
  unfold Machine.programBitBody
  dsimp only
  split_ifs
  · exact BitFrame.readByteBody hc
  · exact (BitFrame.readByteBody hc).trans
      (BitFrame.programBitAlgo a addr bit _ (by simpa [bitIsProgrammedBody] using hc))
  · exact BitFrame.programBitAlgo a addr bit s hc

/-- The registers PROGRAM_BIT leaves. -/
theorem programBitBody_regs (vfy : Bool) :
    (programBitBody a addr bit vfy s).2.regs =
      { s.regs with
        ack := false, arr := a, byteAddr := addr, data := 0x01
        armed := s.cfg.readCmd == s.cfg.armValue
        bitPos := (programBitBody a addr bit vfy s).2.regs.bitPos
        smart := (programBitBody a addr bit vfy s).2.regs.smart
        inProg := (programBitBody a addr bit vfy s).2.regs.inProg } := by
  unfold programBitBody
  dsimp only
  split_ifs
  · simp [bitIsProgrammedBody]
  · rw [programBitAlgo_regs]
    simp [bitIsProgrammedBody]
  · rw [programBitAlgo_regs]

/-- Each algorithm leaves its own control bit 0 and the other's alone (R38, R39). -/
theorem programBitAlgo_controls :
    (programBitAlgo a addr bit s).2.regs.bitPos = bit ∧
    (s.cfg.progAlgo = .smart → (programBitAlgo a addr bit s).2.regs.smart = false ∧
      (programBitAlgo a addr bit s).2.regs.inProg = s.regs.inProg) ∧
    (s.cfg.progAlgo = .legacy → (programBitAlgo a addr bit s).2.regs.inProg = false ∧
      (programBitAlgo a addr bit s).2.regs.smart = s.regs.smart) := by
  unfold programBitAlgo
  split <;> rename_i h
  · rw [programBitSmart_regs]
    exact ⟨rfl, fun _ => ⟨rfl, rfl⟩, fun h' => by rw [h] at h'; cases h'⟩
  · rw [programBitLegacy_regs]
    exact ⟨rfl, fun h' => by (rw [h] at h'; cases h'), fun _ => ⟨rfl, rfl⟩⟩

/-- PROGRAM_BIT runs its algorithm, or verify-first ends it with Ok and it changes neither an array
nor the registers of a program transaction (R176). -/
theorem programBitBody_controls (vfy : Bool) (hc : s.cfg.readCmd ≠ s.cfg.progCmd) :
    ((programBitBody a addr bit vfy s).2.regs.bitPos = bit ∧
      (s.cfg.progAlgo = .smart → (programBitBody a addr bit vfy s).2.regs.smart = false ∧
        (programBitBody a addr bit vfy s).2.regs.inProg = s.regs.inProg) ∧
      (s.cfg.progAlgo = .legacy → (programBitBody a addr bit vfy s).2.regs.inProg = false ∧
        (programBitBody a addr bit vfy s).2.regs.smart = s.regs.smart)) ∨
    (vfy = true ∧ (programBitBody a addr bit vfy s).1 = .ok ∧
      (programBitBody a addr bit vfy s).2.regs.bitPos = s.regs.bitPos ∧
      (programBitBody a addr bit vfy s).2.regs.smart = s.regs.smart ∧
      (programBitBody a addr bit vfy s).2.regs.inProg = s.regs.inProg ∧
      (programBitBody a addr bit vfy s).2.key = s.key ∧
      (programBitBody a addr bit vfy s).2.fuse = s.fuse) := by
  have h1 := programBitAlgo_controls a addr bit s
  have h2 := programBitAlgo_controls a addr bit (readByteBody a addr s).state
  rw [readByteBody_cfg, readByteBody_regs] at h2
  unfold programBitBody
  dsimp only [bitIsProgrammedBody]
  split_ifs with hv hb
  · have hr := readByteBody_arrays a addr s (.inl hc)
    exact .inr ⟨hv, rfl, by simp, by simp, by simp, hr.1, hr.2⟩
  · exact .inl h2
  · exact .inl h1

/-- The accesses of a smart program transaction (R180). -/
theorem programBitSmart_access_le :
    (programBitSmart a addr bit s).2.regAccessCount ≤ s.regAccessCount + 12303 := by
  have h1 := (State.smartPulsed_access a addr bit s).2
  have h2 := (readByteBody_access a addr (s.smartPulsed a addr bit)).2
  rw [programBitSmart_eq]
  simp only [State.setFsm_regAccessCount]
  omega

/-- The accesses of a legacy program transaction (R182). -/
theorem programBitLegacy_access_le :
    (programBitLegacy a addr bit s).2.regAccessCount ≤ s.regAccessCount + 221369 := by
  have h := legacyLoop_access_le a addr bit ((s.startProgram a addr bit).writeInProg true) 1 maxPulses
  have e : maxPulses * 4099 + (maxPulses - (minPulses - 1)) * 8199 = 221363 := by norm_num [maxPulses, minPulses]
  simp only [State.startProgram, State.writeInProg_regAccessCount, State.writeBitPos_regAccessCount,
    State.writeByteAddr_regAccessCount, State.writeArr_regAccessCount,
    State.setFsm_regAccessCount] at h
  simp only [programBitLegacy, State.setFsm_regAccessCount, State.writeInProg_regAccessCount,
    State.writeData_regAccessCount, State.startProgram]
  rw [Nat.add_assoc, e] at h
  generalize (legacyLoop a addr bit _ 1 maxPulses).2.regAccessCount = x at *
  omega

theorem programBitAlgo_access_le :
    (programBitAlgo a addr bit s).2.regAccessCount ≤ s.regAccessCount + 221369 ∧
    (s.cfg.progAlgo = .smart →
      (programBitAlgo a addr bit s).2.regAccessCount ≤ s.regAccessCount + 12303) := by
  have h1 := programBitSmart_access_le a addr bit s
  have h2 := programBitLegacy_access_le a addr bit s
  cases h : s.cfg.progAlgo
  · have e : programBitAlgo a addr bit s = programBitSmart a addr bit s := by
      simp only [programBitAlgo, h]
    rw [e]
    exact ⟨by omega, fun _ => h1⟩
  · have e : programBitAlgo a addr bit s = programBitLegacy a addr bit s := by
      simp only [programBitAlgo, h]
    rw [e]
    exact ⟨h2, fun h => by cases h⟩

end Algo

/-! ### The loop of PROGRAM_BYTE (R184) -/

section Bits

variable (a : StorageArray) (addr : ByteAddr) (tp : Byte)

theorem programBits_status (bs : List BitPos) (st : Status) (s : State)
    (h : st = .ok ∨ st = .hardwareError) :
    (programBits a addr tp bs st s).1 = .ok ∨ (programBits a addr tp bs st s).1 = .hardwareError := by
  induction bs generalizing st s with
  | nil => exact h
  | cons b bs ih =>
    simp only [programBits]
    split_ifs
    · refine ih _ _ ?_
      rcases h with rfl | rfl <;>
      rcases programBitBody_status a addr b s false with h2 | h2 <;> rw [h2] <;>
        simp [Status.worst, Status.severity]
    · exact ih _ _ h

/-- The loop changes no other byte, and gives its own byte only bits of `tp`. -/
theorem programBits_cells (bs : List BitPos) (st : Status) (s : State)
    (hc : s.cfg.readCmd ≠ s.cfg.progCmd) :
    (∀ a' n, a' ≠ a ∨ n ≠ addr.toNat →
      (programBits a addr tp bs st s).2.readCell a' n = s.readCell a' n) ∧
    bitsWithin ((programBits a addr tp bs st s).2.readCell a addr.toNat)
      (s.readCell a addr.toNat ||| tp) := by
  induction bs generalizing st s with
  | nil =>
    refine ⟨fun _ _ _ => rfl, ?_⟩
    show _ ||| (_ ||| _) = _ ||| _
    rw [← BitVec.or_assoc]
    simp [programBits]
  | cons b bs ih =>
    simp only [programBits]
    split_ifs with hb
    · have hf := BitFrame.programBitBody a addr b s false hc
      have hcfg := (OtpFrame.programBitBody a addr b false s).cfg
      obtain ⟨i1, i2⟩ := ih (Status.worst st (programBitBody a addr b false s).1)
        (programBitBody a addr b false s).2 (by rw [hcfg]; exact hc)
      constructor
      · intro a' n h
        rw [i1 a' n h]
        rcases hf a' n with e | ⟨e1, e2, -⟩
        · exact e
        · rcases h with h | h
          · exact absurd e1 h
          · exact absurd e2 h
      · have hm : bitsWithin (bitMask b.toNat) tp := by
          revert hb
          show _ → _ ||| _ = _
          generalize b = c
          intro hb
          apply BitVec.eq_of_getLsbD_eq
          intro i hi
          simp only [BitVec.getLsbD_or, bitMask, BitVec.getLsbD_shiftLeft, BitVec.getLsbD_one]
          by_cases he : i = c.toNat
          · subst he
            simp [hb]
          · have : (decide (i < 8) && !decide (i < c.toNat) && (decide (0 < 8) &&
                decide (i - c.toNat = 0))) = false := by
              simp
              omega
            simp_all
        refine bitsWithin_trans i2 ?_
        show (_ ||| _) ||| (_ ||| _) = _ ||| _
        rcases hf a addr.toNat with e | ⟨-, -, e⟩
        · rw [e, BitVec.or_self]
        · have hm' : bitMask b.toNat ||| tp = tp := hm
          rw [e, BitVec.or_assoc (s.readCell a addr.toNat), hm', BitVec.or_self]
    · exact ih st s hc

/-- The loop keeps what every transaction of its byte leaves the same way. -/
theorem programBits_regs (bs : List BitPos) (st : Status) (s : State)
    (h : s.regs.ack = false ∧ s.regs.arr = a ∧ s.regs.byteAddr = addr ∧ s.regs.data = 0x01 ∧
      s.regs.armed = (s.cfg.readCmd == s.cfg.armValue)) :
    let t := (programBits a addr tp bs st s).2
    t.regs.ack = false ∧ t.regs.arr = a ∧ t.regs.byteAddr = addr ∧ t.regs.data = 0x01 ∧
      t.regs.armed = (s.cfg.readCmd == s.cfg.armValue) := by
  induction bs generalizing st s with
  | nil => exact h
  | cons b bs ih =>
    simp only [programBits]
    split_ifs
    · have hcfg := (OtpFrame.programBitBody a addr b false s).cfg
      have := ih (Status.worst st (programBitBody a addr b false s).1)
        (programBitBody a addr b false s).2
        (by rw [programBitBody_regs, hcfg]; simp)
      rw [hcfg] at this
      exact this
    · exact ih st s h

/-- The loop programs nothing and leaves the state as it is, or leaves the control bits as its
algorithm does. -/
theorem programBits_controls (bs : List BitPos) (st : Status) (s : State) :
    (programBits a addr tp bs st s).2 = s ∨
    ((s.cfg.progAlgo = .smart → (programBits a addr tp bs st s).2.regs.smart = false ∧
        (programBits a addr tp bs st s).2.regs.inProg = s.regs.inProg) ∧
      (s.cfg.progAlgo = .legacy → (programBits a addr tp bs st s).2.regs.inProg = false ∧
        (programBits a addr tp bs st s).2.regs.smart = s.regs.smart)) := by
  induction bs generalizing st s with
  | nil => exact .inl rfl
  | cons b bs ih =>
    simp only [programBits]
    split_ifs
    · have e : programBitBody a addr b false s = programBitAlgo a addr b s := by
        simp only [programBitBody, Bool.false_eq_true, if_false]
      have h1 := (programBitAlgo_controls a addr b s).2
      rw [← e] at h1
      have h2 := ih (Status.worst st (programBitBody a addr b false s).1)
        (programBitBody a addr b false s).2
      rw [(OtpFrame.programBitBody a addr b false s).cfg] at h2
      rcases h2 with h2 | h2
      · rw [h2]
        exact .inr h1
      · exact .inr ⟨fun h => ⟨(h2.1 h).1, (h2.1 h).2.trans (h1.1 h).2⟩,
          fun h => ⟨(h2.2 h).1, (h2.2 h).2.trans (h1.2 h).2⟩⟩
    · exact ih st s

theorem programBits_access_le (bs : List BitPos) (st : Status) (s : State) :
    (programBits a addr tp bs st s).2.regAccessCount ≤ s.regAccessCount + bs.length * 221369 := by
  induction bs generalizing st s with
  | nil => simp [programBits]
  | cons b bs ih =>
    simp only [programBits, List.length_cons]
    split_ifs
    · have h1 := ih (Status.worst st (programBitBody a addr b false s).1)
        (programBitBody a addr b false s).2
      have h2 : (programBitBody a addr b false s).2.regAccessCount ≤ s.regAccessCount + 221369 := by
        have := (programBitAlgo_access_le a addr b s).1
        simpa only [programBitBody, Bool.false_eq_true, if_false] using this
      refine h1.trans ?_
      rw [Nat.add_mul, Nat.one_mul]
      exact (Nat.add_le_add_right h2 _).trans (by rw [Nat.add_assoc, Nat.add_comm (221369 : Nat)])
    · exact (ih st s).trans (by rw [Nat.add_mul, ← Nat.add_assoc]; exact Nat.le_add_right _ _)

end Bits

/-! ### PROGRAM_BYTE (R184) -/

section Byte

variable (a : StorageArray) (addr : ByteAddr) (val : Byte) (s : State)

theorem programByteBody_status :
    (programByteBody a addr val s).1 = .ok ∨ (programByteBody a addr val s).1 = .hardwareError := by
  simp only [programByteBody]
  exact programBits_status a addr _ _ _ _ (readByteBody_status a addr s)

/-- PROGRAM_BYTE changes no other byte, and gives its own only bits of the value. -/
theorem programByteBody_cells (hc : s.cfg.readCmd ≠ s.cfg.progCmd) :
    (∀ a' n, a' ≠ a ∨ n ≠ addr.toNat →
      (programByteBody a addr val s).2.readCell a' n = s.readCell a' n) ∧
    bitsWithin ((programByteBody a addr val s).2.readCell a addr.toNat)
      (s.readCell a addr.toNat ||| val) := by
  have hr := readByteBody_arrays a addr s (.inl hc)
  have hu : ∀ a' n, (readByteBody a addr s).state.readCell a' n = s.readCell a' n :=
    fun a' n => State.readCell_congr (by simp) hr.1 hr.2 a' n
  obtain ⟨h1, h2⟩ := programBits_cells a addr (~~~(readByteBody a addr s).byte &&& val) bitPositions
    (readByteBody a addr s).status (readByteBody a addr s).state (by simpa using hc)
  simp only [programByteBody]
  refine ⟨fun a' n h => (h1 a' n h).trans (hu a' n), bitsWithin_trans h2 ?_⟩
  rw [hu]
  show (_ ||| _) ||| (_ ||| _) = _ ||| _
  apply BitVec.eq_of_getLsbD_eq
  intro i hi
  simp only [BitVec.getLsbD_or, BitVec.getLsbD_and]
  cases (s.readCell a addr.toNat).getLsbD i <;> cases val.getLsbD i <;> simp

/-- The registers PROGRAM_BYTE leaves. -/
theorem programByteBody_regs :
    (programByteBody a addr val s).2.regs =
      { s.regs with
        ack := false, arr := a, byteAddr := addr, data := 0x01
        armed := s.cfg.readCmd == s.cfg.armValue
        bitPos := (programByteBody a addr val s).2.regs.bitPos
        smart := (programByteBody a addr val s).2.regs.smart
        inProg := (programByteBody a addr val s).2.regs.inProg } := by
  have hf := OtpFrame.programByteBody a addr val s
  have h := programBits_regs a addr (~~~(readByteBody a addr s).byte &&& val) bitPositions
    (readByteBody a addr s).status (readByteBody a addr s).state (by simp)
  simp only [readByteBody_cfg] at h
  have hk : (programByteBody a addr val s).2 = (programBits a addr (~~~(readByteBody a addr s).byte &&& val)
    bitPositions (readByteBody a addr s).status (readByteBody a addr s).state).2 := by
    simp only [programByteBody]
  rw [← hk] at h
  obtain ⟨h1, h2, h3, h4, h5⟩ := h
  generalize (programByteBody a addr val s).2 = t at *
  ext1 <;> simp [h1, h2, h3, h4, h5, hf.clkMhz, hf.keyInd]

theorem programByteBody_access_le :
    (programByteBody a addr val s).2.regAccessCount ≤ s.regAccessCount + 1779151 := by
  have h1 := (readByteBody_access a addr s).2
  have h2 := programBits_access_le a addr (~~~(readByteBody a addr s).byte &&& val) bitPositions
    (readByteBody a addr s).status (readByteBody a addr s).state
  have e : bitPositions.length = 8 := rfl
  rw [e] at h2
  simp only [programByteBody]
  omega

end Byte

end Sys2Proof.Machine
end

