-- ==== Sys2Proof/Laws/Fsm.lean ====
section
/-! SUPPORT. The state machine only makes the transitions of spec/10_state.md R48, and every transaction ends at
rest (R47). -/

namespace Sys2Proof.Machine

/-- The trace ends in the present state and is legal (R48). -/
def State.TraceOk (s : State) : Prop :=
  s.fsmTrace.head? = some s.fsm ∧ traceLegal s.fsmTrace = true

theorem State.fsmInv_iff (s : State) :
    s.FsmInv ↔ (s.fsm = .idle ∨ s.fsm = .hardwareError) ∧ s.TraceOk := Iff.rfl

/-- Whether the FSM is at rest depends on its state and trace alone. -/
theorem State.FsmInv.congr {s t : State} (h : s.FsmInv) (h1 : t.fsm = s.fsm)
    (h2 : t.fsmTrace = s.fsmTrace) : t.FsmInv := by
  unfold State.FsmInv at *
  rw [h1, h2]
  exact h

theorem State.TraceOk.congr {s t : State} (h : s.TraceOk) (h1 : t.fsm = s.fsm)
    (h2 : t.fsmTrace = s.fsmTrace) : t.TraceOk := by
  unfold State.TraceOk at *
  rw [h1, h2]
  exact h

/-- A legal transition keeps the trace legal. -/
theorem State.TraceOk.setFsm {s : State} (h : s.TraceOk) {f : Fsm} (he : Fsm.edge s.fsm f = true) :
    (s.setFsm f).TraceOk := by
  obtain ⟨h1, h2⟩ := h
  refine ⟨by simp, ?_⟩
  rw [State.setFsm_fsmTrace]
  cases ht : s.fsmTrace with
  | nil => rw [ht] at h1; cases h1
  | cons g t =>
    rw [ht] at h1 h2
    obtain rfl : g = s.fsm := by simpa using h1
    simp only [traceLegal, he, Bool.true_and]
    exact h2

theorem Fsm.edge_ofStatus (st : Status) : Fsm.edge .pollingReady (Fsm.ofStatus st) = true := by
  unfold Fsm.ofStatus
  split_ifs <;> rfl

theorem Fsm.ofStatus_rest (st : Status) :
    Fsm.ofStatus st = .idle ∨ Fsm.ofStatus st = .hardwareError := by
  unfold Fsm.ofStatus
  split_ifs <;> simp

theorem Fsm.edge_rest {f : Fsm} (h : f = .idle ∨ f = .hardwareError) (st : Status) :
    Fsm.edge f (Fsm.ofStatus st) = true := by
  rcases h with rfl | rfl <;> rcases Fsm.ofStatus_rest st with h | h <;> rw [h] <;> rfl

/-- A read transaction ends at rest. -/
theorem State.FsmInv.readByteBody {s : State} (h : s.FsmInv) (a : StorageArray) (addr : ByteAddr) :
    (readByteBody a addr s).state.FsmInv := by
  obtain ⟨h1, h2⟩ := (State.fsmInv_iff s).1 h
  refine (State.fsmInv_iff _).2 ⟨by rw [readByteBody_fsm]; exact Fsm.ofStatus_rest _, ?_⟩
  have e1 : (s.setFsm .addressing).TraceOk := h2.setFsm (by rcases h1 with h | h <;> rw [h] <;> rfl)
  have e2 := e1.setFsm (f := .readPulse) rfl
  have e3 := e2.setFsm (f := .pollingReady) rfl
  have e4 := e3.setFsm (Fsm.edge_ofStatus (Machine.readByteBody a addr s).status)
  exact e4.congr (by simp) (by simp)

/-- A pulse with its poll, from a state it may follow, ends at rest. -/
theorem State.TraceOk.pulseOnce {s : State} (h : s.TraceOk)
    (he : Fsm.edge s.fsm .programPulse = true) : s.pulseOnce.FsmInv := by
  obtain ⟨f, hf, h1, h2⟩ := State.pulseOnce_fsm s
  refine (State.fsmInv_iff _).2 ⟨by rw [h1]; exact hf, ?_⟩
  have e3 := (h.setFsm he).setFsm (f := .pollingReady) rfl
  have e4 := e3.setFsm (f := f) (by rcases hf with rfl | rfl <;> rfl)
  exact e4.congr (by rw [h1]; rfl) (by rw [h2]; rfl)

theorem State.FsmInv.pulseOnce {s : State} (h : s.FsmInv) : s.pulseOnce.FsmInv :=
  State.TraceOk.pulseOnce ⟨h.2.1, h.2.2⟩ (by rcases h.1 with h | h <;> rw [h] <;> rfl)

/-- Ending an operation moves the FSM between states of rest only. -/
theorem State.FsmInv.finish {s : State} (h : s.FsmInv) (st : Status) :
    (s.setFsm (Fsm.ofStatus st)).FsmInv := by
  obtain ⟨h1, h2⟩ := (State.fsmInv_iff s).1 h
  exact (State.fsmInv_iff _).2 ⟨Fsm.ofStatus_rest st, h2.setFsm (Fsm.edge_rest h1 st)⟩

theorem State.FsmInv.startProgram {s : State} (h : s.FsmInv) (a : StorageArray) (addr : ByteAddr)
    (bit : BitPos) : (s.startProgram a addr bit).TraceOk ∧
      (s.startProgram a addr bit).fsm = .addressing := by
  obtain ⟨h1, h2⟩ := (State.fsmInv_iff s).1 h
  have e : (s.setFsm .addressing).TraceOk := h2.setFsm (by rcases h1 with h | h <;> rw [h] <;> rfl)
  exact ⟨e.congr (by simp [State.startProgram]) (by simp [State.startProgram]),
    by simp [State.startProgram]⟩

theorem State.FsmInv.programBitSmart {s : State} (h : s.FsmInv) (a : StorageArray) (addr : ByteAddr)
    (bit : BitPos) : (programBitSmart a addr bit s).2.FsmInv := by
  obtain ⟨h1, h2⟩ := h.startProgram a addr bit
  have e1 : ((s.startProgram a addr bit).writeSmart true).pulseOnce.FsmInv :=
    State.TraceOk.pulseOnce (h1.congr (by simp) (by simp)) (by simp [h2, Fsm.edge])
  have e2 : (s.smartPulsed a addr bit).FsmInv :=
    e1.congr (by simp [State.smartPulsed]) (by simp [State.smartPulsed])
  rw [programBitSmart_eq]
  exact (e2.readByteBody a addr).finish _

/-- The pulse loop, from a state a pulse may follow, ends at rest. -/
theorem State.TraceOk.legacyLoop {s : State} (h : s.TraceOk)
    (he : Fsm.edge s.fsm .programPulse = true) (a : StorageArray) (addr : ByteAddr) (bit : BitPos)
    (k left : Nat) (h0 : left ≠ 0 ∨ s.FsmInv) : (legacyLoop a addr bit s k left).2.FsmInv := by
  induction left generalizing s k with
  | zero => exact h0.resolve_left (fun h => h rfl)
  | succ left ih =>
    have e1 := State.TraceOk.pulseOnce h he
    have e2 := e1.readByteBody a addr
    have edge : ∀ {t : State}, t.FsmInv → Fsm.edge t.fsm .programPulse = true := by
      intro t ht
      rcases ht.1 with h | h <;> rw [h] <;> rfl
    simp only [Machine.legacyLoop]
    split_ifs
    · exact e2
    · exact ih ⟨e2.2.1, e2.2.2⟩ (edge e2) (k + 1) (.inr e2)
    · exact ih ⟨e1.2.1, e1.2.2⟩ (edge e1) (k + 1) (.inr e1)

theorem State.FsmInv.programBitLegacy {s : State} (h : s.FsmInv) (a : StorageArray) (addr : ByteAddr)
    (bit : BitPos) : (programBitLegacy a addr bit s).2.FsmInv := by
  obtain ⟨h1, h2⟩ := h.startProgram a addr bit
  have e1 := State.TraceOk.legacyLoop (s := (s.startProgram a addr bit).writeInProg true)
    (h1.congr (by simp) (by simp)) (by simp [h2, Fsm.edge]) a addr bit 1 maxPulses (.inl (by decide))
  simp only [Machine.programBitLegacy]
  exact State.FsmInv.finish (e1.congr (by simp) (by simp)) _

theorem State.FsmInv.programBitAlgo {s : State} (h : s.FsmInv) (a : StorageArray) (addr : ByteAddr)
    (bit : BitPos) : (programBitAlgo a addr bit s).2.FsmInv := by
  unfold Machine.programBitAlgo
  split
  · exact h.programBitSmart a addr bit
  · exact h.programBitLegacy a addr bit

theorem State.FsmInv.programBitBody {s : State} (h : s.FsmInv) (a : StorageArray) (addr : ByteAddr)
    (bit : BitPos) (vfy : Bool) : (programBitBody a addr bit vfy s).2.FsmInv := by
  unfold Machine.programBitBody
  dsimp only
  split_ifs
  · exact h.readByteBody a addr
  · exact (h.readByteBody a addr).programBitAlgo a addr bit
  · exact h.programBitAlgo a addr bit

theorem State.FsmInv.programBits {s : State} (h : s.FsmInv) (a : StorageArray) (addr : ByteAddr)
    (tp : Byte) (bs : List BitPos) (st : Status) : (programBits a addr tp bs st s).2.FsmInv := by
  induction bs generalizing s st with
  | nil => exact h
  | cons b bs ih =>
    simp only [Machine.programBits]
    split_ifs
    · exact ih (h.programBitBody a addr b false) _
    · exact ih h st

theorem State.FsmInv.programByteBody {s : State} (h : s.FsmInv) (a : StorageArray) (addr : ByteAddr)
    (val : Byte) : (programByteBody a addr val s).2.FsmInv := by
  simp only [Machine.programByteBody]
  exact (h.readByteBody a addr).programBits a addr _ _ _

theorem State.FsmInv.readBytes {s : State} (h : s.FsmInv) (a : StorageArray) (addr : Nat) (st : Status)
    (n : Nat) : (readBytes a s addr st n).2.2.FsmInv := by
  induction n generalizing s addr st with
  | zero => exact h
  | succ n ih => exact ih (h.readByteBody a _) _ _

end Sys2Proof.Machine
end

