-- ==== Sys2Proof/Laws/Locks.lean ====
section
/-! SUPPORT. The lock registers (spec/42_access_gate.md R150 to R156): what a write of one leaves in all of
them, and the lock bit by bit. -/

namespace Sys2Proof.Machine

@[simp] theorem lockByte_withLockByte (k k' : LockKind) (l : LockRegs) (v : Byte) :
    lockByte k' (withLockByte k l v) = if k' = k then v else lockByte k' l := by
  cases k <;> cases k' <;> simp [lockByte, withLockByte]

/-- The triples after a write of one register. -/
theorem State.lockRegs_writeLock (s : State) (k : LockKind) (r r' : Nat) (v : Byte) :
    (s.writeLock k r v).lockRegs r' =
      if r' = r ∧ r < s.locks.length then
        withLockByte k (s.lockRegs r) (lockWriteLaw (s.lockByteAt k r) (s.lockRegs r).reg v)
      else s.lockRegs r' := by
  simp only [State.writeLock, State.lockRegs, State.lockByteAt, List.getD_eq_getElem?_getD,
    List.getElem?_set]
  by_cases h : r = r' <;> by_cases hl : r < s.locks.length
  · subst h
    simp [hl]
  · subst h
    simp [hl]
  · simp [h, Ne.symm h]
  · simp [h, Ne.symm h]

/-- A lock register of any kind after a write of one register. -/
theorem State.lockByteAt_writeLock (s : State) (k k' : LockKind) (r r' : Nat) (v : Byte) :
    (s.writeLock k r v).lockByteAt k' r' =
      if k' = k ∧ r' = r ∧ r < s.locks.length then
        lockWriteLaw (s.lockByteAt k r) (s.lockByteAt .reg r) v
      else s.lockByteAt k' r' := by
  unfold State.lockByteAt
  rw [State.lockRegs_writeLock]
  by_cases h : r' = r ∧ r < s.locks.length
  · rw [if_pos h, lockByte_withLockByte]
    by_cases hk : k' = k
    · simp [hk, h, State.lockByteAt, lockByte]
    · simp [hk, h.1]
  · rw [if_neg h, if_neg (fun h' => h h'.2)]

@[simp] theorem State.writeLock_length (s : State) (k : LockKind) (r : Nat) (v : Byte) :
    (s.writeLock k r v).locks.length = s.locks.length := by
  simp [State.writeLock]

/-- The law of R156 at one bit. -/
theorem lockWriteLaw_bit (old rg v : Byte) (j : Nat) (hj : j < 8) :
    (lockWriteLaw old rg v).getLsbD j = if rg.getLsbD j then old.getLsbD j else v.getLsbD j := by
  simp only [lockWriteLaw, BitVec.getLsbD_or, BitVec.getLsbD_and, BitVec.getLsbD_not, hj, decide_true,
    Bool.true_and]
  cases rg.getLsbD j <;> simp

theorem bitMask_bit {i j : Nat} (hj : j < 8) : (bitMask i).getLsbD j = decide (j = i) := by
  simp only [bitMask, BitVec.getLsbD_shiftLeft, BitVec.getLsbD_one, hj, decide_true, Bool.true_and,
    show 0 < 8 from by decide]
  by_cases h : j = i
  · simp [h]
  · simp only [h, decide_false, Bool.and_eq_false_iff, Bool.not_eq_false', decide_eq_true_eq,
      decide_eq_false_iff_not]
    omega

@[simp] theorem State.orLock_length (s : State) (asked : Bool) (k : LockKind) (b : Nat) :
    (s.orLock asked k b).locks.length = s.locks.length := by
  unfold State.orLock
  split_ifs
  · simp [State.readLock]
  · rfl

/-- Any lock bit after one read-modify-write of R153. -/
theorem State.locked_orLock (s : State) (asked : Bool) (k k' : LockKind) (b b' : Nat) :
    (s.orLock asked k b).locked k' b' =
      (s.locked k' b' || (asked && decide (k' = k) && (b' == b) && !s.locked .reg b &&
        decide (blockReg b < s.locks.length))) := by
  unfold State.orLock
  by_cases ha : asked = true
  swap
  · simp [ha]
  rw [if_pos ha]
  simp only [State.readLock, State.locked, State.lockByteAt_writeLock, State.access_locks]
  have e : ∀ k r, s.access.lockByteAt k r = s.lockByteAt k r := fun _ _ => rfl
  simp only [e]
  have hj : blockBit b' < 8 := Nat.mod_lt _ (by decide)
  by_cases h : k' = k ∧ blockReg b' = blockReg b ∧ blockReg b < s.locks.length
  · rw [if_pos h, lockWriteLaw_bit _ _ _ _ hj]
    simp only [BitVec.getLsbD_or, bitMask_bit hj, h.1, h.2.1, ha, Bool.true_and, decide_true]
    have hbb : (decide (blockBit b' = blockBit b)) = (b' == b) := by
      rw [Bool.eq_iff_iff]
      simp only [decide_eq_true_eq, beq_iff_eq]
      have h2 := h.2.1
      unfold blockReg at h2
      unfold blockBit
      omega
    rw [hbb]
    by_cases hbe : b' = b
    · subst hbe
      cases (s.lockByteAt .reg (blockReg b')).getLsbD (blockBit b') <;> simp [h.2.2]
    · simp only [beq_eq_false_iff_ne.2 hbe, Bool.false_and, Bool.or_false]
      split_ifs <;> rfl
  · rw [if_neg h]
    by_cases h1 : k' = k <;> by_cases h2 : b' = b <;> by_cases h3 : blockReg b < s.locks.length <;>
      simp_all

theorem State.orLock_keep (s : State) (asked : Bool) (k : LockKind) (b : Nat) :
    s.orLock asked k b = { s with
      locks := (s.orLock asked k b).locks
      regAccessCount := s.regAccessCount + 2 * asked.toNat } := by
  unfold State.orLock
  cases asked <;> rfl

end Sys2Proof.Machine
end

