-- ==== Sys2Proof/Laws/Step.lean ====
section
/-! SUPPORT. What one operation, and one step, can do to the state as a whole: one lemma for all operations. -/

namespace Sys2Proof.Machine

/-- What every operation that answers a next state keeps, and the direction in which it moves what it may
change. -/
structure ExecFrame (s t : State) : Prop where
  cfg : t.cfg = s.cfg
  faulted : t.faulted = s.faulted
  position : t.position = s.position
  pending : t.pending = s.pending
  access : s.regAccessCount ≤ t.regAccessCount
  pulses : s.pulseCount ≤ t.pulseCount
  warnings : ∃ n, t.warnLog = s.warnLog ++ List.replicate n .magicMismatch
  memInv : s.MemInv → t.MemInv
  fuses : s.fusesKept t
  quiet : t.pulseCount = s.pulseCount → t.key = s.key ∧ t.fuse = s.fuse
  lockLength : t.locks.length = s.locks.length
  locks : s.locksKept t
  regLocked : ∀ b, s.locked .reg b = true → ∀ k, t.locked k b = s.locked k b
  fsm : s.FsmInv → t.FsmInv
  disarmed : s.cfg.DistinctCommands → s.regs.armed = false → t.regs.armed = false
  keydis : s.keyAccessDisabled = true → t.keyAccessDisabled = true
  clkValid : s.clkValid = true → t.clkValid = true

/-- A transaction of the state machine, then what an operation writes of its own. -/
theorem ExecFrame.of_otp {s t u : State} (h : OtpFrame s t) (hf : s.FsmInv → t.FsmInv)
    (hd : s.cfg.DistinctCommands → s.regs.armed = false → t.regs.armed = false)
    (hu : u = { t with response := u.response, magic := u.magic, uploading := u.uploading }) :
    ExecFrame s u := by
  have hl : u.locks = s.locks := by rw [hu]; exact h.locks
  have hlk : ∀ k b, u.locked k b = s.locked k b := by
    intro k b
    simp [State.locked, State.lockByteAt, State.lockRegs, hl]
  exact {
    cfg := by rw [hu]; exact h.cfg
    faulted := by rw [hu]; exact h.faulted
    position := by rw [hu]; exact h.position
    pending := by rw [hu]; exact h.pending
    access := by rw [hu]; exact h.access
    pulses := by rw [hu]; exact h.pulses
    warnings := by rw [hu]; exact h.warnings
    memInv := fun h' => by rw [hu]; exact h.memInv h'
    fuses := by rw [hu]; exact h.fuses
    quiet := fun h' => by rw [hu] at h' ⊢; exact h.quiet h'
    lockLength := by rw [hl]
    locks := fun k b hb => by rw [hlk]; exact hb
    regLocked := fun b _ k => hlk k b
    fsm := fun h' => by rw [hu]; exact hf h'
    disarmed := fun h1 h2 => by rw [hu]; exact hd h1 h2
    keydis := fun h' => by rw [hu]; exact h.keyAccessDisabled.trans h'
    clkValid := fun h' => by rw [hu]; exact h.clkValid.trans h' }

/-- Only the delivered response, the accesses, the draws, the key-index register, KEYDIS upwards, the
magic word or the lock registers upwards have changed. -/
theorem ExecFrame.of_plain {s u : State}
    (hu : u = { s with
      response := u.response, magic := u.magic, uploading := u.uploading, draws := u.draws
      regAccessCount := u.regAccessCount, locks := u.locks, keyAccessDisabled := u.keyAccessDisabled
      regs := { s.regs with
        ack := u.regs.ack, keyInd := u.regs.keyInd, clkMhz := u.regs.clkMhz }
      clkValid := u.clkValid, fsm := u.fsm, fsmTrace := u.fsmTrace })
    (ha : s.regAccessCount ≤ u.regAccessCount) (hk : s.keyAccessDisabled = true → u.keyAccessDisabled = true)
    (hc : s.clkValid = true → u.clkValid = true) (hf : s.FsmInv → u.FsmInv)
    (hl : u.locks = s.locks ∨ (u.locks.length = s.locks.length ∧ s.locksKept u ∧
      ∀ b, s.locked .reg b = true → ∀ k, u.locked k b = s.locked k b)) :
    ExecFrame s u := by
  have hcell : ∀ a n, u.readCell a n = s.readCell a n := fun a n =>
    State.readCell_congr (by rw [hu]) (by rw [hu]) (by rw [hu]) a n
  have h3 : u.locks.length = s.locks.length ∧ s.locksKept u ∧
      ∀ b, s.locked .reg b = true → ∀ k, u.locked k b = s.locked k b := by
    rcases hl with h | h
    · have hlk : ∀ k b, u.locked k b = s.locked k b := by
        intro k b
        simp [State.locked, State.lockByteAt, State.lockRegs, h]
      exact ⟨by rw [h], fun k b hb => by rw [hlk]; exact hb, fun b _ k => hlk k b⟩
    · exact h
  exact {
    cfg := by rw [hu]
    faulted := by rw [hu]
    position := by rw [hu]
    pending := by rw [hu]
    access := ha
    pulses := by rw [hu]
    warnings := ⟨0, by rw [hu]; simp⟩
    memInv := fun h => by rw [hu]; exact h
    fuses := fun a n => by rw [hcell]; exact State.fusesKept_refl s a n
    quiet := fun _ => by rw [hu]; exact ⟨rfl, rfl⟩
    lockLength := h3.1
    locks := h3.2.1
    regLocked := h3.2.2
    fsm := hf
    disarmed := fun _ h => by rw [hu]; exact h
    keydis := hk
    clkValid := hc }

/-- An operation that only delivers a response, reading or writing nothing but what is listed. -/
theorem ExecFrame.deliver (s : State) (st : Status) (r : Result) : ExecFrame s (s.deliver st r) :=
  .of_plain rfl le_rfl id id id (.inl rfl)

theorem State.pollKval_keep (s : State) (n : Nat) :
    (s.pollKval n).2 = { s with
      draws := (s.pollKval n).2.draws, regAccessCount := (s.pollKval n).2.regAccessCount } ∧
    s.regAccessCount ≤ (s.pollKval n).2.regAccessCount := by
  induction n generalizing s with
  | zero => exact ⟨rfl, le_rfl⟩
  | succ n ih =>
    simp only [State.pollKval]
    split_ifs
    · exact ⟨rfl, by simp⟩
    · obtain ⟨h1, h2⟩ := ih s.readKval.2
      exact ⟨by rw [h1]; rfl, le_trans (by simp) h2⟩

/-- One turn of UPLOAD_KEY's loop: one poll of KVAL, which ends the wait or not. -/
theorem State.pollUpload_eq (s : State) :
    s.pollUpload = { s with
      regAccessCount := s.regAccessCount + 1
      draws := { s.draws with kval := s.draws.kval.tail, drawn := s.draws.drawn + 1 }
      uploading := !(s.draws.kval.headD (Config.freeKval s.draws.drawn))
      response := if s.draws.kval.headD (Config.freeKval s.draws.drawn) then some ⟨.ok, .none⟩
        else none } := by
  unfold State.pollUpload
  have h : s.readKval.1 = s.draws.kval.headD (Config.freeKval s.draws.drawn) := rfl
  rw [← h]
  dsimp only
  cases h' : s.readKval.1
  · rw [if_neg (by simp)]
    rfl
  · rw [if_pos rfl]
    rfl

theorem State.pollUpload_keep (s : State) :
    s.pollUpload = { s with
      draws := s.pollUpload.draws, regAccessCount := s.pollUpload.regAccessCount
      uploading := s.pollUpload.uploading, response := s.pollUpload.response } ∧
    s.pollUpload.regAccessCount = s.regAccessCount + 1 := by
  rw [State.pollUpload_eq]
  exact ⟨rfl, rfl⟩

theorem State.waitReady_keep (s : State) (n : Nat) :
    (s.waitReady n).2 = { s with
      draws := (s.waitReady n).2.draws, regAccessCount := (s.waitReady n).2.regAccessCount
      regs := { s.regs with ack := false } } := by
  have h := OtpFrame.waitReady s n
  ext1 <;> simp [h.clkValid, h.faulted, h.position, h.pending, h.uploading, h.response]

theorem ExecFrame.checkLock {k : LockKind} {blk : BitVec 8} {s t : State}
    (h : checkLock k blk s = .next t) : ExecFrame s t := by
  unfold Machine.checkLock at h
  split_ifs at h
  cases h
  exact .of_plain rfl (by simp [State.readLock]) id id id (.inl rfl)

theorem State.setBlockAccess_keep (s : State) (b : Nat) (lr lw lg : Bool) :
    s.setBlockAccess b lr lw lg = { s with
      locks := (s.setBlockAccess b lr lw lg).locks
      regAccessCount := s.regAccessCount + 2 * (lr.toNat + lw.toNat + lg.toNat) } := by
  unfold State.setBlockAccess
  rw [State.orLock_keep ((s.orLock lr .read b).orLock lw .write b),
    State.orLock_keep (s.orLock lr .read b), State.orLock_keep s]
  congr 1
  simp only
  omega

/-- Any lock bit after SET_BLOCK_ACCESS (R153). -/
theorem State.locked_setBlockAccess (s : State) (b : Nat) (lr lw lg : Bool) (k : LockKind) (b' : Nat) :
    (s.setBlockAccess b lr lw lg).locked k b' =
      (s.locked k b' ||
        (b' == b && !s.locked .reg b && decide (blockReg b < s.locks.length) &&
          match k with
          | .read => lr
          | .write => lw
          | .reg => lg)) := by
  unfold State.setBlockAccess
  simp only [State.locked_orLock, State.orLock_length]
  cases k <;> by_cases h : b' = b <;> by_cases hb : blockReg b < s.locks.length <;> simp [h, hb]
  all_goals cases s.locked .reg b <;> cases lr <;> cases lw <;> cases lg <;> simp

theorem ExecFrame.setBlockAccess {blk : BitVec 8} {lr lw lg : Bool} {s t : State}
    (h : execSetBlockAccess blk lr lw lg s = .next t) : ExecFrame s t := by
  unfold execSetBlockAccess at h
  split_ifs at h with hb
  cases h
  have hk := State.setBlockAccess_keep s blk.toNat lr lw lg
  have hlen : (s.setBlockAccess blk.toNat lr lw lg).locks.length = s.locks.length := by
    simp [State.setBlockAccess]
  refine .of_plain ?_ ?_ ?_ ?_ ?_ (.inr ⟨hlen, fun k b h => ?_, fun b h k => ?_⟩)
  · rw [hk]; rfl
  · rw [hk]; exact Nat.le_add_right _ _
  · rw [hk]; exact id
  · rw [hk]; exact id
  · rw [hk]; exact id
  · show (s.setBlockAccess blk.toNat lr lw lg).locked k b = true
    rw [State.locked_setBlockAccess, h, Bool.true_or]
  · show (s.setBlockAccess blk.toNat lr lw lg).locked k b = _
    rw [State.locked_setBlockAccess]
    by_cases hbb : b = blk.toNat
    · subst hbb
      simp [h]
    · simp [hbb]

/-- The disarming end of every read or program transaction. -/
theorem readCmd_disarms {c : Config} (h : c.DistinctCommands) : (c.readCmd == c.armValue) = false := by
  simpa using h.2.1.symm

theorem readBytes_armed (a : StorageArray) (s : State) (addr : Nat) (st : Status) (n : Nat)
    (hd : s.cfg.DistinctCommands) (h : s.regs.armed = false) :
    (readBytes a s addr st n).2.2.regs.armed = false := by
  induction n generalizing s addr st with
  | zero => exact h
  | succ n ih =>
    exact ih _ _ _ (by simpa using hd) (by simpa using hd.2.1.symm)

/-- What every operation does and does not do. -/
theorem exec_frame {i : Instr} {s t : State} (h : exec i s = .next t) : ExecFrame s t := by
  cases i <;> simp only [exec] at h
  case npEncode => cases h; exact .deliver s _ _
  case npDecode =>
    unfold execNpDecode at h
    split_ifs at h <;> cases h <;> exact .deliver s _ _
  case majEncode => cases h; exact .deliver s _ _
  case majDecode =>
    unfold execMajDecode at h
    split_ifs at h <;> cases h <;> exact .deliver s _ _
  case checkReadAllowed => exact .checkLock h
  case checkWriteAllowed => exact .checkLock h
  case setBlockAccess => exact .setBlockAccess h
  case waitReady tmo =>
    cases h
    have hk := State.waitReady_keep s tmo.toNat
    have hf := OtpFrame.waitReady s tmo.toNat
    exact .of_otp hf (fun h => h.congr (by simp) (by simp)) (fun _ h => by simpa using h) rfl
  case readByte a addr =>
    unfold execReadByte at h
    split_ifs at h
    cases h
    exact .of_otp (OtpFrame.readByteBody a addr s) (fun h => h.readByteBody a addr)
      (fun hd _ => by simpa using hd.2.1.symm) rfl
  case bitIsProgrammed a addr bit =>
    unfold execBitIsProgrammed at h
    split_ifs at h
    cases h
    exact .of_otp (OtpFrame.readByteBody a addr s) (fun h => h.readByteBody a addr)
      (fun hd _ => by simpa using hd.2.1.symm) rfl
  case programBit a addr bit vfy =>
    unfold execProgramBit at h
    split_ifs at h
    cases h
    exact .of_otp (OtpFrame.programBitBody a addr bit vfy s) (fun h => h.programBitBody a addr bit vfy)
      (fun hd _ => by rw [programBitBody_regs]; exact readCmd_disarms hd) rfl
  case programByte a addr val =>
    unfold execProgramByte at h
    split_ifs at h
    cases h
    exact .of_otp (OtpFrame.programByteBody a addr val s) (fun h => h.programByteBody a addr val)
      (fun hd _ => by rw [programByteBody_regs]; exact readCmd_disarms hd) rfl
  case init clk =>
    unfold execInit at h
    split_ifs at h
    cases h
    refine .of_plain rfl (by simp) id (fun _ => rfl) (fun h => ?_) (.inl rfl)
    exact (h.finish .ok).congr rfl rfl
  case readKey kt kidx =>
    unfold execReadKey at h
    dsimp only at h
    split_ifs at h
    · cases h; exact .deliver s _ _
    · cases h
      exact .of_plain rfl (by simp [State.readKeydis, State.readLock]; omega) id id id (.inl rfl)
    · cases h
      have h0 : OtpFrame s (s.readKeydis.2.readLock .read (blockReg (keySlot kt kidx.toNat).block)).2 :=
        (OtpFrame.access_step s).trans (OtpFrame.access_step _)
      refine .of_otp (h0.trans (OtpFrame.readBytes .key _ (keySlot kt kidx.toNat).base .ok
        (keySlot kt kidx.toNat).size)) (fun h => ?_) (fun hd h => ?_) rfl
      · exact State.FsmInv.readBytes (s := (s.readKeydis.2.readLock .read
          (blockReg (keySlot kt kidx.toNat).block)).2) h _ _ _ _
      · exact readBytes_armed .key _ _ _ _ hd h
  case selectKey kidx =>
    unfold execSelectKey at h
    dsimp only at h
    split_ifs at h
    · cases h; exact .deliver s _ _
    · cases h
      obtain ⟨h1, h2⟩ := State.pollKval_keep
        (s.updateKeyInd fun v => { v with kind := kidx.setWidth 4 }) s.cfg.selectKeyRetries
      refine .of_plain ?_ ?_ ?_ ?_ ?_ (.inl ?_)
      · rw [h1]; rfl
      · refine le_trans ?_ h2
        simp [State.updateKeyInd, State.readKeyInd]
        omega
      · rw [h1]; exact id
      · rw [h1]; exact id
      · rw [h1]; exact id
      · rw [h1]; rfl
  case uploadKey ksz kidx =>
    unfold execUploadKey at h
    split_ifs at h
    · cases h; exact .deliver s _ _
    · cases h
      obtain ⟨h1, h2⟩ := State.pollUpload_keep
        (s.updateKeyInd fun v => { v with ksize := ksz, kind := kidx.setWidth 4 })
      refine .of_plain ?_ ?_ ?_ ?_ ?_ (.inl ?_)
      · rw [h1]; rfl
      · rw [h2]
        simp [State.updateKeyInd, State.readKeyInd]
        omega
      · rw [h1]; exact id
      · rw [h1]; exact id
      · rw [h1]; exact id
      · rw [h1]; rfl
  case disableKeyAccess =>
    cases h
    exact .of_plain rfl (by simp) (fun _ => rfl) id id (.inl rfl)
  case magicInit => cases h; exact .of_plain rfl le_rfl id id id (.inl rfl)
  case magicAccumulate => cases h; exact .of_plain rfl le_rfl id id id (.inl rfl)
  case magicGet => cases h; exact .deliver s _ _

/-- One turn of a waiting UPLOAD_KEY. -/
theorem ExecFrame.pollUpload (s : State) : ExecFrame s s.pollUpload := by
  obtain ⟨h1, h2⟩ := State.pollUpload_keep s
  refine .of_plain ?_ ?_ ?_ ?_ ?_ (.inl ?_)
  · rw [h1]
  · rw [h2]; exact Nat.le_succ _
  · rw [h1]; exact id
  · rw [h1]; exact id
  · rw [h1]; exact id
  · rw [h1]

/-- What a step to a next state was. -/
theorem step_cases {s t : State} (h : step s = .next t) :
    (∃ u, ExecFrame s u ∧ t = u.settle ∧ s.operationNext = true ∧
      (s.uploading = true ∧ u = s.pollUpload ∨
        ∃ c i rest, s.uploading = false ∧ s.pending = .command c none :: rest ∧ decode c = .ok i ∧
          exec i s = .next u)) ∨
    (s.uploading = false ∧ s.pending = [] ∧ t = s) ∨
    (s.uploading = false ∧ (∃ rest, s.pending = .powerOnReset :: rest) ∧
      t = s.powerOnReset.dropEvent) ∨
    (s.uploading = false ∧ (∃ rest, s.pending = .clockChange :: rest) ∧ t = s.clockChange.dropEvent) := by
  simp only [step, stepHost] at h
  split_ifs at h with hu
  · cases h
    exact .inl ⟨_, .pollUpload s, rfl, by simp [State.operationNext, hu], .inl ⟨hu, rfl⟩⟩
  have hu : s.uploading = false := by simpa using hu
  split at h
  · rename_i hp
    cases h
    exact .inr (.inl ⟨hu, hp, rfl⟩)
  · rename_i c during rest hp
    unfold runCommand at h
    split at h
    · cases h
    · rename_i i hd
      split at h
      · cases h
      · cases h
      · split at h
        · rename_i u he
          cases h
          exact .inl ⟨u, exec_frame he, rfl, by simp [State.operationNext, hp],
            .inr ⟨c, i, rest, hu, hp, hd, he⟩⟩
        · cases h
        · cases h
  · rename_i rest hp
    cases h
    exact .inr (.inr (.inl ⟨hu, ⟨rest, hp⟩, rfl⟩))
  · rename_i rest hp
    cases h
    exact .inr (.inr (.inr ⟨hu, ⟨rest, hp⟩, rfl⟩))
  · cases h

theorem core_run_next {s u : State} (h : step s = .next u) (n : Nat) :
    core.run (n + 1) s = core.run n u := by
  have h' : core.step s = .next u := h
  simp only [Host.Core.run, h']

/-- A run to a next state takes its first step to one. -/
theorem core_run_succ {s t : State} {n : Nat} (h : core.run (n + 1) s = .next t) :
    ∃ u, step s = .next u ∧ core.run n u = .next t := by
  simp only [Host.Core.run] at h
  cases hs : core.step s with
  | next u =>
    rw [hs] at h
    exact ⟨u, hs, h⟩
  | fault f =>
    rw [hs] at h
    cases h
  | refused r =>
    rw [hs] at h
    cases h

end Sys2Proof.Machine
end

