-- ==== Sys2Proof/Laws/KeyVault.lean ====
section
/-! SUPPORT. The key vault's shared operations: the bounded poll of KVAL (spec/44_key_vault.md R231), the turns
of UPLOAD_KEY (R232), the stream of bytes of READ_KEY (R230). -/

namespace Sys2Proof.Machine

/-! ### Polls of KVAL -/

theorem State.kvalAt_zero (s : State) :
    s.kvalAt 0 = s.draws.kval.headD (Config.freeKval s.draws.drawn) := by
  simp only [State.kvalAt, Nat.add_zero]
  cases s.draws.kval <;> rfl

/-- What one poll of KVAL does (R44). -/
theorem State.readKval_step (s : State) :
    s.readKval.2 = { s with
      regAccessCount := s.regAccessCount + 1
      draws := { s.draws with kval := s.draws.kval.tail, drawn := s.draws.drawn + 1 } } := rfl

theorem State.readKval_fst (s : State) : s.readKval.1 = s.kvalAt 0 := by
  rw [State.kvalAt_zero]
  rfl

theorem State.readKval_kvalAt (s : State) (j : Nat) : s.readKval.2.kvalAt j = s.kvalAt (j + 1) := by
  simp only [State.kvalAt, State.readKval_step, List.getElem?_tail]
  congr 2
  omega

theorem State.pollUpload_kvalAt (s : State) (j : Nat) : s.pollUpload.kvalAt j = s.kvalAt (j + 1) := by
  rw [State.pollUpload_eq]
  simp only [State.kvalAt, List.getElem?_tail]
  congr 2
  omega

/-- The poll that first reads 1 ends the bounded wait with Ok. -/
theorem State.pollKval_ok (s : State) (n j : Nat) (hj : j < n) (h : s.kvalAt j = true)
    (hb : ∀ i < j, s.kvalAt i = false) :
    s.pollKval n = (.ok, { s with
      regAccessCount := s.regAccessCount + (j + 1), draws := s.draws.afterKval (j + 1) }) := by
  induction j generalizing s n with
  | zero =>
    obtain ⟨m, rfl⟩ : ∃ m, n = m + 1 := ⟨n - 1, by omega⟩
    simp only [State.pollKval, State.readKval_fst, h, if_true, State.readKval_step, Draws.afterKval]
    simp
  | succ j ih =>
    obtain ⟨m, rfl⟩ : ∃ m, n = m + 1 := ⟨n - 1, by omega⟩
    have h0 : s.kvalAt 0 = false := hb 0 (by omega)
    simp only [State.pollKval, State.readKval_fst, h0]
    rw [if_neg (by simp)]
    rw [ih s.readKval.2 m (by omega) (by rw [State.readKval_kvalAt]; exact h)
      (fun i hi => by rw [State.readKval_kvalAt]; exact hb _ (by omega))]
    simp only [State.readKval_step, Draws.afterKval, List.drop_tail, Nat.add_assoc]
    simp only [Nat.add_comm 1]

/-- Where no poll of the budget reads 1, the bounded wait ends with HardwareError. -/
theorem State.pollKval_timeout (s : State) (n : Nat) (hb : ∀ i < n, s.kvalAt i = false) :
    s.pollKval n = (.hardwareError, { s with
      regAccessCount := s.regAccessCount + n, draws := s.draws.afterKval n }) := by
  induction n generalizing s with
  | zero => simp [State.pollKval, Draws.afterKval]
  | succ n ih =>
    have h0 : s.kvalAt 0 = false := hb 0 (by omega)
    simp only [State.pollKval, State.readKval_fst, h0]
    rw [if_neg (by simp)]
    rw [ih s.readKval.2 (fun i hi => by rw [State.readKval_kvalAt]; exact hb _ (by omega))]
    simp only [State.readKval_step, Draws.afterKval, List.drop_tail, Nat.add_assoc]
    simp only [Nat.add_comm 1]

/-- The status of the bounded poll. -/
theorem State.pollKval_status (s : State) (n : Nat) :
    (s.pollKval n).1 = .ok ∨ (s.pollKval n).1 = .hardwareError := by
  induction n generalizing s with
  | zero => exact .inr rfl
  | succ n ih =>
    simp only [State.pollKval]
    split_ifs
    · exact .inl rfl
    · exact ih _

/-! ### The stream of READ_KEY -/

/-- Every block of a slot has a lock register, NUM_LOCK_REGS being at least 6 (R66, R67). -/
theorem State.hasBlock_slot (s : State) (kt : KeyType) (i : Nat) (h : i < kt.slots) :
    s.hasBlock (keySlot kt i).block = true := by
  have : (keySlot kt i).block < 48 := by
    cases kt <;> simp only [KeyType.slots, keySlot] at * <;> omega
  have hn : 48 ≤ 8 * s.cfg.numLockRegs := by
    simp only [Config.numLockRegs]
    omega
  simp only [State.hasBlock, decide_eq_true_eq]
  exact lt_of_lt_of_le this hn

/-- A granted READ_KEY is two register accesses and the stream of the slot's bytes (R230). -/
theorem execReadKey_granted {kt : KeyType} {kidx : BitVec 8} {s : State} (h : kidx.toNat < kt.slots)
    (h1 : s.keyAccessDisabled = false) (h2 : s.locked .read (keySlot kt kidx.toNat).block = false)
    (h3 : s.clkValid = true) :
    execReadKey kt kidx s =
      .next ((readBytes .key s.access.access (keySlot kt kidx.toNat).base .ok
          (keySlot kt kidx.toNat).size).2.2.deliver
        (readBytes .key s.access.access (keySlot kt kidx.toNat).base .ok
          (keySlot kt kidx.toNat).size).1
        (.bytes (readBytes .key s.access.access (keySlot kt kidx.toNat).base .ok
          (keySlot kt kidx.toNat).size).2.1)) := by
  have hb := State.hasBlock_slot s kt kidx.toNat h
  have hl : (s.access.lockByteAt .read (blockReg (keySlot kt kidx.toNat).block)).getLsbD
      (blockBit (keySlot kt kidx.toNat).block) = false := h2
  simp only [execReadKey, if_neg (Nat.not_le.2 h), hb, if_true, State.readLock, State.readKeydis, h1, hl,
    Bool.or_false, Bool.false_eq_true, if_false, State.access_clkValid, h3]

theorem readBytes_status (a : StorageArray) (s : State) (addr : Nat) (st : Status) (n : Nat)
    (h : st = .ok ∨ st = .hardwareError) :
    (readBytes a s addr st n).1 = .ok ∨ (readBytes a s addr st n).1 = .hardwareError := by
  induction n generalizing s addr st with
  | zero => exact h
  | succ n ih =>
    refine ih _ _ _ ?_
    rcases h with rfl | rfl <;>
    rcases readByteBody_status a (BitVec.ofNat 13 addr) s with h2 | h2 <;> rw [h2] <;>
      simp [Status.worst, Status.severity]

theorem readBytes_length (a : StorageArray) (s : State) (addr : Nat) (st : Status) (n : Nat) :
    (readBytes a s addr st n).2.1.length = n := by
  induction n generalizing s addr st with
  | zero => rfl
  | succ n ih =>
    simp only [readBytes, List.length_cons]
    rw [ih]

/-- The state after a stream of at least one byte, from a disarmed command register. -/
theorem readBytes_keep (a : StorageArray) (s : State) (addr n : Nat) (st : Status)
    (hd : s.cfg.DistinctCommands) (ha : s.regs.armed = false) :
    (readBytes a s addr st (n + 1)).2.2 = { s with
      regs := { s.regs with
        ack := false, arr := a, data := 0x01, byteAddr := BitVec.ofNat 13 (addr + n) }
      fsm := (readBytes a s addr st (n + 1)).2.2.fsm
      fsmTrace := (readBytes a s addr st (n + 1)).2.2.fsmTrace
      regAccessCount := (readBytes a s addr st (n + 1)).2.2.regAccessCount
      draws := (readBytes a s addr st (n + 1)).2.2.draws } := by
  induction n generalizing s addr st with
  | zero =>
    have hf := OtpFrame.readByteBody a (BitVec.ofNat 13 addr) s
    have har := readByteBody_arrays a (BitVec.ofNat 13 addr) s (.inr ha)
    have hp := readByteBody_pulseCount a (BitVec.ofNat 13 addr) s ha
    simp only [readBytes]
    ext1 <;> simp [hd.2.1.symm, har, hf.clkValid, hf.position, hf.faulted, hf.pending, hf.uploading,
      hf.response, hp, ha]
  | succ n ih =>
    have hn := ih (readByteBody a (BitVec.ofNat 13 addr) s).state (addr + 1)
      (Status.worst st (readByteBody a (BitVec.ofNat 13 addr) s).status) (by simpa using hd)
      (by simpa using hd.2.1.symm)
    rw [readBytes]
    simp only
    generalize readBytes a _ _ _ (n + 1) = x at *
    rw [hn]
    have hf := OtpFrame.readByteBody a (BitVec.ofNat 13 addr) s
    have har := readByteBody_arrays a (BitVec.ofNat 13 addr) s (.inr ha)
    have hp := readByteBody_pulseCount a (BitVec.ofNat 13 addr) s ha
    ext1 <;> simp [hd.2.1.symm, har, hf.clkValid, hf.position, hf.faulted, hf.pending, hf.uploading,
      hf.response, hp, ha]
    congr 1
    omega

/-- A stream with every poll listed ready, of readable bytes: the stored bytes in ascending order. -/
theorem readBytes_listed (a : StorageArray) (s : State) (addr n : Nat)
    (hd : s.cfg.readCmd ≠ s.cfg.progCmd ∨ s.regs.armed = false)
    (hc : s.cfg.readCmd ≠ s.cfg.armValue ∨ s.cfg.readCmd ≠ s.cfg.progCmd)
    (hr : ∀ j < 2 * n, s.draws.ready[j]? = some true)
    (hread : ∀ j < n, s.readable a (addr + j) = true) (hb : addr + n ≤ 8192) :
    (readBytes a s addr .ok n).1 = .ok ∧
    (readBytes a s addr .ok n).2.1 = (List.range n).map (fun j => s.readCell a (addr + j)) ∧
    (readBytes a s addr .ok n).2.2.regAccessCount = s.regAccessCount + 9 * n := by
  induction n generalizing s addr with
  | zero => exact ⟨rfl, rfl, rfl⟩
  | succ n ih =>
    obtain ⟨rs, hrs⟩ : ∃ rs, s.draws.ready = true :: true :: rs := by
      have h0 := hr 0 (by omega)
      have h1 := hr 1 (by omega)
      rcases hh : s.draws.ready with _ | ⟨x, _ | ⟨y, ys⟩⟩ <;> simp_all
    have ea : (BitVec.ofNat 13 addr).toNat = addr := by
      simp
      omega
    obtain ⟨u1, u2, u3⟩ := readByteBody_ready a (BitVec.ofNat 13 addr) s hrs
    have u4 := readByteBody_arrays a (BitVec.ofNat 13 addr) s hd
    have u5 := readByteBody_byte a (BitVec.ofNat 13 addr) s hd u1
      (by rw [ea]; exact hread 0 (by omega))
    rw [ea] at u5
    have hcell : ∀ j, (readByteBody a (BitVec.ofNat 13 addr) s).state.readCell a j = s.readCell a j :=
      fun j => State.readCell_congr (by simp) u4.1 u4.2 _ _
    obtain ⟨i1, i2, i3⟩ := ih (readByteBody a (BitVec.ofNat 13 addr) s).state (addr + 1)
      (by
        rcases hc with h | h
        · exact .inr (by simpa using h)
        · exact .inl (by simpa using h))
      (by simpa using hc)
      (fun j hj => by
        rw [u2]
        have := hr (j + 2) (by omega)
        simpa [hrs] using this)
      (fun j hj => by
        rw [State.readable_congr (s := s) (by simp) (by simp)]
        have := hread (j + 1) (by omega)
        rwa [show addr + 1 + j = addr + (j + 1) by omega])
      (by omega)
    have hw : Status.worst .ok (readByteBody a (BitVec.ofNat 13 addr) s).status = .ok := by
      rw [u1]
      rfl
    simp only [readBytes, hw]
    refine ⟨i1, ?_, ?_⟩
    · rw [i2, u5, List.range_succ_eq_map, List.map_cons, List.map_map]
      simp only [Nat.add_zero, hcell]
      congr 1
      apply List.map_congr_left
      intro j _
      simp [Nat.add_assoc, Nat.add_comm 1]
    · rw [i3, u3]
      omega

/-- The states a stream of READ_BYTEs passes through, byte by byte from `base` on (R230). -/
def readChain (a : StorageArray) (s : State) (base : Nat) : Nat → State
  | 0 => s
  | n + 1 => (readByteBody a (BitVec.ofNat 13 (base + n)) (readChain a s base n)).state

theorem readChain_shift (a : StorageArray) (s : State) (base n : Nat) :
    readChain a (readByteBody a (BitVec.ofNat 13 base) s).state (base + 1) n =
      readChain a s base (n + 1) := by
  induction n with
  | zero => rfl
  | succ n ih =>
    show (readByteBody a (BitVec.ofNat 13 (base + 1 + n)) _).state =
      (readByteBody a (BitVec.ofNat 13 (base + (n + 1))) (readChain a s base (n + 1))).state
    rw [← ih, show base + 1 + n = base + (n + 1) by omega]

/-- A stream is its READ_BYTEs: their last state, their bytes, and Ok exactly if every status so far
was (R230, R271). -/
theorem readBytes_eq_chain (a : StorageArray) (s : State) (base n : Nat) (st : Status)
    (hst : st = .ok ∨ st = .hardwareError) :
    (readBytes a s base st n).2.2 = readChain a s base n ∧
    (readBytes a s base st n).2.1 = (List.range n).map (fun j =>
      (readByteBody a (BitVec.ofNat 13 (base + j)) (readChain a s base j)).byte) ∧
    (readBytes a s base st n).1 =
      if st = .ok ∧ ∀ j < n,
        (readByteBody a (BitVec.ofNat 13 (base + j)) (readChain a s base j)).status = .ok
      then .ok else .hardwareError := by
  induction n generalizing s base st with
  | zero => rcases hst with rfl | rfl <;> simp [readBytes, readChain]
  | succ n ih =>
    have h2 := readByteBody_status a (BitVec.ofNat 13 base) s
    have hb : ∀ j, base + 1 + j = base + (j + 1) := fun j => by omega
    obtain ⟨i1, i2, i3⟩ := ih (readByteBody a (BitVec.ofNat 13 base) s).state (base + 1)
      (Status.worst st (readByteBody a (BitVec.ofNat 13 base) s).status)
      (by
        rcases hst with rfl | rfl <;> rcases h2 with h | h <;> rw [h] <;>
          simp [Status.worst, Status.severity])
    simp only [readChain_shift, hb] at i1 i2 i3
    simp only [readBytes]
    refine ⟨i1, ?_, ?_⟩
    · rw [i2, List.range_succ_eq_map, List.map_cons, List.map_map]
      rfl
    · rw [i3]
      refine if_congr ?_ rfl rfl
      have hw : Status.worst st (readByteBody a (BitVec.ofNat 13 base) s).status = .ok ↔
          st = .ok ∧ (readByteBody a (BitVec.ofNat 13 base) s).status = .ok := by
        rcases hst with rfl | rfl <;> rcases h2 with h | h <;> rw [h] <;>
          simp [Status.worst, Status.severity]
      rw [hw, and_assoc]
      refine and_congr Iff.rfl ⟨?_, fun h => ⟨h 0 (by omega), fun j hj => h (j + 1) (by omega)⟩⟩
      rintro ⟨h0, h⟩ j hj
      cases j with
      | zero => exact h0
      | succ j => exact h j (by omega)

/-- What a stream leaves alone, from a disarmed command register. -/
theorem readChain_keep (a : StorageArray) (s : State) (base n : Nat) (hd : s.cfg.DistinctCommands)
    (ha : s.regs.armed = false) :
    (readChain a s base n).cfg = s.cfg ∧ (readChain a s base n).regs.armed = false ∧
    (readChain a s base n).clkValid = s.clkValid ∧
    (readChain a s base n).keyAccessDisabled = s.keyAccessDisabled ∧
    (readChain a s base n).locks = s.locks ∧
    ∀ a' m, (readChain a s base n).readCell a' m = s.readCell a' m := by
  induction n with
  | zero => exact ⟨rfl, ha, rfl, rfl, rfl, fun _ _ => rfl⟩
  | succ n ih =>
    obtain ⟨i1, i2, i3, i4, i5, i6⟩ := ih
    have hf := OtpFrame.readByteBody a (BitVec.ofNat 13 (base + n)) (readChain a s base n)
    have har := readByteBody_arrays a (BitVec.ofNat 13 (base + n)) (readChain a s base n) (.inr i2)
    refine ⟨hf.cfg.trans i1, ?_, hf.clkValid.trans i3, hf.keyAccessDisabled.trans i4,
      hf.locks.trans i5, fun a' m => ?_⟩
    · simp only [readChain, readByteBody_regs, i1]
      exact readCmd_disarms hd
    · rw [← i6]
      exact State.readCell_congr hf.cfg har.1 har.2 a' m

/-- Which slots there are (R66). -/
theorem mem_keySlots (k : KeySlot) : k ∈ keySlots ↔ ∃ kt i, i < KeyType.slots kt ∧ keySlot kt i = k := by
  simp only [keySlots, List.mem_append, List.mem_map, List.mem_range]
  constructor
  · rintro (⟨i, h1, h2⟩ | ⟨i, h1, h2⟩)
    · exact ⟨.aes, i, h1, h2⟩
    · exact ⟨.ecc, i, h1, h2⟩
  · rintro ⟨kt, i, h1, h2⟩
    cases kt
    · exact .inl ⟨i, h1, h2⟩
    · exact .inr ⟨i, h1, h2⟩

/-- Every byte of a slot is readable while key access is enabled and the slot's block is not
read-locked (R68). -/
theorem State.readable_slot {kt : KeyType} {k : Nat} {s : State} (h : k < kt.slots)
    (h1 : s.keyAccessDisabled = false) (h2 : s.locked .read (keySlot kt k).block = false) :
    ∀ j < (keySlot kt k).size, s.readable .key ((keySlot kt k).base + j) = true := by
  intro j hj
  simp only [State.readable, h1, Bool.false_or, Bool.not_eq_true', Bool.and_eq_false_iff]
  right
  rw [List.any_eq_false]
  intro x hx
  simp only [Bool.and_eq_true, not_and, Bool.not_eq_true, KeySlot.holds, decide_eq_true_eq]
  intro hh
  obtain ⟨kt', i, hi, rfl⟩ := (mem_keySlots x).1 hx
  suffices keySlot kt' i = keySlot kt k by rw [this]; exact h2
  cases kt <;> cases kt' <;> simp only [KeyType.slots, keySlot] at * <;>
    first
      | (exfalso; omega)
      | rw [show i = k by omega]

end Sys2Proof.Machine
end

