-- ==== Sys2Proof/Laws/Ready.lean ====
section
/-! SUPPORT. What the transactions do when the environment's answers are listed: every poll ready, the pulse draws
known (spec/43_otp_fsm.md R172 to R189). -/

open Sys2Proof

namespace Sys2Proof.Machine

theorem State.readyFor_succ {s : State} {n : Nat} (h : s.readyFor (n + 1)) :
    ∃ rs, s.draws.ready = true :: rs ∧ ∀ j < n, rs[j]? = some true := by
  have h0 := h 0 (by omega)
  cases hr : s.draws.ready with
  | nil => simp [hr] at h0
  | cons x rs =>
    simp only [hr, List.getElem?_cons_zero, Option.some.injEq] at h0
    refine ⟨rs, by rw [h0], fun j hj => ?_⟩
    have := h (j + 1) (by omega)
    simpa [hr] using this

/-- Whether a pulse carries PROG_CMD depends on the configuration and the magic word alone. -/
theorem State.commandReady_congr {s t : State} (hc : t.cfg = s.cfg) (hm : t.magic = s.magic) :
    t.commandReady ↔ s.commandReady := by
  simp only [State.commandReady, hc, hm]

theorem bitMask_self (bit : BitPos) : (bitMask bit.toNat).getLsbD bit.toNat = true := by
  revert bit
  decide

/-- A listed pulse with a listed ready poll. -/
theorem State.pulseOnce_listed {s : State} {a : StorageArray} {addr : ByteAddr} {bit : BitPos}
    (hp : s.Pointed a addr bit) (hc : s.commandReady) (hd : s.cfg.DistinctCommands)
    {rs : List Bool} (hr : s.draws.ready = true :: rs) {p : Bool} {ps : List Bool}
    (hps : s.draws.pulse = p :: ps) :
    s.pulseOnce.draws.ready = rs ∧ s.pulseOnce.draws.pulse = ps ∧
    s.pulseOnce.regAccessCount = s.regAccessCount + 4 ∧
    s.pulseOnce.pulseCount = s.pulseCount + 1 ∧ s.pulseOnce.warnLog = s.warnLog ∧
    s.pulseOnce.regs.armed = false ∧
    ∀ a' n, s.pulseOnce.readCell a' n =
      if p = true ∧ a' = a ∧ n = addr.toNat then s.readCell a' n ||| bitMask bit.toNat
      else s.readCell a' n := by
  have hc' : (s.setFsm .programPulse).commandReady :=
    (State.commandReady_congr (by simp) (by simp)).2 hc
  obtain ⟨h1, h2, h3, h4, h5⟩ := State.issuePulse_accepted (s.setFsm .programPulse) hc'
    (by simpa using hd.1) (p := p) (ps := ps) (by simpa using hps)
  have hw := State.waitReady_ready (s := (s.setFsm .programPulse).issuePulse.setFsm .pollingReady)
    (rs := rs) (by simpa using hr) (n := waitTimeout) (by decide)
  have hcell : ∀ a' n, s.pulseOnce.readCell a' n = (s.setFsm .programPulse).issuePulse.readCell a' n :=
    fun a' n => State.readCell_congr (by simp) (by simp [State.pulseOnce])
      (by simp [State.pulseOnce]) a' n
  have h0 : ∀ a' n, (s.setFsm .programPulse).readCell a' n = s.readCell a' n :=
    fun a' n => State.readCell_congr (by simp) (by simp) (by simp) a' n
  refine ⟨?_, ?_, ?_, ?_, ?_, ?_, ?_⟩
  · simpa [State.pulseOnce] using hw.2.1
  · simp [State.pulseOnce, h1]
  · simpa [State.pulseOnce] using hw.2.2.2
  · simpa [State.pulseOnce] using h3
  · simpa [State.pulseOnce] using h2
  · simpa [State.pulseOnce] using congrArg Regs.armed h4
  · intro a' n
    rw [hcell, h5, h0]
    simp only [State.setFsm_regs, hp.arr, hp.byteAddr, hp.bitPos]

/-- A read transaction that is listed ready and reads a readable byte. -/
theorem readByteBody_listed {s : State} {a : StorageArray} {addr : ByteAddr}
    (hd : s.cfg.readCmd ≠ s.cfg.progCmd) {rs : List Bool} (hr : s.draws.ready = true :: true :: rs)
    (hread : s.readable a addr.toNat = true) :
    (readByteBody a addr s).status = .ok ∧ (readByteBody a addr s).byte = s.readCell a addr.toNat ∧
    (readByteBody a addr s).state.draws.ready = rs ∧
    (readByteBody a addr s).state.draws.pulse = s.draws.pulse ∧
    (readByteBody a addr s).state.regAccessCount = s.regAccessCount + 9 ∧
    ∀ a' n, (readByteBody a addr s).state.readCell a' n = s.readCell a' n := by
  obtain ⟨h1, h2, h3⟩ := readByteBody_ready a addr s hr
  have h4 := readByteBody_byte a addr s (.inl hd) h1 hread
  have h5 := readByteBody_arrays a addr s (.inl hd)
  exact ⟨h1, h4, h2, readByteBody_drawsPulse a addr s (.inl hd), h3,
    fun a' n => State.readCell_congr (by simp) h5.1 h5.2 a' n⟩

/-- A smart program transaction with listed answers (R180). -/
theorem programBitSmart_listed {s : State} {a : StorageArray} {addr : ByteAddr} {bit : BitPos}
    (hc : s.commandReady) (hd : s.cfg.DistinctCommands) {rs : List Bool}
    (hr : s.draws.ready = true :: true :: true :: rs) {p : Bool} {ps : List Bool}
    (hps : s.draws.pulse = p :: ps) (hread : s.readable a addr.toNat = true) :
    (programBitSmart a addr bit s).1 = Status.ofSuccess (p || s.fuseBit a addr bit) ∧
    (programBitSmart a addr bit s).2.draws.ready = rs ∧
    (programBitSmart a addr bit s).2.draws.pulse = ps ∧
    (programBitSmart a addr bit s).2.regAccessCount = s.regAccessCount + 18 ∧
    (programBitSmart a addr bit s).2.pulseCount = s.pulseCount + 1 ∧
    (programBitSmart a addr bit s).2.warnLog = s.warnLog ∧
    ∀ a' n, (programBitSmart a addr bit s).2.readCell a' n =
      if p = true ∧ a' = a ∧ n = addr.toNat then s.readCell a' n ||| bitMask bit.toNat
      else s.readCell a' n := by
  have h0 := State.startProgram_pointed a addr bit s
  have hs : ((s.startProgram a addr bit).writeSmart true).Pointed a addr bit :=
    ⟨h0.arr, h0.byteAddr, h0.bitPos⟩
  obtain ⟨u1, u2, u3, u4, u5, u6, u7⟩ := State.pulseOnce_listed hs
    ((State.commandReady_congr (by simp [State.startProgram]) (by simp [State.startProgram])).2 hc)
    (by simpa [State.startProgram] using hd) (rs := true :: true :: rs)
    (by simpa [State.startProgram] using hr) (p := p) (ps := ps)
    (by simpa [State.startProgram] using hps)
  have hcell0 : ∀ a' n, ((s.startProgram a addr bit).writeSmart true).readCell a' n = s.readCell a' n :=
    fun a' n => State.readCell_congr (by simp [State.startProgram]) (by simp [State.startProgram])
      (by simp [State.startProgram]) a' n
  have hcell1 : ∀ a' n, (s.smartPulsed a addr bit).readCell a' n =
      if p = true ∧ a' = a ∧ n = addr.toNat then s.readCell a' n ||| bitMask bit.toNat
      else s.readCell a' n := by
    intro a' n
    rw [← hcell0, ← u7]
    exact State.readCell_congr (by simp [State.smartPulsed]) (by simp [State.smartPulsed])
      (by simp [State.smartPulsed]) a' n
  have hf := OtpFrame.pulseOnce ((s.startProgram a addr bit).writeSmart true)
  obtain ⟨v1, v2, v3, v4, v5, v6⟩ := readByteBody_listed (s := s.smartPulsed a addr bit) (a := a)
    (addr := addr) (by simpa using hd.2.2) (rs := rs) (by simpa [State.smartPulsed] using u1)
    (by
      rw [State.readable_congr (s := s)]
      · exact hread
      · simpa [State.smartPulsed, State.startProgram] using hf.keyAccessDisabled
      · simpa [State.smartPulsed, State.startProgram] using hf.locks)
  have hbit : (readByteBody a addr (s.smartPulsed a addr bit)).byte.getLsbD bit.toNat =
      (p || s.fuseBit a addr bit) := by
    rw [v2, hcell1]
    have hb := bitMask_self bit
    cases p <;> simp [State.fuseBit]
    exact .inr hb
  have ha : (s.smartPulsed a addr bit).regs.armed = false := by
    simpa [State.smartPulsed] using u6
  rw [programBitSmart_eq, hbit]
  refine ⟨rfl, by simpa using v3, ?_, ?_, ?_, ?_, ?_⟩
  · simp only [State.setFsm_draws, v4]
    simpa [State.smartPulsed] using u2
  · simp only [State.setFsm_regAccessCount, v5]
    simp only [State.smartPulsed, State.writeSmart_regAccessCount, u3]
    simp [State.startProgram]
  · simp only [State.setFsm_pulseCount, readByteBody_pulseCount a addr _ ha]
    simpa [State.smartPulsed, State.startProgram] using u4
  · simp only [State.setFsm_warnLog, readByteBody_warnLog]
    simpa [State.smartPulsed, State.startProgram] using u5
  · intro a' n
    rw [← hcell1, ← v6]
    exact State.readCell_congr (by simp) (by simp) (by simp) a' n

/-- A legacy program transaction whose first four pulses all burn (R182): the verification after the
fourth succeeds. -/
theorem programBitLegacy_listed {s : State} {a : StorageArray} {addr : ByteAddr} {bit : BitPos}
    (hc : s.commandReady) (hd : s.cfg.DistinctCommands) {rs : List Bool}
    (hr : s.draws.ready = true :: true :: true :: true :: true :: true :: rs) {ps : List Bool}
    (hps : s.draws.pulse = true :: true :: true :: true :: ps)
    (hread : s.readable a addr.toNat = true) :
    (programBitLegacy a addr bit s).1 = .ok ∧
    (programBitLegacy a addr bit s).2.draws.ready = rs ∧
    (programBitLegacy a addr bit s).2.draws.pulse = ps ∧
    ∀ a' n, (programBitLegacy a addr bit s).2.readCell a' n =
      if a' = a ∧ n = addr.toNat then s.readCell a' n ||| bitMask bit.toNat
      else s.readCell a' n := by
  have h0 := State.startProgram_pointed a addr bit s
  have hs : ((s.startProgram a addr bit).writeInProg true).Pointed a addr bit :=
    ⟨h0.arr, h0.byteAddr, h0.bitPos⟩
  have hcfg : ((s.startProgram a addr bit).writeInProg true).cfg = s.cfg := by
    simp [State.startProgram]
  have hmag : ((s.startProgram a addr bit).writeInProg true).magic = s.magic := by
    simp [State.startProgram]
  have hrd0 : ((s.startProgram a addr bit).writeInProg true).readable a addr.toNat = true := by
    rw [State.readable_congr (s := s) (by simp [State.startProgram]) (by simp [State.startProgram])]
    exact hread
  have hready0 : ((s.startProgram a addr bit).writeInProg true).draws.ready =
      true :: true :: true :: true :: true :: true :: rs := by simpa [State.startProgram] using hr
  have hpulse0 : ((s.startProgram a addr bit).writeInProg true).draws.pulse =
      true :: true :: true :: true :: ps := by simpa [State.startProgram] using hps
  have hcell0 : ∀ a' n, ((s.startProgram a addr bit).writeInProg true).readCell a' n =
      s.readCell a' n :=
    fun a' n => State.readCell_congr (by simp [State.startProgram]) (by simp [State.startProgram])
      (by simp [State.startProgram]) a' n
  simp only [programBitLegacy]
  generalize (s.startProgram a addr bit).writeInProg true = t0 at *
  have step : ∀ {t : State} {rs' ps' : List Bool}, t.Pointed a addr bit → t.cfg = s.cfg →
      t.magic = s.magic → t.readable a addr.toNat = true → t.draws.ready = true :: rs' →
      t.draws.pulse = true :: ps' →
      t.pulseOnce.Pointed a addr bit ∧ t.pulseOnce.cfg = s.cfg ∧ t.pulseOnce.magic = s.magic ∧
      t.pulseOnce.readable a addr.toNat = true ∧ t.pulseOnce.draws.ready = rs' ∧
      t.pulseOnce.draws.pulse = ps' ∧
      ∀ a' n, t.pulseOnce.readCell a' n =
        if a' = a ∧ n = addr.toNat then t.readCell a' n ||| bitMask bit.toNat
        else t.readCell a' n := by
    intro t rs' ps' hp h1 h2 h3 h4 h5
    obtain ⟨u1, u2, -, -, -, -, u7⟩ := State.pulseOnce_listed hp
      ((State.commandReady_congr h1 h2).2 hc) (by simpa [h1] using hd) h4 h5
    have hf := OtpFrame.pulseOnce t
    refine ⟨hp.pulseOnce, hf.cfg.trans h1, hf.magic.trans h2, ?_, u1, u2, fun a' n => ?_⟩
    · rw [State.readable_congr hf.keyAccessDisabled hf.locks]
      exact h3
    · rw [u7]
      simp only [true_and]
  obtain ⟨p1, c1, m1, r1, y1, q1, e1⟩ := step hs hcfg hmag hrd0 hready0 hpulse0
  obtain ⟨p2, c2, m2, r2, y2, q2, e2⟩ := step p1 c1 m1 r1 y1 q1
  obtain ⟨p3, c3, m3, r3, y3, q3, e3⟩ := step p2 c2 m2 r2 y2 q2
  obtain ⟨p4, c4, m4, r4, y4, q4, e4⟩ := step p3 c3 m3 r3 y3 q3
  obtain ⟨v1, v2, v3, v4, v5, v6⟩ := readByteBody_listed (s := t0.pulseOnce.pulseOnce.pulseOnce.pulseOnce)
    (a := a) (addr := addr) (by rw [c4]; exact hd.2.2) y4 r4
  have hall : ∀ a' n, t0.pulseOnce.pulseOnce.pulseOnce.pulseOnce.readCell a' n =
      if a' = a ∧ n = addr.toNat then s.readCell a' n ||| bitMask bit.toNat
      else s.readCell a' n := by
    intro a' n
    rw [e4, e3, e2, e1, hcell0]
    split_ifs <;> simp [BitVec.or_assoc]
  have hbit : (readByteBody a addr t0.pulseOnce.pulseOnce.pulseOnce.pulseOnce).byte.getLsbD bit.toNat =
      true := by
    have hb := bitMask_self bit
    rw [v2, hall, if_pos ⟨rfl, rfl⟩, BitVec.getLsbD_or, hb, Bool.or_true]
  have hl : legacyLoop a addr bit t0 1 maxPulses =
      (.ok, (readByteBody a addr t0.pulseOnce.pulseOnce.pulseOnce.pulseOnce).state) := by
    rw [show maxPulses = 19 + 1 from rfl, legacyLoop, if_neg (by decide),
      show (19 : Nat) = 18 + 1 from rfl, legacyLoop, if_neg (by decide),
      show (18 : Nat) = 17 + 1 from rfl, legacyLoop, if_neg (by decide),
      show (17 : Nat) = 16 + 1 from rfl, legacyLoop, if_pos (by decide)]
    simp only [bitIsProgrammedBody, hbit, if_true]
  rw [hl]
  refine ⟨rfl, by simpa using v3, by simpa [v4] using q4, fun a' n => ?_⟩
  rw [← hall, ← v6]
  exact State.readCell_congr (by simp) (by simp) (by simp) a' n

/-- How many pulses the legacy loop makes from its `k`-th on, `left` being allowed: as many as it takes
until the bit is 1, at least up to the fourth (R182). -/
def legacyPulses (bitSet : Bool) (k left : Nat) (ps : List Bool) : Nat :=
  min left (max (5 - k) ((if bitSet then 0 else ps.findIdx id) + 1))

theorem legacyLoop_listed {a : StorageArray} {addr : ByteAddr} {bit : BitPos} (left k R : Nat)
    {s : State} (hp : s.Pointed a addr bit) (hc : s.commandReady) (hd : s.cfg.DistinctCommands)
    (hread : s.readable a addr.toNat = true)
    (hr : ∀ j < R + 3 * left, s.draws.ready[j]? = some true)
    (hps : left ≤ s.draws.pulse.length) (hk : 5 ≤ k + left)
    (hl : left = 0 → s.fuseBit a addr bit = false) :
    (legacyLoop a addr bit s k left).1 =
      Status.ofSuccess (s.fuseBit a addr bit || (s.draws.pulse.take left).any id) ∧
    (∀ j < R, (legacyLoop a addr bit s k left).2.draws.ready[j]? = some true) ∧
    (legacyLoop a addr bit s k left).2.draws.pulse =
      s.draws.pulse.drop (legacyPulses (s.fuseBit a addr bit) k left s.draws.pulse) ∧
    (legacyLoop a addr bit s k left).2.pulseCount =
      s.pulseCount + legacyPulses (s.fuseBit a addr bit) k left s.draws.pulse ∧
    ∀ a' n, (legacyLoop a addr bit s k left).2.readCell a' n =
      if (s.draws.pulse.take (legacyPulses (s.fuseBit a addr bit) k left s.draws.pulse)).any id = true
          ∧ a' = a ∧ n = addr.toNat then s.readCell a' n ||| bitMask bit.toNat
      else s.readCell a' n := by
  induction left generalizing s k with
  | zero =>
    simp only [legacyLoop, hl rfl, legacyPulses]
    exact ⟨by simp [Status.ofSuccess], fun j hj => hr j (by omega), by simp, by simp, by simp⟩
  | succ left ih =>
    obtain ⟨rs, hrs, hrs'⟩ := State.readyFor_succ (s := s) (n := R + 3 * left + 2)
      (fun j hj => hr j (by omega))
    obtain ⟨p, ps, hpp⟩ : ∃ p ps, s.draws.pulse = p :: ps := by
      cases h : s.draws.pulse with
      | nil => simp [h] at hps
      | cons p ps => exact ⟨p, ps, rfl⟩
    obtain ⟨u1, u2, -, u4, -, u6, u7⟩ := State.pulseOnce_listed hp hc hd hrs hpp
    have hf := OtpFrame.pulseOnce s
    have hbm := bitMask_self bit
    have hbit : s.pulseOnce.fuseBit a addr bit = (s.fuseBit a addr bit || p) := by
      simp only [State.fuseBit, u7]
      cases p <;> simp [hbm]
    have hread1 : s.pulseOnce.readable a addr.toNat = true := by
      rw [State.readable_congr hf.keyAccessDisabled hf.locks]; exact hread
    have hc1 := (State.commandReady_congr hf.cfg hf.magic).2 hc
    have hd1 : s.pulseOnce.cfg.DistinctCommands := by rw [hf.cfg]; exact hd
    rw [hpp] at hps ⊢
    have hps1 : left ≤ ps.length := by simpa using hps
    -- the pulses to come, counted from the next one
    have hm : ∀ b', (b' = (s.fuseBit a addr bit || p)) → (4 ≤ k → b' = false) →
        legacyPulses (s.fuseBit a addr bit) k (left + 1) (p :: ps) = legacyPulses b' (k + 1) left ps + 1 := by
      intro b' hb' h4
      subst hb'
      simp only [legacyPulses, List.findIdx_cons, id]
      cases h1 : s.fuseBit a addr bit <;> cases p <;> simp [h1] at h4 ⊢ <;> omega
    -- what a further part of the loop leaves, on top of this pulse
    have hcells : ∀ (m : Nat) (x : StorageArray → Nat → Byte) ,
        (∀ a' n, x a' n = if (ps.take m).any id = true ∧ a' = a ∧ n = addr.toNat then
          s.pulseOnce.readCell a' n ||| bitMask bit.toNat else s.pulseOnce.readCell a' n) →
        ∀ a' n, x a' n = if ((p :: ps).take (m + 1)).any id = true ∧ a' = a ∧ n = addr.toNat then
          s.readCell a' n ||| bitMask bit.toNat else s.readCell a' n := by
      intro m x hx a' n
      rw [hx, u7]
      cases p <;> cases h2 : (ps.take m).any id <;> simp [h2, List.any_cons]
      by_cases h3 : a' = a ∧ n = addr.toNat
      · simp [h3, BitVec.or_assoc]
      · simp only [h3, if_false]
        exact fun e1 e2 => absurd ⟨e1, e2⟩ h3
    simp only [legacyLoop]
    by_cases h4 : minPulses ≤ k
    · rw [if_pos h4]
      obtain ⟨rs2, hrs2, hrs2'⟩ : ∃ rs2, rs = true :: true :: rs2 ∧ ∀ j < R + 3 * left, rs2[j]? = some true := by
        have e0 := hrs' 0 (by omega)
        have e1 := hrs' 1 (by omega)
        rcases rs with _ | ⟨x, _ | ⟨y, ys⟩⟩
        · simp at e0
        · simp at e1
        · simp at e0 e1
          subst e0 e1
          exact ⟨ys, rfl, fun j hj => by simpa using hrs' (j + 2) (by omega)⟩
      subst hrs2
      obtain ⟨v1, v2, v3, v4, -, v6⟩ := readByteBody_listed (s := s.pulseOnce) (a := a) (addr := addr)
        hd1.2.2 u1 hread1
      have hb : (readByteBody a addr s.pulseOnce).byte.getLsbD bit.toNat = (s.fuseBit a addr bit || p) := by
        rw [v2]; exact hbit
      have vp := readByteBody_pulseCount a addr s.pulseOnce u6
      simp only [bitIsProgrammedBody, hb]
      cases hbp : (s.fuseBit a addr bit || p) with
      | true =>
        have hm1 : legacyPulses (s.fuseBit a addr bit) k (left + 1) (p :: ps) = 1 := by
          have : minPulses = 4 := rfl
          simp only [legacyPulses, List.findIdx_cons, id]
          cases h1 : s.fuseBit a addr bit <;> cases p <;> simp [h1] at hbp ⊢ <;> omega
        rw [hm1]
        simp only [if_true]
        refine ⟨?_, fun j hj => by rw [v3]; exact hrs2' j (by omega), by rw [v4, u2]; rfl, by rw [vp, u4], ?_⟩
        · rw [List.take_succ_cons, List.any_cons, id, ← Bool.or_assoc, hbp, Bool.true_or]; rfl
        · exact hcells 0 _ (fun a' n => by rw [v6]; simp)
      | false =>
        rw [if_neg (by simp)]
        have hf2 := OtpFrame.readByteBody a addr s.pulseOnce
        have hbit2 : (readByteBody a addr s.pulseOnce).state.fuseBit a addr bit = false := by
          simp only [State.fuseBit, v6]
          rw [← hbp]; exact hbit
        obtain ⟨i1, i2, i3, i4, i5⟩ := ih (k + 1) (s := (readByteBody a addr s.pulseOnce).state)
          (hp.pulseOnce.readByteBody) ((State.commandReady_congr hf2.cfg hf2.magic).2 hc1)
          (by rw [hf2.cfg]; exact hd1)
          (by rw [State.readable_congr hf2.keyAccessDisabled hf2.locks]; exact hread1)
          (by rw [v3]; exact hrs2') (by rw [v4, u2]; exact hps1) (by omega) (fun _ => hbit2)
        rw [hbit2, v4, u2] at i1 i3 i4 i5
        rw [hm false hbp.symm (fun _ => rfl)]
        have hb1 : s.fuseBit a addr bit = false ∧ p = false := by simpa using hbp
        refine ⟨?_, i2, i3, ?_, ?_⟩
        · rw [i1]; simp [hb1.1, hb1.2]
        · rw [i4, vp, u4]; omega
        · refine hcells _ _ (fun a' n => ?_)
          rw [i5, v6]
    · rw [if_neg h4]
      have : minPulses = 4 := rfl
      obtain ⟨i1, i2, i3, i4, i5⟩ := ih (k + 1) (s := s.pulseOnce) hp.pulseOnce hc1 hd1 hread1
        (by rw [u1]; exact fun j hj => hrs' j (by omega)) (by rw [u2]; exact hps1) (by omega)
        (fun h => by omega)
      rw [hbit, u2] at i1 i3 i4 i5
      rw [hm _ rfl (fun h => by omega)]
      refine ⟨?_, i2, i3, ?_, hcells _ _ i5⟩
      · rw [i1, List.take_succ_cons, List.any_cons, id, Bool.or_assoc]
      · rw [i4, u4]; omega

/-- A legacy program transaction with listed answers (R182). -/
theorem programBitLegacy_draws {s : State} {a : StorageArray} {addr : ByteAddr} {bit : BitPos}
    (R : Nat) (hc : s.commandReady) (hd : s.cfg.DistinctCommands)
    (hread : s.readable a addr.toNat = true) (hr : s.readyFor (R + 60))
    (hps : 20 ≤ s.draws.pulse.length) :
    (programBitLegacy a addr bit s).1 =
      Status.ofSuccess (s.fuseBit a addr bit || (s.draws.pulse.take 20).any id) ∧
    (programBitLegacy a addr bit s).2.readyFor R ∧
    (programBitLegacy a addr bit s).2.draws.pulse =
      s.draws.pulse.drop (legacyPulses (s.fuseBit a addr bit) 1 20 s.draws.pulse) ∧
    (programBitLegacy a addr bit s).2.pulseCount =
      s.pulseCount + legacyPulses (s.fuseBit a addr bit) 1 20 s.draws.pulse ∧
    ∀ a' n, (programBitLegacy a addr bit s).2.readCell a' n =
      if (s.draws.pulse.take (legacyPulses (s.fuseBit a addr bit) 1 20 s.draws.pulse)).any id = true
          ∧ a' = a ∧ n = addr.toNat then s.readCell a' n ||| bitMask bit.toNat
      else s.readCell a' n := by
  have h0 := State.startProgram_pointed a addr bit s
  have hs : ((s.startProgram a addr bit).writeInProg true).Pointed a addr bit :=
    ⟨h0.arr, h0.byteAddr, h0.bitPos⟩
  have hcell0 : ∀ a' n, ((s.startProgram a addr bit).writeInProg true).readCell a' n =
      s.readCell a' n :=
    fun a' n => State.readCell_congr (by simp [State.startProgram]) (by simp [State.startProgram])
      (by simp [State.startProgram]) a' n
  have hbit0 : ((s.startProgram a addr bit).writeInProg true).fuseBit a addr bit =
      s.fuseBit a addr bit := by simp only [State.fuseBit, hcell0]
  obtain ⟨i1, i2, i3, i4, i5⟩ := legacyLoop_listed 20 1 R hs
    ((State.commandReady_congr (by simp [State.startProgram]) (by simp [State.startProgram])).2 hc)
    (by simpa [State.startProgram] using hd)
    (by
      rw [State.readable_congr (s := s) (by simp [State.startProgram]) (by simp [State.startProgram])]
      exact hread)
    (by simpa [State.startProgram] using hr) (by simpa [State.startProgram] using hps) (by decide)
    (fun h => by cases h)
  rw [hbit0, show ((s.startProgram a addr bit).writeInProg true).draws = s.draws by
    simp [State.startProgram]] at i1 i3 i4 i5
  rw [show ((s.startProgram a addr bit).writeInProg true).pulseCount = s.pulseCount by
    simp [State.startProgram]] at i4
  simp only [programBitLegacy, show maxPulses = 20 from rfl]
  refine ⟨i1, by simpa [State.readyFor] using i2, by simpa using i3, by simpa using i4, fun a' n => ?_⟩
  rw [← hcell0, ← i5]
  exact State.readCell_congr (by simp) (by simp) (by simp) a' n

/-- Whether one of the next `m` pulses burns is told by where the first that does stands. -/
theorem any_take_eq (ps : List Bool) (m : Nat) :
    (ps.take m).any id = decide (ps.findIdx id < min m ps.length) := by
  induction ps generalizing m with
  | nil => simp
  | cons p ps ih =>
    cases m with
    | zero => simp
    | succ m =>
      simp only [List.take_succ_cons, List.any_cons, id, ih, List.findIdx_cons, List.length_cons]
      cases p <;> simp

/-- A program transaction of a bit that is 0, with listed answers (R180, R182). -/
theorem programBitAlgo_draws {s : State} {a : StorageArray} {addr : ByteAddr} {bit : BitPos}
    (R : Nat) (hc : s.commandReady) (hd : s.cfg.DistinctCommands)
    (hread : s.readable a addr.toNat = true) (hr : s.readyFor (R + 60))
    (hps : 20 ≤ s.draws.pulse.length) (hz : s.fuseBit a addr bit = false) :
    (programBitAlgo a addr bit s).1 = Status.ofSuccess
      ((s.draws.pulse.take (s.cfg.progAlgo.pulsesFor s.draws.pulse)).any id) ∧
    (programBitAlgo a addr bit s).2.readyFor R ∧
    (programBitAlgo a addr bit s).2.draws.pulse =
      s.draws.pulse.drop (s.cfg.progAlgo.pulsesFor s.draws.pulse) ∧
    (programBitAlgo a addr bit s).2.readCell a addr.toNat =
      s.readCell a addr.toNat |||
        (if (s.draws.pulse.take (s.cfg.progAlgo.pulsesFor s.draws.pulse)).any id = true then
          bitMask bit.toNat else 0) := by
  cases h : s.cfg.progAlgo with
  | smart =>
    have e : programBitAlgo a addr bit s = programBitSmart a addr bit s := by
      simp only [programBitAlgo, h]
    obtain ⟨rs1, h1, h1'⟩ := State.readyFor_succ (n := R + 59) hr
    obtain ⟨rs, rfl⟩ : ∃ rs, rs1 = true :: true :: rs := by
      have e0 := h1' 0 (by omega)
      have e1 := h1' 1 (by omega)
      rcases rs1 with _ | ⟨x, _ | ⟨y, ys⟩⟩ <;> simp_all
    obtain ⟨p, ps, hpp⟩ : ∃ p ps, s.draws.pulse = p :: ps := by
      cases h : s.draws.pulse with
      | nil => simp [h] at hps
      | cons p ps => exact ⟨p, ps, rfl⟩
    obtain ⟨u1, u2, u3, -, -, -, u7⟩ := programBitSmart_listed (bit := bit) hc hd h1 hpp hread
    rw [e, hpp]
    refine ⟨?_, ?_, by rw [u3]; rfl, ?_⟩
    · rw [u1, hz]; simp [ProgAlgo.pulsesFor]
    · intro j hj
      rw [u2]
      have := h1' (j + 2) (by omega)
      simpa using this
    · rw [u7]; cases p <;> simp [ProgAlgo.pulsesFor]
  | legacy =>
    have e : programBitAlgo a addr bit s = programBitLegacy a addr bit s := by
      simp only [programBitAlgo, h]
    obtain ⟨i1, i2, i3, -, i5⟩ := programBitLegacy_draws (bit := bit) R hc hd hread hr hps
    have hm : legacyPulses (s.fuseBit a addr bit) 1 20 s.draws.pulse =
        ProgAlgo.legacy.pulsesFor s.draws.pulse := by
      rw [hz]
      simp only [legacyPulses, ProgAlgo.pulsesFor, Bool.false_eq_true, if_false]
      omega
    have ha : (s.draws.pulse.take 20).any id =
        (s.draws.pulse.take (ProgAlgo.legacy.pulsesFor s.draws.pulse)).any id := by
      simp only [any_take_eq, ProgAlgo.pulsesFor, decide_eq_decide]
      omega
    rw [hm] at i3 i5
    rw [e, ← ha]
    refine ⟨by rw [i1, hz, Bool.false_or], i2, i3, ?_⟩
    rw [i5, ← ha]
    split_ifs <;> simp_all

/-- Only bits at the listed positions are burnt. -/
theorem burntBits_bit (al : ProgAlgo) (tp : Byte) (bs : List BitPos) (ps : List Bool) (b : BitPos)
    (h : b ∉ bs) : (burntBits al tp bs ps).getLsbD b.toNat = false := by
  induction bs generalizing ps with
  | nil => simp [burntBits]
  | cons c bs ih =>
    simp only [List.mem_cons, not_or] at h
    have hne : ((1#8 <<< c.toNat : Byte)).getLsbD b.toNat = false := by
      have := bitMask_bit (i := c.toNat) (j := b.toNat) b.isLt
      rw [show (1#8 <<< c.toNat : Byte) = bitMask c.toNat from rfl, this]
      simpa using fun e => h.1 (BitVec.eq_of_toNat_eq e)
    simp only [burntBits]
    split_ifs
    · rw [BitVec.getLsbD_or, hne, ih _ h.2, Bool.or_false]
    · rw [BitVec.getLsbD_or, ih _ h.2]; simp
    · exact ih _ h.2

/-- The loop of PROGRAM_BYTE with listed answers (R184): every bit is attempted, and the status is Ok
if it was and every bit asked for is 1 in the end. -/
theorem programBits_draws {a : StorageArray} {addr : ByteAddr} {tp : Byte} (bs : List BitPos)
    {st : Status} {s : State} (hst : st = .ok ∨ st = .hardwareError) (hc : s.commandReady)
    (hd : s.cfg.DistinctCommands) (hread : s.readable a addr.toNat = true)
    (hr : s.readyFor (60 * bs.length)) (hps : 20 * bs.length ≤ s.draws.pulse.length)
    (hnd : bs.Nodup) (hz : ∀ b ∈ bs, tp.getLsbD b.toNat = true → s.fuseBit a addr b = false) :
    (programBits a addr tp bs st s).2.readCell a addr.toNat =
      s.readCell a addr.toNat ||| burntBits s.cfg.progAlgo tp bs s.draws.pulse ∧
    (programBits a addr tp bs st s).1 =
      if st = .ok ∧ ∀ b ∈ bs, tp.getLsbD b.toNat = true →
        (s.readCell a addr.toNat ||| burntBits s.cfg.progAlgo tp bs s.draws.pulse).getLsbD b.toNat = true
      then .ok else .hardwareError := by
  induction bs generalizing st s with
  | nil =>
    rcases hst with rfl | rfl <;> simp [programBits, burntBits]
  | cons b bs ih =>
    obtain ⟨hnb, hnd'⟩ := List.nodup_cons.1 hnd
    simp only [List.length_cons] at hr hps
    simp only [programBits, burntBits]
    by_cases hb : tp.getLsbD b.toNat = true
    · simp only [hb, if_true]
      have e : programBitBody a addr b false s = programBitAlgo a addr b s := by
        simp only [programBitBody, Bool.false_eq_true, if_false]
      have hf := OtpFrame.programBitBody a addr b false s
      obtain ⟨i1, i2, i3, i4⟩ := programBitAlgo_draws (bit := b) (60 * bs.length) hc hd hread
        (by simpa [Nat.mul_add] using hr) (by omega) (hz b (by simp) hb)
      have hn : s.cfg.progAlgo.pulsesFor s.draws.pulse ≤ 20 := by
        cases s.cfg.progAlgo <;> simp only [ProgAlgo.pulsesFor] <;> omega
      rw [← e] at i1 i2 i3 i4
      have hzb : s.fuseBit a addr b = false := hz b (by simp) hb
      have hst2 := programBitBody_status a addr b s false
      obtain ⟨r1, r2⟩ := ih (st := Status.worst st (programBitBody a addr b false s).1)
        (s := (programBitBody a addr b false s).2)
        (by
          rcases hst with rfl | rfl <;> rcases hst2 with h | h <;> rw [h] <;>
            simp [Status.worst, Status.severity])
        ((State.commandReady_congr hf.cfg hf.magic).2 hc) (by rw [hf.cfg]; exact hd)
        (by rw [State.readable_congr hf.keyAccessDisabled hf.locks]; exact hread) i2
        (by rw [i3, List.length_drop]; omega) hnd'
        (by
          intro b' hb' ht
          have hne : b' ≠ b := fun h => hnb (h ▸ hb')
          have h0 := hz b' (by simp [hb']) ht
          simp only [State.fuseBit] at h0 ⊢
          rw [i4, BitVec.getLsbD_or, h0, Bool.false_or]
          split_ifs
          · rw [bitMask_bit b'.isLt]
            simpa using fun e => hne (BitVec.eq_of_toNat_eq e)
          · simp)
      rw [hf.cfg, i3, i4] at r1 r2
      rw [BitVec.or_assoc] at r1 r2
      refine ⟨r1, ?_⟩
      rw [r2]
      have hbit : ((s.readCell a addr.toNat) |||
          ((if (s.draws.pulse.take (s.cfg.progAlgo.pulsesFor s.draws.pulse)).any id = true then
            bitMask b.toNat else 0) |||
            burntBits s.cfg.progAlgo tp bs
              (s.draws.pulse.drop (s.cfg.progAlgo.pulsesFor s.draws.pulse)))).getLsbD b.toNat =
          (s.draws.pulse.take (s.cfg.progAlgo.pulsesFor s.draws.pulse)).any id := by
        have h0 : (s.readCell a addr.toNat).getLsbD b.toNat = false := hzb
        rw [BitVec.getLsbD_or, BitVec.getLsbD_or, h0, burntBits_bit _ _ _ _ _ hnb]
        split_ifs with h
        · rw [bitMask_self, h]; rfl
        · simp [Bool.eq_false_iff.2 h]
      refine if_congr ?_ rfl rfl
      simp only [List.forall_mem_cons, hb, true_implies]
      rw [show ((1#8 <<< b.toNat : Byte)) = bitMask b.toNat from rfl, hbit, i1]
      rcases hst with rfl | rfl <;>
        cases (s.draws.pulse.take (s.cfg.progAlgo.pulsesFor s.draws.pulse)).any id <;>
        simp [Status.worst, Status.severity, Status.ofSuccess]
    · simp only [hb, Bool.false_eq_true, if_false]
      obtain ⟨r1, r2⟩ := ih hst hc hd hread (fun j hj => hr j (by omega)) (by omega) hnd'
        (fun b' hb' => hz b' (by simp [hb']))
      refine ⟨r1, ?_⟩
      rw [r2]
      refine if_congr ?_ rfl rfl
      simp [hb]

end Sys2Proof.Machine
end

