-- ==== Sys2Proof/Laws/Gate.lean ====
section
/-! SUPPORT. The transactions read the lock registers and the key-access-disable bit only to tell whether
the addressed byte is readable, and never the delivered response (spec/42_access_gate.md R155,
spec/20_memory.md R68): they commute with a change of these. -/

open Sys2Proof

namespace Sys2Proof.Machine

/-- The state with other lock registers, another key-access-disable bit and another response. -/
def State.regated (s : State) (ls : List LockRegs) (dis : Bool) (r : Option Response) : State :=
  { s with locks := ls, keyAccessDisabled := dis, response := r }

section Regated

variable (ls : List LockRegs) (dis : Bool) (r : Option Response)

/-- Another lock state that leaves the byte as readable as it was. -/
def State.SameReadable (s : State) (ls : List LockRegs) (dis : Bool) (a : StorageArray)
    (addr : ByteAddr) : Prop :=
  State.readable { s with locks := ls, keyAccessDisabled := dis } a addr.toNat =
    s.readable a addr.toNat

theorem State.SameReadable.congr {s t : State} {ls : List LockRegs} {dis : Bool} {a : StorageArray}
    {addr : ByteAddr} (h : s.SameReadable ls dis a addr)
    (hk : t.keyAccessDisabled = s.keyAccessDisabled) (hl : t.locks = s.locks) :
    t.SameReadable ls dis a addr := by
  unfold State.SameReadable at *
  rw [State.readable_congr hk hl]
  exact h

theorem State.regated_burn (s : State) (a : StorageArray) (addr : ByteAddr) (b : BitPos) :
    (s.regated ls dis r).burn a addr b = (s.burn a addr b).regated ls dis r := by
  cases a <;> rfl

theorem State.regated_acceptPulse (s : State) :
    (s.regated ls dis r).acceptPulse = s.acceptPulse.regated ls dis r := by
  have h : (s.regated ls dis r).drawPulse = (s.drawPulse.1, s.drawPulse.2.regated ls dis r) := rfl
  simp only [State.acceptPulse, h, State.regated_burn]
  split_ifs <;> rfl

theorem State.regated_writeCmd (s : State) (v : RegWord) :
    (s.regated ls dis r).writeCmd v = (s.writeCmd v).regated ls dis r := by
  have h : (((s.regated ls dis r).access.setArmed false).countPulse) =
      ((s.access.setArmed false).countPulse).regated ls dis r := rfl
  simp only [State.writeCmd, h, State.regated_acceptPulse]
  rw [show (s.regated ls dis r).cfg = s.cfg from rfl, show (s.regated ls dis r).regs = s.regs from rfl]
  split_ifs <;> rfl

theorem State.regated_issuePulse (s : State) :
    (s.regated ls dis r).issuePulse = s.issuePulse.regated ls dis r := by
  have hw : ∀ u : State, (u.regated ls dis r).warn .magicMismatch =
      (u.warn .magicMismatch).regated ls dis r := fun _ => rfl
  simp only [State.issuePulse]
  rw [show (s.regated ls dis r).cfg = s.cfg from rfl,
    show (s.regated ls dis r).magic = s.magic from rfl, State.regated_writeCmd, hw]
  split_ifs <;> rw [State.regated_writeCmd]

theorem State.regated_waitReady (s : State) (n : Nat) :
    (s.regated ls dis r).waitReady n = ((s.waitReady n).1, (s.waitReady n).2.regated ls dis r) := by
  induction n generalizing s with
  | zero => rfl
  | succ n ih =>
    have h : (s.regated ls dis r).readRdy = (s.readRdy.1, s.readRdy.2.regated ls dis r) := rfl
    simp only [State.waitReady, h]
    split_ifs
    · rfl
    · exact ih _

theorem State.regated_pulseOnce (s : State) :
    (s.regated ls dis r).pulseOnce = s.pulseOnce.regated ls dis r := by
  have hs : ∀ (u : State) (f : Fsm), (u.regated ls dis r).setFsm f = (u.setFsm f).regated ls dis r :=
    fun _ _ => rfl
  simp only [State.pulseOnce, hs, State.regated_issuePulse, State.regated_waitReady]

theorem State.regated_startRead (s : State) (a : StorageArray) (addr : ByteAddr) :
    (s.regated ls dis r).startRead a addr = (s.startRead a addr).regated ls dis r := by
  have h : (((s.regated ls dis r).setFsm .addressing).writeArr a).writeByteAddr addr =
      (((s.setFsm .addressing).writeArr a).writeByteAddr addr).regated ls dis r := rfl
  simp only [State.startRead, h, State.regated_writeCmd]
  rfl

theorem State.regated_readValue {s : State} {a : StorageArray} {addr : ByteAddr}
    (h : s.SameReadable ls dis a addr) (s1 s2 : Status) :
    (s.regated ls dis r).readValue a addr s1 s2 =
      ((s.readValue a addr s1 s2).1, (s.readValue a addr s1 s2).2.regated ls dis r) := by
  have hr : (s.regated ls dis r).readable a addr.toNat = s.readable a addr.toNat := h
  simp only [State.readValue, hr]
  split_ifs <;> rfl

/-- A read transaction commutes with a change of the locks that leaves its byte as readable. -/
theorem readByteBody_regated {s : State} {a : StorageArray} {addr : ByteAddr}
    (h : s.SameReadable ls dis a addr) :
    readByteBody a addr (s.regated ls dis r) =
      ⟨(readByteBody a addr s).status, (readByteBody a addr s).byte,
        (readByteBody a addr s).state.regated ls dis r⟩ := by
  simp only [readByteBody, State.regated_waitReady, State.regated_startRead]
  rw [State.regated_readValue ls dis r (h.congr (by simp) (by simp))]
  rfl

theorem bitIsProgrammedBody_regated {s : State} {a : StorageArray} {addr : ByteAddr} (bit : BitPos)
    (h : s.SameReadable ls dis a addr) :
    bitIsProgrammedBody a addr bit (s.regated ls dis r) =
      ((bitIsProgrammedBody a addr bit s).1, (bitIsProgrammedBody a addr bit s).2.regated ls dis r) := by
  simp only [bitIsProgrammedBody, readByteBody_regated ls dis r h]

theorem programBitSmart_regated {s : State} {a : StorageArray} {addr : ByteAddr} (bit : BitPos)
    (h : s.SameReadable ls dis a addr) :
    programBitSmart a addr bit (s.regated ls dis r) =
      ((programBitSmart a addr bit s).1, (programBitSmart a addr bit s).2.regated ls dis r) := by
  have h0 : ((s.regated ls dis r).startProgram a addr bit).writeSmart true =
      ((s.startProgram a addr bit).writeSmart true).regated ls dis r := rfl
  have h1 : ∀ u : State, (u.regated ls dis r).writeSmart false = (u.writeSmart false).regated ls dis r :=
    fun _ => rfl
  have hf := OtpFrame.pulseOnce ((s.startProgram a addr bit).writeSmart true)
  have h2 : (((s.startProgram a addr bit).writeSmart true).pulseOnce.writeSmart
      false).SameReadable ls dis a addr :=
    h.congr (by simpa [State.startProgram] using hf.keyAccessDisabled)
      (by simpa [State.startProgram] using hf.locks)
  simp only [programBitSmart, h0, State.regated_pulseOnce, h1, bitIsProgrammedBody_regated ls dis r bit h2]
  rfl

theorem legacyLoop_regated {s : State} {a : StorageArray} {addr : ByteAddr} (bit : BitPos)
    (k left : Nat) (h : s.SameReadable ls dis a addr) :
    legacyLoop a addr bit (s.regated ls dis r) k left =
      ((legacyLoop a addr bit s k left).1, (legacyLoop a addr bit s k left).2.regated ls dis r) := by
  induction left generalizing s k with
  | zero => rfl
  | succ left ih =>
    have hf := OtpFrame.pulseOnce s
    have h1 := h.congr hf.keyAccessDisabled hf.locks
    have hf2 := OtpFrame.readByteBody a addr s.pulseOnce
    simp only [legacyLoop, State.regated_pulseOnce, bitIsProgrammedBody_regated ls dis r bit h1]
    split_ifs
    · rfl
    · exact ih (k + 1) (h1.congr hf2.keyAccessDisabled hf2.locks)
    · exact ih (k + 1) h1

theorem programBitLegacy_regated {s : State} {a : StorageArray} {addr : ByteAddr} (bit : BitPos)
    (h : s.SameReadable ls dis a addr) :
    programBitLegacy a addr bit (s.regated ls dis r) =
      ((programBitLegacy a addr bit s).1, (programBitLegacy a addr bit s).2.regated ls dis r) := by
  have h0 : ((s.regated ls dis r).startProgram a addr bit).writeInProg true =
      ((s.startProgram a addr bit).writeInProg true).regated ls dis r := rfl
  have h1 : ((s.startProgram a addr bit).writeInProg true).SameReadable ls dis a addr :=
    h.congr (by simp [State.startProgram]) (by simp [State.startProgram])
  simp only [programBitLegacy, h0, legacyLoop_regated ls dis r bit 1 maxPulses h1]
  generalize legacyLoop a addr bit _ 1 maxPulses = x
  rfl

theorem programBitAlgo_regated {s : State} {a : StorageArray} {addr : ByteAddr} (bit : BitPos)
    (h : s.SameReadable ls dis a addr) :
    programBitAlgo a addr bit (s.regated ls dis r) =
      ((programBitAlgo a addr bit s).1, (programBitAlgo a addr bit s).2.regated ls dis r) := by
  simp only [programBitAlgo, show (s.regated ls dis r).cfg = s.cfg from rfl]
  cases s.cfg.progAlgo
  · exact programBitSmart_regated ls dis r bit h
  · exact programBitLegacy_regated ls dis r bit h

theorem programBitBody_regated {s : State} {a : StorageArray} {addr : ByteAddr} (bit : BitPos)
    (vfy : Bool) (h : s.SameReadable ls dis a addr) :
    programBitBody a addr bit vfy (s.regated ls dis r) =
      ((programBitBody a addr bit vfy s).1, (programBitBody a addr bit vfy s).2.regated ls dis r) := by
  have hf := OtpFrame.readByteBody a addr s
  simp only [programBitBody, bitIsProgrammedBody_regated ls dis r bit h]
  split_ifs
  · rfl
  · exact programBitAlgo_regated ls dis r bit (h.congr hf.keyAccessDisabled hf.locks)
  · exact programBitAlgo_regated ls dis r bit h

theorem programBits_regated {s : State} {a : StorageArray} {addr : ByteAddr} (tp : Byte)
    (bs : List BitPos) (st : Status) (h : s.SameReadable ls dis a addr) :
    programBits a addr tp bs st (s.regated ls dis r) =
      ((programBits a addr tp bs st s).1, (programBits a addr tp bs st s).2.regated ls dis r) := by
  induction bs generalizing s st with
  | nil => rfl
  | cons b bs ih =>
    have hf := OtpFrame.programBitBody a addr b false s
    simp only [programBits, programBitBody_regated ls dis r b false h]
    split_ifs
    · exact ih _ (h.congr hf.keyAccessDisabled hf.locks)
    · exact ih _ h

/-- PROGRAM_BYTE commutes with a change of the locks that leaves its byte as readable. -/
theorem programByteBody_regated {s : State} {a : StorageArray} {addr : ByteAddr} (val : Byte)
    (h : s.SameReadable ls dis a addr) :
    programByteBody a addr val (s.regated ls dis r) =
      ((programByteBody a addr val s).1, (programByteBody a addr val s).2.regated ls dis r) := by
  have hf := OtpFrame.readByteBody a addr s
  simp only [programByteBody, readByteBody_regated ls dis r h]
  exact programBits_regated ls dis r _ _ _ (h.congr hf.keyAccessDisabled hf.locks)

end Regated

end Sys2Proof.Machine
end

