-- ==== Sys2Proof/Laws/Magic.lean ====
section
/-! SUPPORT. A program operation with a wrong magic word (spec/45_magic_word.md R263,
spec/43_otp_fsm.md R175): no fuse is burnt, the mismatch is logged, the pulse is issued. -/

open Sys2Proof

namespace Sys2Proof.Machine

section Wrong

variable (a : StorageArray) (addr : ByteAddr) (bit : BitPos)

theorem legacyLoop_wrong (s : State) (k left : Nat) (hd : s.cfg.DistinctCommands)
    (hw : s.pulseWord ≠ s.cfg.progCmd) :
    (legacyLoop a addr bit s k left).2.key = s.key ∧
    (legacyLoop a addr bit s k left).2.fuse = s.fuse := by
  induction left generalizing s k with
  | zero => exact ⟨rfl, rfl⟩
  | succ left ih =>
    have h1 := State.pulseOnce_wrong s hw
    have h2 := readByteBody_arrays a addr s.pulseOnce (.inl (by simpa using hd.2.2))
    simp only [legacyLoop]
    split_ifs
    · exact ⟨h2.1.trans h1.1, h2.2.trans h1.2⟩
    · have := ih (readByteBody a addr s.pulseOnce).state (k + 1) (by simpa using hd)
        (by simpa [State.pulseWord] using hw)
      exact ⟨this.1.trans (h2.1.trans h1.1), this.2.trans (h2.2.trans h1.2)⟩
    · have := ih s.pulseOnce (k + 1) (by simpa using hd) (by simpa using hw)
      exact ⟨this.1.trans h1.1, this.2.trans h1.2⟩

/-- A program transaction whose pulses do not carry PROG_CMD changes no array. -/
theorem programBitAlgo_wrong (s : State) (hd : s.cfg.DistinctCommands)
    (hw : s.pulseWord ≠ s.cfg.progCmd) :
    (programBitAlgo a addr bit s).2.key = s.key ∧ (programBitAlgo a addr bit s).2.fuse = s.fuse := by
  unfold programBitAlgo
  split
  · rw [programBitSmart_eq]
    have h1 := State.pulseOnce_wrong ((s.startProgram a addr bit).writeSmart true)
      (by simpa [State.pulseWord, State.startProgram] using hw)
    have h2 := readByteBody_arrays a addr (s.smartPulsed a addr bit) (.inl (by simpa using hd.2.2))
    simp only [State.setFsm_key, State.setFsm_fuse, h2.1, h2.2]
    simpa [State.smartPulsed, State.startProgram] using h1
  · simp only [programBitLegacy]
    have h1 := legacyLoop_wrong a addr bit ((s.startProgram a addr bit).writeInProg true) 1 maxPulses
      (by simpa [State.startProgram] using hd)
      (by simpa [State.pulseWord, State.startProgram] using hw)
    simp only [State.setFsm_key, State.setFsm_fuse, State.writeInProg_key, State.writeInProg_fuse,
      State.writeData_key, State.writeData_fuse, h1.1, h1.2]
    simp [State.startProgram]

theorem programBitBody_wrong (vfy : Bool) (s : State) (hd : s.cfg.DistinctCommands)
    (hw : s.pulseWord ≠ s.cfg.progCmd) :
    (programBitBody a addr bit vfy s).2.key = s.key ∧
    (programBitBody a addr bit vfy s).2.fuse = s.fuse := by
  have h2 := readByteBody_arrays a addr s (.inl hd.2.2)
  have h3 := programBitAlgo_wrong a addr bit (readByteBody a addr s).state (by simpa using hd)
    (by simpa [State.pulseWord] using hw)
  unfold programBitBody bitIsProgrammedBody
  dsimp only
  split_ifs
  · exact h2
  · exact ⟨h3.1.trans h2.1, h3.2.trans h2.2⟩
  · exact programBitAlgo_wrong a addr bit s hd hw

theorem programBits_wrong (tp : Byte) (bs : List BitPos) (st : Status) (s : State)
    (hd : s.cfg.DistinctCommands) (hw : s.pulseWord ≠ s.cfg.progCmd) :
    (programBits a addr tp bs st s).2.key = s.key ∧
    (programBits a addr tp bs st s).2.fuse = s.fuse := by
  induction bs generalizing s st with
  | nil => exact ⟨rfl, rfl⟩
  | cons b bs ih =>
    have h1 := programBitBody_wrong a addr b false s hd hw
    have hf := OtpFrame.programBitBody a addr b false s
    simp only [programBits]
    split_ifs
    · have := ih (Status.worst st (programBitBody a addr b false s).1)
        (programBitBody a addr b false s).2 (by rw [hf.cfg]; exact hd)
        (by simpa [State.pulseWord, hf.cfg, hf.magic] using hw)
      exact ⟨this.1.trans h1.1, this.2.trans h1.2⟩
    · exact ih st s hd hw

/-- A mismatch was logged on the way from `s` to `t`, and a pulse-command write made, a magic word equal
to ARM_VALUE apart (log entry 22). -/
structure Mismatched (s t : State) : Prop where
  logged : ∃ n, 0 < n ∧ t.warnLog = s.warnLog ++ List.replicate n .magicMismatch
  pulsed : s.magic ≠ s.cfg.armValue → s.pulseCount < t.pulseCount

theorem Mismatched.trans {s t u : State} (h : Mismatched s t) (hf : OtpFrame t u) :
    Mismatched s u := by
  obtain ⟨n, hn, h1⟩ := h.logged
  obtain ⟨m, hm⟩ := hf.warnings
  refine ⟨⟨n + m, by omega, ?_⟩, fun hw => (h.pulsed hw).trans_le hf.pulses⟩
  rw [hm, h1, List.append_assoc, ← List.replicate_add]

theorem Mismatched.afterRead {s u : State}
    (h : Mismatched (readByteBody a addr s).state u) : Mismatched s u := by
  have hf := OtpFrame.readByteBody a addr s
  refine ⟨by simpa using h.logged, fun hw => hf.pulses.trans_lt (h.pulsed ?_)⟩
  rw [hf.cfg, hf.magic]
  exact hw

variable {s : State} (hc : s.cfg.magicCap = true) (hm : s.magic ≠ s.cfg.progCmd)

include hc hm

/-- A pulse with a wrong magic word, from a state that has logged and counted as much as `s`. -/
theorem Mismatched.pulseOnce {u : State} (h1 : u.cfg = s.cfg) (h2 : u.magic = s.magic)
    (h3 : u.warnLog = s.warnLog) (h4 : u.pulseCount = s.pulseCount) : Mismatched s u.pulseOnce := by
  have hmm : u.mismatch = true := by simp [State.mismatch, h1, h2, hc, hm]
  refine ⟨⟨1, Nat.one_pos, ?_⟩, fun hw => ?_⟩
  · rw [State.pulseOnce_warnLog, hmm, h3]
    rfl
  · have := State.pulseOnce_pulseCount u (by simpa [State.pulseWord, h1, h2, hc] using hw)
    omega

theorem programBitAlgo_mismatched : Mismatched s (programBitAlgo a addr bit s).2 := by
  unfold programBitAlgo
  split
  · have h := Mismatched.pulseOnce hc hm (u := (s.startProgram a addr bit).writeSmart true)
      (by simp [State.startProgram]) (by simp [State.startProgram]) (by simp [State.startProgram])
      (by simp [State.startProgram])
    simp only [programBitSmart, bitIsProgrammedBody]
    exact h.trans (((OtpFrame.writeSmart _ _).trans (OtpFrame.readByteBody a addr _)).trans
      (OtpFrame.setFsm _ _))
  · have h := Mismatched.pulseOnce hc hm (u := (s.startProgram a addr bit).writeInProg true)
      (by simp [State.startProgram]) (by simp [State.startProgram]) (by simp [State.startProgram])
      (by simp [State.startProgram])
    simp only [programBitLegacy]
    refine Mismatched.trans (t := (legacyLoop a addr bit ((s.startProgram a addr bit).writeInProg
      true) 1 maxPulses).2) ?_ (((OtpFrame.writeData _ _).trans (OtpFrame.writeInProg _ _)).trans
        (OtpFrame.setFsm _ _))
    rw [show maxPulses = 19 + 1 from rfl, legacyLoop, if_neg (by decide)]
    exact h.trans (OtpFrame.legacyLoop a addr bit _ _ _)

/-- The loop of PROGRAM_BYTE, where some bit is asked for. -/
theorem programBits_mismatched {tp : Byte} {bs : List BitPos} (st : Status)
    (hb : ∃ b ∈ bs, tp.getLsbD b.toNat = true) :
    Mismatched s (programBits a addr tp bs st s).2 := by
  induction bs with
  | nil => simp at hb
  | cons b bs ih =>
    have e : programBitBody a addr b false s = programBitAlgo a addr b s := by
      simp only [programBitBody, Bool.false_eq_true, if_false]
    simp only [programBits, e]
    split_ifs with h
    · exact (programBitAlgo_mismatched a addr b hc hm).trans (OtpFrame.programBits a addr tp bs _ _)
    · obtain ⟨c, hc1, hc2⟩ := hb
      rcases List.mem_cons.1 hc1 with rfl | hc1
      · exact absurd hc2 h
      · exact ih ⟨c, hc1, hc2⟩

end Wrong

end Sys2Proof.Machine
end

