-- ==== Sys2Proof/Laws/PerInstr.lean ====
section
/-! SUPPORT. Statements made once for each operation, about its encoding. -/

namespace Sys2Proof

/-- A word under the mask of its row: only its operation code is left, where all its bits lie inside
the format. -/
theorem CmdWord.and_mask (w m : CmdWord) (k : Nat)
    (hm : ∀ i < 64, m.getLsbD i = (decide (i < 8) || decide (k ≤ i))) (hw : w.toNat < 2 ^ k) :
    w &&& m = (CmdWord.op w).setWidth 64 := by
  apply BitVec.eq_of_getLsbD_eq
  intro i hi
  rw [BitVec.getLsbD_and, hm i hi, BitVec.getLsbD_setWidth]
  simp only [CmdWord.op, BitVec.getLsbD_extractLsb', hi, decide_true, Bool.true_and, Nat.zero_add]
  by_cases h8 : i < 8
  · simp [h8]
  · by_cases hk : k ≤ i
    · have : w.getLsbD i = false :=
        Nat.testBit_eq_false_of_lt (lt_of_lt_of_le hw (Nat.pow_le_pow_right (by decide) hk))
      simp [this, h8]
    · simp [h8, hk]

/-- The operation code of a word built with it at the bottom. -/
theorem CmdWord.op_plain {n : Nat} (x : BitVec n) (op : BitVec 8) (h : n + 8 ≤ 64) :
    CmdWord.op (Command.plain (x ++ op)).word = op := by
  apply BitVec.eq_of_toNat_eq
  have e : (CmdWord.op (Command.plain (x ++ op)).word).toNat =
      (Command.plain (x ++ op)).word.toNat % 2 ^ 8 := by
    simp [CmdWord.op, BitVec.extractLsb'_toNat]
  rw [e, Command.plain_word _ h, toNat_append_eq]
  have := op.isLt
  omega

/-- A command of a plain format is legal under its row. -/
theorem Command.plain_legal {n : Nat} (x : BitVec n) (op : BitVec 8) (r : OpcodeRow) (h : n + 8 ≤ 64)
    (hr : opcodeTable.find? (fun q => CmdWord.op q.code == op) = some r)
    (hc : r.code = op.setWidth 64)
    (hm : ∀ i < 64, r.mask.getLsbD i = (decide (i < 8) || decide (n + 8 ≤ i)))
    (hb : r.buffer = false) :
    (Command.plain (x ++ op)).wellFormed = true ∧
      (Command.plain (x ++ op)).row.map OpcodeRow.mnemonic = some r.mnemonic := by
  have hrow : (Command.plain (x ++ op)).row = some r := by
    unfold Command.row
    rw [CmdWord.op_plain x op h]
    exact hr
  have hw : (Command.plain (x ++ op)).word.toNat < 2 ^ (n + 8) := by
    rw [Command.plain_word _ h]
    exact (x ++ op).isLt
  have hmask := CmdWord.and_mask (Command.plain (x ++ op)).word r.mask (n + 8) hm hw
  rw [CmdWord.op_plain x op h, ← hc] at hmask
  constructor
  · simp only [Command.wellFormed, Command.codeKnown, Command.unassignedZero, Command.bufferFits, hrow,
      hmask, hb, Command.plain_buf]
    simp
  · rw [hrow]
    rfl

/-- A codec command is legal under its row. -/
theorem Command.buffered_legal (op : BitVec 8) (b : List Byte) (r : OpcodeRow)
    (hr : opcodeTable.find? (fun q => CmdWord.op q.code == CmdWord.op (op.setWidth 64)) = some r)
    (hc : op.setWidth 64 &&& r.mask = r.code) (hb : r.buffer = true) :
    (Command.buffered op b).wellFormed = true ∧
      (Command.buffered op b).row.map OpcodeRow.mnemonic = some r.mnemonic := by
  have hrow : (Command.buffered op b).row = some r := hr
  have hmask : (Command.buffered op b).word &&& r.mask = r.code := hc
  constructor
  · simp only [Command.wellFormed, Command.codeKnown, Command.unassignedZero, Command.bufferFits, hrow,
      hmask, hb]
    simp [Command.buffered]
  · rw [hrow]
    rfl

end Sys2Proof

namespace Sys2Proof.Laws.EncodeIsLegal

open Sys2Proof

/-- The encoding of an operation is a legal command (R84), in the row of its own mnemonic (R83). -/
def Statement (i : Instr) : Prop :=
  (encode i).wellFormed = true ∧ (encode i).row.map OpcodeRow.mnemonic = some i.mnemonic

theorem npEncode (buf : List Byte) : Statement (.npEncode buf) :=
  Command.buffered_legal 0x20#8 buf opcodeTable[0] (by decide) (by decide) rfl

theorem npDecode (buf : List Byte) : Statement (.npDecode buf) :=
  Command.buffered_legal 0x21#8 buf opcodeTable[1] (by decide) (by decide) rfl

theorem majEncode (buf : List Byte) : Statement (.majEncode buf) :=
  Command.buffered_legal 0x22#8 buf opcodeTable[2] (by decide) (by decide) rfl

theorem majDecode (buf : List Byte) : Statement (.majDecode buf) :=
  Command.buffered_legal 0x23#8 buf opcodeTable[3] (by decide) (by decide) rfl

theorem checkReadAllowed (blk : BitVec 8) : Statement (.checkReadAllowed blk) :=
  Command.plain_legal _ 0x10#8 opcodeTable[4] (by decide) (by decide) (by decide) (by decide) rfl

theorem checkWriteAllowed (blk : BitVec 8) : Statement (.checkWriteAllowed blk) :=
  Command.plain_legal _ 0x11#8 opcodeTable[5] (by decide) (by decide) (by decide) (by decide) rfl

theorem setBlockAccess (blk : BitVec 8) (lr lw lg : Bool) :
    Statement (.setBlockAccess blk lr lw lg) :=
  Command.plain_legal _ 0x12#8 opcodeTable[6] (by decide) (by decide) (by decide) (by decide) rfl

theorem waitReady (tmo : BitVec 32) : Statement (.waitReady tmo) :=
  Command.plain_legal _ 0x02#8 opcodeTable[7] (by decide) (by decide) (by decide) (by decide) rfl

theorem readByte (arr : StorageArray) (addr : ByteAddr) : Statement (.readByte arr addr) :=
  Command.plain_legal _ 0x03#8 opcodeTable[8] (by decide) (by decide) (by decide) (by decide) rfl

theorem bitIsProgrammed (arr : StorageArray) (addr : ByteAddr) (bit : BitPos) :
    Statement (.bitIsProgrammed arr addr bit) :=
  Command.plain_legal _ 0x04#8 opcodeTable[9] (by decide) (by decide) (by decide) (by decide) rfl

theorem programBit (arr : StorageArray) (addr : ByteAddr) (bit : BitPos) (vfy : Bool) :
    Statement (.programBit arr addr bit vfy) :=
  Command.plain_legal _ 0x05#8 opcodeTable[10] (by decide) (by decide) (by decide) (by decide) rfl

theorem programByte (arr : StorageArray) (addr : ByteAddr) (val : Byte) :
    Statement (.programByte arr addr val) :=
  Command.plain_legal _ 0x06#8 opcodeTable[11] (by decide) (by decide) (by decide) (by decide) rfl

theorem init (clk : BitVec 8) : Statement (.init clk) :=
  Command.plain_legal _ 0x01#8 opcodeTable[12] (by decide) (by decide) (by decide) (by decide) rfl

theorem readKey (kt : KeyType) (kidx : BitVec 8) : Statement (.readKey kt kidx) :=
  Command.plain_legal _ 0x30#8 opcodeTable[13] (by decide) (by decide) (by decide) (by decide) rfl

theorem selectKey (kidx : BitVec 8) : Statement (.selectKey kidx) :=
  Command.plain_legal _ 0x31#8 opcodeTable[14] (by decide) (by decide) (by decide) (by decide) rfl

theorem uploadKey (ksz kidx : BitVec 8) : Statement (.uploadKey ksz kidx) :=
  Command.plain_legal _ 0x32#8 opcodeTable[15] (by decide) (by decide) (by decide) (by decide) rfl

theorem disableKeyAccess : Statement .disableKeyAccess := by
  unfold Statement
  decide

theorem magicInit (imm : BitVec 32) : Statement (.magicInit imm) :=
  Command.plain_legal _ 0x40#8 opcodeTable[17] (by decide) (by decide) (by decide) (by decide) rfl

theorem magicAccumulate (imm : BitVec 32) : Statement (.magicAccumulate imm) :=
  Command.plain_legal _ 0x41#8 opcodeTable[18] (by decide) (by decide) (by decide) (by decide) rfl

theorem magicGet : Statement .magicGet := by
  unfold Statement
  decide

end Sys2Proof.Laws.EncodeIsLegal
end

