-- ==== Sys2Proof/Tests/Slice0.lean ====
section
/-! SUPPORT. The model's own tests. Expected values come from spec/95_test_vectors.md (their ids stand in the
comments) or are written out by hand from the rules; the witnesses at the end show that the premises
of each statement can be met. -/

namespace Sys2Proof.Tests

open Sys2Proof Sys2Proof.Machine

/-! ### Helpers -/

/-- The instance of the vectors (spec/95_test_vectors.md section 0) after `INIT`, byte 0x010 of
FuseArray at 0x0F, every listed draw 1 but for KVAL, which reads 0, 0, 1. -/
def bench (c : Config) : State :=
  { State.launch c with
    clkValid := true
    fuse := [(0x10, 0x0F)]
    draws :=
      { ready := List.replicate 50 true, pulse := List.replicate 32 true
        kval := [false, false, true], byte := [0x5C], drawn := 0 } }

/-- The vectors' instance with the legacy algorithm. -/
def legacy : Config := { Config.ref with progAlgo := .legacy }

/-- The vectors' instance with the magic word. -/
def magicCap : Config := { Config.ref with magicCap := true }

/-- Block 6, and with it key slot AES 0, locked for reading and register-locked. -/
def locked6 : List LockRegs := [⟨0x40, 0, 0x40⟩, ⟨0, 0, 0⟩, ⟨0, 0, 0⟩, ⟨0, 0, 0⟩, ⟨0, 0, 0⟩, ⟨0, 0, 0⟩]

/-- The next state of an outcome, if it is one. -/
def after (o : Host.Outcome State Fault Refusal) : Option State :=
  match o with
  | .next t => some t
  | .fault _ => none
  | .refused _ => none

/-- What an operation delivered, and how many accesses and pulses it had made. -/
def summary (o : Host.Outcome State Fault Refusal) : Option (Option Response × Nat × Nat) :=
  (after o).map fun t => (t.response, t.regAccessCount, t.pulseCount)

/-! ### Legality (R84): an ill-formed command for each check -/

theorem test_legal : Command.wellFormed ⟨0x3FC02106, none⟩ = true := by decide

/-- V-ENC-10. -/
theorem test_illegal_code : Command.codeKnown ⟨0x00, none⟩ = false ∧
    Command.wellFormed ⟨0x00, none⟩ = false := by decide

/-- V-ENC-11, V-ENC-12. -/
theorem test_illegal_bit : Command.unassignedZero ⟨0x133, none⟩ = false ∧
    Command.wellFormed ⟨0x133, none⟩ = false ∧ Command.wellFormed ⟨0x400003, none⟩ = false := by
  decide

/-- V-ENC-13, V-ENC-14. -/
theorem test_illegal_buffer : Command.bufferFits ⟨0x20, none⟩ = false ∧
    Command.wellFormed ⟨0x20, none⟩ = false ∧ Command.wellFormed ⟨0x03, some [1]⟩ = false := by decide

/-- R81, R85: an operand outside its range is no illegal encoding; a TMO of 0 is outside, a CLK of 0
is a byte as any other. -/
theorem test_source_range : Instr.inSourceRange Config.ref (.readKey .aes 4) = false ∧
    Instr.inSourceRange Config.ref (.readKey .aes 3) = true ∧
    Instr.inSourceRange Config.ref (.checkReadAllowed 48) = false ∧
    Instr.inSourceRange Config.ref (.waitReady 0) = false ∧
    Instr.inSourceRange Config.ref (.waitReady 1) = true ∧
    Instr.inSourceRange Config.ref (.init 0) = true ∧
    Command.wellFormed (encode (.readKey .aes 4)) = true := by decide

/-! ### Decoding, from words written out by hand from R82 and R83 -/

/-- OP 20 to 23, no field, a buffer. -/
theorem test_decode_codecs :
    decode ⟨0x20, some [7]⟩ = .ok (.npEncode [7]) ∧ decode ⟨0x21, some [7]⟩ = .ok (.npDecode [7]) ∧
    decode ⟨0x22, some [7]⟩ = .ok (.majEncode [7]) ∧ decode ⟨0x23, some []⟩ = .ok (.majDecode []) := by
  decide

/-- OP 10, 11, 12: BLK in bits 15:8; LR, LW, LG in bits 16, 17, 18 (V-ENC-7). -/
theorem test_decode_gate :
    decode ⟨0x0000000000000210, none⟩ = .ok (.checkReadAllowed 2) ∧
    decode ⟨0x000000000000FF11, none⟩ = .ok (.checkWriteAllowed 255) ∧
    decode ⟨0x0000000000050612, none⟩ = .ok (.setBlockAccess 6 true false true) ∧
    decode ⟨0x0000000000020612, none⟩ = .ok (.setBlockAccess 6 false true false) := by decide

/-- OP 01 to 06: TMO in 39:8; ARR in 8, ADDR in 21:9, BIT in 24:22, VFY in 25, VAL in 29:22
(V-ENC-1 to V-ENC-5, P4). -/
theorem test_decode_otp :
    decode ⟨0x0000000000007D01, none⟩ = .ok (.init 125) ∧
    decode ⟨0x0000000000100002, none⟩ = .ok (.waitReady 4096) ∧
    decode ⟨0x00000000003FFF03, none⟩ = .ok (.readByte .fuse 0x1FFF) ∧
    decode ⟨0x0000000001C20104, none⟩ = .ok (.bitIsProgrammed .fuse 0x100 7) ∧
    decode ⟨0x0000000003C20105, none⟩ = .ok (.programBit .fuse 0x100 7 true) ∧
    decode ⟨0x0000000001002105, none⟩ = .ok (.programBit .fuse 0x010 4 false) ∧
    decode ⟨0x00000000203FFE06, none⟩ = .ok (.programByte .key 8191 0x80) := by decide

/-- OP 30 to 33: KT in 8, KIDX in 16:9; KIDX in 15:8; KSZ in 15:8, KIDX in 23:16 (V-ENC-8, V-ENC-9,
V-ENC-15). -/
theorem test_decode_keys :
    decode ⟨0x0000000000001F30, none⟩ = .ok (.readKey .ecc 15) ∧
    decode ⟨0x0000000000000830, none⟩ = .ok (.readKey .aes 4) ∧
    decode ⟨0x0000000000000331, none⟩ = .ok (.selectKey 3) ∧
    decode ⟨0x0000000000022032, none⟩ = .ok (.uploadKey 32 2) ∧
    decode ⟨0x0000000000000033, none⟩ = .ok .disableKeyAccess := by decide

/-- OP 40 to 42: IMM in 39:8 (V-ENC-6). -/
theorem test_decode_magic :
    decode ⟨0x000000FFFFFFF040, none⟩ = .ok (.magicInit 0xFFFFFFF0) ∧
    decode ⟨0x000000000000EE41, none⟩ = .ok (.magicAccumulate 0xEE) ∧
    decode ⟨0x0000000000000042, none⟩ = .ok .magicGet := by decide

/-- The encoder on the spec's worked example (R89, V-ENC-1), and the text of R88. -/
theorem test_encode_example :
    encode (.programByte .fuse 0x010 0xFF) = ⟨0x000000003FC02106, none⟩ ∧
    Instr.asm (.programByte .fuse 0x010 0xFF) = "PROGRAM_BYTE FUSE, 16, 255" ∧
    Instr.asm .magicGet = "MAGIC_GET" := by decide +kernel

/-- A table word is the instruction itself; bits above the table's are 0; a codec gets an empty
buffer. -/
theorem test_table_word :
    decodeTableWord 64 0x3FC02106 = some (.programByte .fuse 0x010 0xFF) ∧
    decodeTableWord 64 0x20 = some (.npEncode []) ∧ decodeTableWord 64 0x133 = none := by decide

/-! ### The codecs -/

/-- R104: parity bit 4+k of NP_REF_ENC is the data bit k against the parity of the nibble, the data
stand below it; an entry of NP_REF_DEC that corrects nothing is 0xF above the byte's low nibble. -/
theorem test_np_ref :
    (∀ n : Nibble, (Config.ref.enc n).extractLsb' 0 4 = n ∧ ∀ k < 4, (Config.ref.enc n).getLsbD (4 + k) =
      (n.getLsbD k != ((List.range 4).countP (fun j => n.getLsbD j) % 2 == 1))) ∧
    ∀ e : Byte, Config.ref.decReport e = npSentinel → Config.ref.dec e = 0xF0 ||| (e &&& 0x0F) := by
  decide +kernel

/-- V-NP-3, V-NP-4. -/
theorem test_np_encode :
    summary (exec (.npEncode [0x12, 0x34]) (bench Config.ref)) =
      some (some ⟨.ok, .bytes [0xD2, 0xE1, 0xB4, 0x33]⟩, 0, 0) ∧
    summary (exec (.npEncode []) (bench Config.ref)) = some (some ⟨.ok, .bytes []⟩, 0, 0) := by
  decide +kernel

/-- V-NP-7, V-NP-8. -/
theorem test_np_decode :
    summary (exec (.npDecode [0x61, 0xD3]) (bench Config.ref)) =
      some (some ⟨.ok, .bytes [0x21]⟩, 0, 0) ∧
    summary (exec (.npDecode [0xA9, 0x55]) (bench Config.ref)) =
      some (some ⟨.badChecksum, .bytes [0x59]⟩, 0, 0) := by decide +kernel

/-- V-NP-12, V-NP-14. -/
theorem test_np_decode_corners :
    summary (exec (.npDecode [0x00, 0x00, 0xFF, 0x03]) (bench Config.ref)) =
      some (some ⟨.badChecksum, .bytes [0x00, 0x3F]⟩, 0, 0) ∧
    exec (.npDecode [0xAA, 0x55, 0x00]) (bench Config.ref) =
      .fault (.oddEncodedSize { bench Config.ref with faulted := true }) := by
  refine ⟨by decide +kernel, rfl⟩

/-- V-MAJ-1. -/
theorem test_maj_encode : summary (exec (.majEncode [0x12, 0x34]) (bench Config.ref)) =
    some (some ⟨.ok, .bytes [0x12, 0x34, 0x12, 0x34, 0x12, 0x34]⟩, 0, 0) := by decide

/-- V-MAJ-3, V-MAJ-4, V-MAJ-7. -/
theorem test_maj_decode :
    summary (exec (.majDecode [0x12, 0x34, 0xFF, 0x00, 0x12, 0x34]) (bench Config.ref)) =
      some (some ⟨.ok, .bytes [0x12, 0x34]⟩, 0, 0) ∧
    summary (exec (.majDecode [0x0F, 0xF0, 0x3C]) (bench Config.ref)) =
      some (some ⟨.ok, .bytes [0x3C]⟩, 0, 0) ∧
    summary (exec (.majDecode [0x01, 0x02, 0x03, 0x04]) (bench Config.ref)) =
      some (some ⟨.invalidParameter, .bytes []⟩, 0, 0) := by decide

/-! ### The access gate -/

/-- V-GATE-1. -/
theorem test_set_block_access :
    (after (exec (.setBlockAccess 6 true false true) (bench Config.ref))).map
      (fun t => (t.locks, t.regAccessCount)) = some (locked6, 4) := by decide

/-- V-GATE-2, V-GATE-7: a register-locked block, and the last block. -/
theorem test_set_block_access_edges :
    (after (exec (.setBlockAccess 6 false true false) { bench Config.ref with locks := locked6 })).map
      (fun t => (t.locks, t.regAccessCount)) = some (locked6, 2) ∧
    (after (exec (.setBlockAccess 47 false false true) (bench Config.ref))).map
      (fun t => t.lockRegs 5) = some ⟨0, 0, 0x80⟩ := by decide

/-- V-GATE-4. -/
theorem test_check_read_allowed :
    summary (exec (.checkReadAllowed 6) { bench Config.ref with locks := locked6 }) =
      some (some ⟨.ok, .flag false⟩, 1, 0) ∧
    summary (exec (.checkReadAllowed 7) { bench Config.ref with locks := locked6 }) =
      some (some ⟨.ok, .flag true⟩, 1, 0) := by decide

/-- V-GATE-4, V-GATE-11. -/
theorem test_check_write_allowed :
    summary (exec (.checkWriteAllowed 6) { bench Config.ref with locks := locked6 }) =
      some (some ⟨.ok, .flag true⟩, 1, 0) ∧
    summary (exec (.checkWriteAllowed 40)
      { bench Config.ref with locks := List.replicate 6 ⟨0xFF, 0xFF, 0xFF⟩ }) =
      some (some ⟨.ok, .flag false⟩, 1, 0) := by decide

/-! ### The OTP state machine -/

/-- V-FSM-1, V-FSM-2, V-FSM-3. -/
theorem test_wait_ready :
    summary (exec (.waitReady 4096)
      { bench Config.ref with
        draws := { ready := [false, false, true], pulse := [], kval := [], byte := [], drawn := 0 } }) =
      some (some ⟨.ok, .none⟩, 4, 0) ∧
    summary (exec (.waitReady 2)
      { bench Config.ref with
        draws := { ready := [false, false], pulse := [], kval := [], byte := [], drawn := 0 } }) =
      some (some ⟨.hardwareError, .none⟩, 3, 0) ∧
    summary (exec (.waitReady 0) (bench Config.ref)) =
      some (some ⟨.hardwareError, .none⟩, 1, 0) := by decide

/-- V-FSM-6. -/
theorem test_read_byte :
    (after (exec (.readByte .fuse 0x010) (bench Config.ref))).map
      (fun t => (t.response, t.regs.data, t.fsm, t.regAccessCount)) =
      some (some ⟨.ok, .byte 0x0F⟩, 0x01, .idle, 9) := by decide +kernel

/-- V-KEY-9: a locked key byte is a draw, the fuse byte of the same address is not. -/
theorem test_read_byte_locked :
    summary (exec (.readByte .key 256) { bench Config.ref with locks := locked6, key := [(256, 0x11)] }) =
      some (some ⟨.ok, .byte 0x5C⟩, 9, 0) ∧
    summary (exec (.readByte .fuse 256) { bench Config.ref with locks := locked6 }) =
      some (some ⟨.ok, .byte 0x00⟩, 9, 0) := by decide +kernel

/-- V-FSM-8, V-FSM-9. -/
theorem test_bit_is_programmed :
    summary (exec (.bitIsProgrammed .fuse 0x010 3) (bench Config.ref)) =
      some (some ⟨.ok, .flag true⟩, 9, 0) ∧
    summary (exec (.bitIsProgrammed .fuse 0x010 4) (bench Config.ref)) =
      some (some ⟨.ok, .flag false⟩, 9, 0) := by decide +kernel

/-- V-FSM-14, V-FSM-16. -/
theorem test_program_bit_smart :
    (after (exec (.programBit .fuse 0x010 4 true) (bench Config.ref))).map
      (fun t => (t.response, t.fuse, t.regAccessCount, t.pulseCount)) =
      some (some ⟨.ok, .none⟩, [(0x10, 0x1F)], 27, 1) ∧
    (after (exec (.programBit .fuse 0x010 4 false) (bench magicCap))).map
      (fun t => (t.response, t.fuse, t.warnLog, t.pulseCount)) =
      some (some ⟨.hardwareError, .none⟩, [(0x10, 0x0F)], [.magicMismatch], 1) := by
  decide +kernel

/-- V-FSM-24: the third pulse burns, the fourth is still made. -/
theorem test_program_bit_legacy :
    (after (exec (.programBit .fuse 0x010 4 false)
      { bench legacy with
        draws := { ready := List.replicate 50 true, pulse := [false, false, true, true], kval := []
                   byte := [], drawn := 0 } })).map
      (fun t => (t.response, t.fuse, t.regs.inProg, t.regAccessCount, t.pulseCount)) =
      some (some ⟨.ok, .none⟩, [(0x10, 0x1F)], false, 31, 4) := by decide +kernel

/-- V-FSM-20: bit 5 fails, bits 6 and 7 are still attempted. -/
theorem test_program_byte_smart :
    (after (exec (.programByte .fuse 0x010 0xFF)
      { bench Config.ref with
        draws := { ready := List.replicate 50 true, pulse := [true, false, true, true], kval := []
                   byte := [], drawn := 0 } })).map
      (fun t => (t.response, t.fuse, t.regAccessCount, t.pulseCount)) =
      some (some ⟨.hardwareError, .none⟩, [(0x10, 0xDF)], 81, 4) := by decide +kernel

/-- V-FSM-22. -/
theorem test_program_byte_legacy :
    (after (exec (.programByte .fuse 0x010 0xFF) (bench legacy))).map
      (fun t => (t.response, t.fuse, t.regAccessCount, t.pulseCount)) =
      some (some ⟨.ok, .none⟩, [(0x10, 0xFF)], 133, 16) := by decide +kernel

/-- V-FSM-28, V-MAG-4. -/
theorem test_init :
    (after (exec (.init 125) { bench Config.ref with clkValid := false, magic := 0x1234 })).map
      (fun t => (t.regs.clkMhz, t.clkValid, t.magic, t.fsm, t.regAccessCount)) =
      some (125, true, 0, .idle, 1) := by decide

/-! ### The key vault -/

/-- V-KEY-10. -/
theorem test_key_slots : keySlot .aes 3 = ⟨448, 64, 9⟩ ∧ keySlot .ecc 0 = ⟨3328, 128, 32⟩ ∧
    keySlot .ecc 15 = ⟨5248, 128, 47⟩ := by decide

/-- V-KEY-2, V-KEY-3. -/
theorem test_read_key_denied :
    summary (exec (.readKey .aes 0) { bench Config.ref with locks := locked6 }) =
      some (some ⟨.accessDenied, .bytes []⟩, 2, 0) ∧
    summary (exec (.readKey .aes 4) (bench Config.ref)) =
      some (some ⟨.invalidParameter, .bytes []⟩, 0, 0) := by decide +kernel

/-- V-KEY-1 in its count of accesses; two bytes of the slot are programmed. -/
theorem test_read_key :
    (after (exec (.readKey .aes 1)
      { bench Config.ref with
        key := [(320, 0x40), (383, 0x7F)]
        draws := { ready := List.replicate 128 true, pulse := [], kval := [], byte := [], drawn := 0 } })).map
      (fun t => (t.response, t.regAccessCount)) =
      some (some ⟨.ok, .bytes ([0x40] ++ List.replicate 62 0x00 ++ [0x7F])⟩, 578) := by decide +kernel

/-- V-KEY-11, V-KEY-14. -/
theorem test_select_key :
    (after (exec (.selectKey 3) (bench { Config.ref with eccdis0 := true }))).map
      (fun t => (t.response, t.regs.keyInd, t.regAccessCount)) =
      some (some ⟨.ok, .none⟩, ⟨3, 0, true⟩, 5) ∧
    summary (exec (.selectKey 16) (bench Config.ref)) =
      some (some ⟨.invalidParameter, .none⟩, 0, 0) := by decide

/-- V-KEY-15, V-KEY-17: three polls are three steps. -/
theorem test_upload_key :
    (after (core.run 3 ((bench Config.ref).placeCommand (encode (.uploadKey 32 2))))).map
      (fun t => (t.response, t.regs.keyInd, t.regAccessCount, t.uploading, t.position)) =
      some (some ⟨.ok, .none⟩, ⟨2, 32, false⟩, 5, false, 1) ∧
    summary (exec (.uploadKey 32 16) (bench Config.ref)) =
      some (some ⟨.invalidParameter, .none⟩, 0, 0) := by decide

/-- V-KEY-18, V-KEY-4. -/
theorem test_disable_key_access :
    (after (exec .disableKeyAccess (bench Config.ref))).map
      (fun t => (t.response, t.keyAccessDisabled, t.regAccessCount)) =
      some (some ⟨.ok, .none⟩, true, 1) ∧
    summary (exec (.readKey .ecc 0) { bench Config.ref with keyAccessDisabled := true }) =
      some (some ⟨.accessDenied, .bytes []⟩, 2, 0) := by decide +kernel

/-! ### The magic word -/

/-- V-MAG-2. -/
theorem test_magic_accumulate :
    (after (exec (.magicAccumulate 0x20) { bench Config.ref with magic := 0xFFFFFFF0 })).map
      (fun t => t.magic) = some 0x00000010 := by decide

theorem test_magic_init_get :
    (after (exec (.magicInit 5) (bench Config.ref))).map (fun t => t.magic) = some 5 ∧
    summary (exec .magicGet { bench Config.ref with magic := 12 }) =
      some (some ⟨.ok, .word 12⟩, 0, 0) := by decide

/-! ### The step -/

/-- R22: a placed command is the next one taken, and it has then completed. -/
theorem test_step_takes_command :
    (after (step (State.reset.withFetchWord 64 0x0000000000007D01))).map
      (fun t => (t.regs.clkMhz, t.position, t.pending)) = some (125, 1, []) := by decide

/-- V-FSM-29: a clock change, then a read. -/
theorem test_clock_change :
    (after (step { bench Config.ref with
      pending := [.clockChange, .command ⟨0x2103, none⟩ none] })).map
      (fun t => (t.clkValid, step t)) =
      some (false, .fault (.clockNotConfigured
        { bench Config.ref with
          clkValid := false, faulted := true, pending := [.command ⟨0x2103, none⟩ none] })) := rfl

/-! ### Witnesses: for each statement with premises, a state and operands that meet them all, clause by
clause, at the ends of the ranges -/

/-- The next state of an outcome, and the premise `exec … = .next t` with it. -/
theorem next_of_isSome {o : Host.Outcome State Fault Refusal} (h : (after o).isSome = true) :
    ∃ t, o = .next t := by
  cases o with
  | next t => exact ⟨t, rfl⟩
  | fault f => cases h
  | refused r => cases h

theorem test_bench_inv : (bench Config.ref).Inv where
  lawful := Config.ref_lawful
  mem := by decide
  lock := by decide
  fsm := by decide
  disarmed := by decide

theorem test_bench_commands : (bench Config.ref).cfg.DistinctCommands ∧
    (bench legacy).cfg.DistinctCommands ∧ (bench magicCap).cfg.DistinctCommands := by decide

/-- The bench with one command placed. -/
def placed (i : Instr) : State := (bench Config.ref).placeCommand (encode i)

/-- StepKeepsInvariant, StepKeepsConfigurationAndFaultMark, PositionAdvancesOnCompletion,
ObservationsOnlyGrow, FusesNeverClear, IrreversibleUntilReset: a step that programs a byte, from a state with the invariant. -/
theorem test_witness_step : (placed (.programByte .fuse 0x010 0xFF)).Inv ∧
    ∃ t, step (placed (.programByte .fuse 0x010 0xFF)) = .next t :=
  ⟨{ lawful := Config.ref_lawful, mem := by decide, lock := by decide, fsm := by decide,
     disarmed := by decide }, next_of_isSome (by decide +kernel)⟩

/-- StepRunsDecodedCommand. -/
theorem test_witness_run_decoded : (placed .magicGet).uploading = false ∧
    (placed .magicGet).pending = .command ⟨0x42, none⟩ none :: [] ∧
    decode ⟨0x42, none⟩ = .ok .magicGet := by decide

/-- StepRefusesExactly, its five clauses: an illegal command, a second caller, a reset during a
command, another reset, a refused step. -/
theorem test_witness_refusals :
    (decode ⟨0x00, none⟩ = .error .reservedCode ∧
      { bench Config.ref with pending := [.command ⟨0x00, none⟩ (some .reset)] }.uploading = false) ∧
    (decode ⟨0x42, none⟩ = .ok .magicGet ∧
      { bench Config.ref with pending := [.command ⟨0x42, none⟩ (some .secondCaller)] }.pending =
        .command ⟨0x42, none⟩ (some .secondCaller) :: []) ∧
    { bench Config.ref with pending := [.command ⟨0x42, none⟩ (some .reset)] }.pending =
      .command ⟨0x42, none⟩ (some .reset) :: [] ∧
    { bench Config.ref with pending := [.otherReset] }.pending = .otherReset :: [] ∧
    step { bench Config.ref with pending := [.otherReset] } = .refused .unmodelledReset := by
  refine ⟨by decide, by decide, by decide, by decide, rfl⟩

/-- PowerOnResetEffect, ClockValidFromInitToChange: both ways the clock becomes invalid. -/
theorem test_witness_host_events :
    { bench Config.ref with pending := [.powerOnReset] }.uploading = false ∧
    (step { bench Config.ref with pending := [.powerOnReset] } =
      .next { bench Config.ref with pending := [.powerOnReset] }.powerOnReset.dropEvent) ∧
    (bench Config.ref).clkValid = true ∧
    { bench Config.ref with pending := [.powerOnReset] }.powerOnReset.dropEvent.clkValid = false ∧
    (step { bench Config.ref with pending := [.clockChange] } =
      .next { bench Config.ref with clkValid := false, pending := [] }) ∧ (1 : BitVec 8) ≠ 0 :=
  ⟨rfl, rfl, rfl, rfl, rfl, by decide⟩

/-- FusesNeverClear, clause 1: a step that counts no pulse, and one that does. -/
theorem test_witness_quiet_step :
    (after (step (placed (.readByte .fuse 0x010)))).map (fun t => t.pulseCount) = some 0 ∧
    (after (step (placed (.programBit .fuse 0x010 6 false)))).map (fun t => t.pulseCount) =
      some 1 := by decide +kernel

/-- FusesNeverClear, clause 2: a read of a byte. -/
theorem test_witness_no_program : (bench Config.ref).cfg.DistinctCommands ∧
    (∃ t, exec (.readByte .fuse 0x010) (bench Config.ref) = .next t) ∧
    (Instr.readByte .fuse 0x010).programs = false :=
  ⟨by decide, next_of_isSome (by decide +kernel), rfl⟩

/-- IrreversibleUntilReset: a step with KEYDIS set and a block register-locked, no reset next. -/
theorem test_witness_irreversible :
    ¬{ placed (.setBlockAccess 6 false true false) with
        locks := locked6, keyAccessDisabled := true }.porNext ∧
    { placed (.setBlockAccess 6 false true false) with
        locks := locked6, keyAccessDisabled := true }.keyAccessDisabled = true ∧
    { placed (.setBlockAccess 6 false true false) with
        locks := locked6, keyAccessDisabled := true }.locked .reg 6 = true ∧
    ∃ t, step { placed (.setBlockAccess 6 false true false) with
        locks := locked6, keyAccessDisabled := true } = .next t :=
  ⟨by decide, rfl, by decide, next_of_isSome (by decide)⟩

/-- IrreversibleUntilReset, its run clause: a fuse is burnt, then two more steps are made. -/
theorem test_witness_burnt_stays : ∃ t, core.run 3
    { placed (.programBit .fuse 0x010 4 false) with
      pending := [.command (encode (.programBit .fuse 0x010 4 false)) none, .powerOnReset,
        .clockChange] } = .next t := next_of_isSome (by decide +kernel)

/-- CommandRegisterLaw, its four clauses, with both values of the pulse draw; and clause 3 of
FusesNeverClear where a bit is burnt. -/
theorem test_witness_command_register :
    (bench Config.ref).cfg.armValue = 0x000000A5 ∧
    ((0 : RegWord) ≠ (bench Config.ref).cfg.armValue ∧ (bench Config.ref).regs.armed = false) ∧
    (((bench Config.ref).setArmed true).regs.armed = true ∧ (0 : RegWord) ≠ Config.ref.progCmd) ∧
    (Config.ref.progCmd ≠ Config.ref.armValue ∧
      ((bench Config.ref).setArmed true).draws.pulse = true :: List.replicate 31 true) ∧
    (after (.next ((((bench Config.ref).setArmed true).writeArr .fuse).writeCmd
      Config.ref.progCmd))).map (fun t => t.fuse) = some [(0x00, 0x01), (0x10, 0x0F)] := by
  decide +kernel

/-- EncodeOfDecode. -/
theorem test_witness_decodes : decode ⟨0x3FC02106, none⟩ = .ok (.programByte .fuse 0x010 0xFF) := by
  decide

/-- NibbleCodecIsStateless: both codecs answering, and another state of the configuration. -/
theorem test_witness_np_stateless :
    (∃ t, exec (.npEncode [0x12]) (bench Config.ref) = .next t) ∧
    (∃ t, exec (.npDecode [0xD2, 0xE1]) (bench Config.ref) = .next t) ∧
    { bench Config.ref with magic := 1, fuse := [] }.cfg = (bench Config.ref).cfg :=
  ⟨⟨_, rfl⟩, ⟨_, rfl⟩, rfl⟩

/-- NpEncodeResult, NpDecodeResult: both ends of a buffer, even and odd. -/
theorem test_witness_np_buffers :
    ([0x12, 0x34] : List Byte)[0]? = some 0x12 ∧ ([0x12, 0x34] : List Byte)[1]? = some 0x34 ∧
    ([0xD2, 0xE1, 0xB4, 0x33] : List Byte).length % 2 = 0 ∧
    ([0xD2, 0xE1, 0xB4, 0x33] : List Byte)[2 * 1]? = some 0xB4 ∧
    ([0xD2, 0xE1, 0xB4, 0x33] : List Byte)[2 * 1 + 1]? = some 0x33 ∧
    ([0xAA, 0x55, 0x00] : List Byte).length % 2 = 1 := by decide

/-- NpSingleErrorsCorrected, NpDoubleErrorDetected: no error, the first bit, the last bit; the last
two bits of the last byte. -/
theorem test_witness_np_errors :
    (bench Config.ref).cfg.TableLaws ∧
    ([none, some 0, some 7, none] : List (Option BitPos)).length =
      2 * ([0x12, 0x34] : List Byte).length ∧
    ([0x00, flipBit (flipBit (Config.ref.enc 0xF) 6) 7] : List Byte).length % 2 = 0 ∧
    (6 : BitPos) < 7 ∧
    ([0x00, flipBit (flipBit (Config.ref.enc 0xF) 6) 7] : List Byte)[1]? =
      some (flipBit (flipBit ((bench Config.ref).cfg.enc 0xF) 6) 7) :=
  ⟨Config.ref_lawful.1, by decide, by decide, by decide, rfl⟩

/-- MajDecodeResult, MajEncodeResult, MajorityOutvotesOneSegment. -/
theorem test_witness_maj : ([1, 2, 3, 4] : List Byte).length % 3 ≠ 0 ∧
    ([0x0F, 0xF0, 0x3C] : List Byte).length % 3 = 0 ∧
    ([0x0F, 0xF0, 0x3C] : List Byte)[0]? = some 0x0F ∧
    ([0x0F, 0xF0, 0x3C] : List Byte)[1 + 0]? = some 0xF0 ∧
    ([0x0F, 0xF0, 0x3C] : List Byte)[2 * 1 + 0]? = some 0x3C ∧
    0 < ([0x0F, 0xF0, 0x3C] : List Byte).length / 3 ∧
    ([0xFF, 0x00] : List Byte).length = ([0x12, 0x34] : List Byte).length := by decide

/-- CheckReadAllowedResult, CheckWriteAllowedResult, SetBlockAccessResult: the last block with a lock
register and the first without. -/
theorem test_witness_blocks : (bench Config.ref).LockInv ∧
    (47 : BitVec 8).toNat < 8 * (bench Config.ref).cfg.numLockRegs ∧
    8 * (bench Config.ref).cfg.numLockRegs ≤ (48 : BitVec 8).toNat := by decide

/-- LockRegisterWriteLaw: the last register and bit. -/
theorem test_witness_lock_write : 5 < (bench Config.ref).locks.length ∧ 7 < 8 := by decide

/-- RegisterLockIsPermanent, clause 1: a step on a register-locked block, a reset standing later in the
list. -/
theorem test_witness_lock_step :
    ¬{ bench Config.ref with
        locks := locked6
        pending := [.command (encode (.setBlockAccess 6 false true false)) none,
          .powerOnReset] }.porNext ∧
    (∃ t, step
      { bench Config.ref with
        locks := locked6
        pending := [.command (encode (.setBlockAccess 6 false true false)) none, .powerOnReset] } =
      .next t) :=
  ⟨by decide, next_of_isSome (by decide)⟩

/-- RegisterLockIsPermanent, clause 2: a run of two steps on a register-locked block. -/
theorem test_witness_lock_run :
    HostEvent.powerOnReset ∉
      { bench Config.ref with
        locks := locked6
        pending := [.command (encode (.setBlockAccess 6 false true false)) none, .clockChange] }.pending ∧
    (∃ t, core.run 2
      { bench Config.ref with
        locks := locked6
        pending := [.command (encode (.setBlockAccess 6 false true false)) none, .clockChange] } =
      .next t) ∧ { bench Config.ref with locks := locked6 }.locked .reg 6 = true :=
  ⟨by decide, next_of_isSome (by decide), by decide⟩

/-- A state whose first poll answers 0 and whose second answers 1. -/
def secondReady : State :=
  { bench Config.ref with
    draws := { ready := [false, true], pulse := [], kval := [], byte := [], drawn := 0 } }

/-- WaitReadyResult: the last allowed poll is ready; none is; none is allowed. -/
theorem test_witness_wait : (1 < (2 : BitVec 32).toNat ∧ secondReady.readyAt 1 = true ∧
      ∀ i < 1, secondReady.readyAt i = false) ∧
    (∀ i < (1 : BitVec 32).toNat, secondReady.readyAt i = false) ∧
    ∀ i < (0 : BitVec 32).toNat, secondReady.readyAt i = false := by decide

/-- ReadByteCompletes, ReadByteWhenReady, BitIsProgrammedReadsOneBit, ProgramBitCompletes,
ProgramByteCompletes: the highest address of each array. -/
theorem test_witness_read : (bench Config.ref).clkValid = true ∧
    (bench Config.ref).cfg.DistinctCommands ∧ (bench Config.ref).regs.armed = false ∧
    (bench Config.ref).readyFor 50 ∧ (bench Config.ref).readable .fuse (0x1FFF : ByteAddr).toNat = true ∧
    (bench Config.ref).readable .key (0x1FFF : ByteAddr).toNat = true := by decide +kernel

/-- A bench whose next draws are `n` ready polls and the given pulses. -/
def drawing (c : Config) (ready : List Bool) (pulse : List Bool) : State :=
  { bench c with draws := { ready := ready, pulse := pulse, kval := [], byte := [], drawn := 0 } }

theorem readyFor_replicate (c : Config) (n : Nat) (ps : List Bool) :
    (drawing c (List.replicate n true) ps).readyFor n := by
  intro j hj
  simp [drawing, List.getElem?_replicate, hj]

/-- ReadByteCompletes, its two ends: ready at once; no poll of the first wait, or of the second,
reads ready. -/
theorem test_witness_read_ends :
    ((bench Config.ref).readyAt 0 = true ∧ (bench Config.ref).readyAt (0 + 1 + 0) = true) ∧
    (∀ k < waitTimeout, (drawing Config.ref (List.replicate waitTimeout false) []).readyAt k = false) ∧
    (drawing Config.ref (true :: List.replicate waitTimeout false) []).readyAt 0 = true ∧
    ∀ j < waitTimeout,
      (drawing Config.ref (true :: List.replicate waitTimeout false) []).readyAt (0 + 1 + j) = false := by
  refine ⟨by decide, fun k hk => ?_, rfl, fun j hj => ?_⟩
  · simp [State.readyAt, drawing, List.getElem?_replicate, hk]
  · simp [State.readyAt, drawing, Nat.add_comm 1, hj]

/-- ReadByteWhenReady, clause 2: with block 6 read-locked the bytes of slot AES 0 are not readable, its
neighbours and the fuse array are; with KEYDIS set no key byte is. -/
theorem test_witness_readable :
    { bench Config.ref with locks := locked6 }.readable .key 255 = true ∧
    { bench Config.ref with locks := locked6 }.readable .key 256 = false ∧
    { bench Config.ref with locks := locked6 }.readable .key 319 = false ∧
    { bench Config.ref with locks := locked6 }.readable .key 320 = true ∧
    { bench Config.ref with locks := locked6 }.readable .fuse 256 = true ∧
    { bench Config.ref with keyAccessDisabled := true }.readable .key 8191 = false := by decide

/-- SmartProgramBitWhenReady, ProgramByteReachesOr clause 2: every poll ready, every pulse burning, with and
without the magic word. -/
theorem test_witness_program : (bench Config.ref).cfg.progAlgo = .smart ∧
    (bench Config.ref).commandReady ∧
    { bench magicCap with magic := Config.ref.progCmd }.commandReady ∧
    (bench Config.ref).readyFor 50 ∧ (bench Config.ref).burnsFor 32 ∧
    (bench Config.ref).draws.pulse = true :: List.replicate 31 true := by decide +kernel

/-- ProgramByteReachesOr, clause 1: 482 ready polls and 160 pulses, none or all of which burn, in both
builds. -/
theorem test_witness_program_draws :
    (drawing Config.ref (List.replicate 482 true) (List.replicate 160 false)).readyFor 482 ∧
    160 ≤ (drawing Config.ref (List.replicate 482 true) (List.replicate 160 false)).draws.pulse.length ∧
    (drawing legacy (List.replicate 482 true) (List.replicate 160 true)).readyFor 482 ∧
    160 ≤ (drawing legacy (List.replicate 482 true) (List.replicate 160 true)).draws.pulse.length ∧
    (drawing legacy (List.replicate 482 true) (List.replicate 160 true)).commandReady ∧
    (drawing legacy (List.replicate 482 true) (List.replicate 160 true)).clkValid = true ∧
    (drawing legacy (List.replicate 482 true) (List.replicate 160 true)).readable .fuse 0x010 = true :=
  ⟨readyFor_replicate _ _ _, List.length_replicate.ge, readyFor_replicate _ _ _,
    List.length_replicate.ge, by decide, rfl, by decide⟩

/-- V-FSM-20: the bits of 0xF0 with the pulses 1, 0, 1, 1; a legacy bit whose 21st pulse would burn. -/
theorem test_burnt_bits :
    burntBits .smart 0xF0 [0, 1, 2, 3, 4, 5, 6, 7] [true, false, true, true] = 0xD0 ∧
    ProgAlgo.legacy.pulsesFor [false, false, true, true] = 4 ∧
    ProgAlgo.legacy.pulsesFor (List.replicate 20 false ++ [true]) = 20 := by decide

/-- LegacyProgramBitPulses, clause 2: 60 ready polls, 20 pulses of which none burns, or the last one
does; a bit that is 0 and one that is 1. -/
theorem test_witness_legacy_draws :
    (drawing legacy (List.replicate 60 true) (List.replicate 20 false)).readyFor 60 ∧
    20 ≤ (drawing legacy (List.replicate 60 true)
      (List.replicate 19 false ++ [true])).draws.pulse.length ∧
    (drawing legacy (List.replicate 60 true) (List.replicate 20 false)).commandReady ∧
    (drawing legacy (List.replicate 60 true) (List.replicate 20 false)).readable .fuse 0x010 = true ∧
    (drawing legacy (List.replicate 60 true) (List.replicate 20 false)).fuseBit .fuse 0x010 4 = false ∧
    (drawing legacy (List.replicate 60 true) (List.replicate 20 false)).fuseBit .fuse 0x010 3 = true :=
  ⟨readyFor_replicate _ _ _, by decide, by decide, by decide, by decide, by decide⟩

/-- LegacyProgramBitPulses, clause 1. -/
theorem test_witness_legacy : (bench legacy).cfg.progAlgo = .legacy ∧ (bench legacy).clkValid = true ∧
    (bench legacy).cfg.DistinctCommands ∧ (bench legacy).commandNotArm ∧
    { bench { legacy with magicCap := true } with magic := 0 }.commandNotArm := by decide

/-- VerifyFirstShortCircuits, ProgramByteIdempotent: bits of byte 0x010 that are 1. -/
theorem test_witness_already : (bench Config.ref).fuseBit .fuse 0x010 3 = true ∧
    bitsWithin 0x0F ((bench Config.ref).readCell .fuse (0x010 : ByteAddr).toNat) ∧
    (bench Config.ref).readable .fuse (0x010 : ByteAddr).toNat = true := by decide

/-- UnconfiguredClockFaults, InitResult. -/
theorem test_witness_clock : (Instr.programByte .fuse 0x010 0xFF).needsClock = true ∧
    { bench Config.ref with clkValid := false }.clkValid = false ∧ (1 : BitVec 8) ≠ 0 := by decide

/-- ArrayOperationsAreBounded, its four clauses. -/
theorem test_witness_bounded :
    (∃ t, exec (.readByte .fuse 0x010) (bench Config.ref) = .next t) ∧
    ((bench Config.ref).cfg.progAlgo = .smart ∧
      ∃ t, exec (.programBit .fuse 0x010 4 true) (bench Config.ref) = .next t) ∧
    ((bench legacy).cfg.progAlgo = .legacy ∧
      ∃ t, exec (.programBit .fuse 0x010 4 true) (bench legacy) = .next t) ∧
    ∃ t, exec (.programByte .fuse 0x010 0xFF) (bench legacy) = .next t :=
  ⟨next_of_isSome (by decide +kernel), ⟨rfl, next_of_isSome (by decide +kernel)⟩,
    ⟨rfl, next_of_isSome (by decide +kernel)⟩, next_of_isSome (by decide +kernel)⟩

/-- KeySlotsAreDisjoint: the last slots of both types. -/
theorem test_witness_slots : 3 < KeyType.aes.slots ∧ 15 < KeyType.ecc.slots ∧
    (KeyType.aes, 3) ≠ (KeyType.ecc, 15) := by decide

/-- ReadKeyEarlyEnds and DeniedReadKeyRevealsNothing: the first index that is no slot; a denial by
the lock and by KEYDIS; a granted check without a clock. -/
theorem test_witness_read_key_ends :
    KeyType.aes.slots ≤ (4 : BitVec 8).toNat ∧ (3 : BitVec 8).toNat < KeyType.aes.slots ∧
    { bench Config.ref with locks := locked6 }.locked .read (keySlot .aes (0 : BitVec 8).toNat).block =
      true ∧
    { bench Config.ref with keyAccessDisabled := true }.keyAccessDisabled = true ∧
    { bench Config.ref with clkValid := false }.keyAccessDisabled = false ∧
    { bench Config.ref with clkValid := false }.locked .read (keySlot .aes (3 : BitVec 8).toNat).block =
      false := by decide

/-- ReadKeyDeliversSlot, ReadKeyCompletes: the last ECC slot, every poll listed ready. -/
theorem test_witness_read_key :
    (15 : BitVec 8).toNat < KeyType.ecc.slots ∧ (bench Config.ref).keyAccessDisabled = false ∧
    (bench Config.ref).locked .read (keySlot .ecc (15 : BitVec 8).toNat).block = false ∧
    (bench Config.ref).clkValid = true ∧ (bench Config.ref).cfg.DistinctCommands ∧
    (bench Config.ref).regs.armed = false ∧
    { bench Config.ref with
      draws := { ready := List.replicate 256 true, pulse := [], kval := [], byte := [], drawn := 0 } }.readyFor
      (2 * (keySlot .ecc (15 : BitVec 8).toNat).size) := by decide +kernel

/-- SelectKeyResult: an index that is none; the last retry reads 1; no retry does. -/
theorem test_witness_select : 16 ≤ (16 : BitVec 8).toNat ∧ (15 : BitVec 8).toNat < 16 ∧
    (2 < (bench { Config.ref with selectKeyRetries := 3 }).cfg.selectKeyRetries ∧
      (bench { Config.ref with selectKeyRetries := 3 }).kvalAt 2 = true ∧
      ∀ i < 2, (bench { Config.ref with selectKeyRetries := 3 }).kvalAt i = false) ∧
    ∀ i < (bench { Config.ref with selectKeyRetries := 2 }).cfg.selectKeyRetries,
      (bench { Config.ref with selectKeyRetries := 2 }).kvalAt i = false := by decide

/-- UploadKeyEndsWhenKvalRises: a waiting UPLOAD_KEY whose third poll reads 1. -/
theorem test_witness_upload : { bench Config.ref with uploading := true }.uploading = true ∧
    (∀ i < 2, { bench Config.ref with uploading := true }.kvalAt i = false) ∧
    { bench Config.ref with uploading := true }.kvalAt 2 = true := by decide

/-- OnlyUploadKeyWaits. -/
theorem test_witness_waits : ∃ t, exec (.uploadKey 32 15) (bench Config.ref) = .next t ∧
    (bench Config.ref).uploading = false ∧ t.uploading = true := ⟨_, rfl, rfl, rfl⟩

/-- DisableKeyAccessIsPermanent: a step with KEYDIS set and no reset next. -/
theorem test_witness_keydis :
    { placed .magicGet with keyAccessDisabled := true }.keyAccessDisabled = true ∧
    ¬{ placed .magicGet with keyAccessDisabled := true }.porNext ∧
    (∃ t, step { placed .magicGet with keyAccessDisabled := true } = .next t) ∧
    (15 : BitVec 8).toNat < KeyType.ecc.slots :=
  ⟨rfl, by decide, ⟨_, rfl⟩, by decide⟩

/-- MagicOperationsResult, MagicWordIsSingleUse, StatusesReturned, FaultsAndWhatTheyLeave: an INIT, a program
operation that ends, one that faults, a change by a magic operation. -/
theorem test_witness_magic :
    (∃ t, exec (.init 1) (bench Config.ref) = .next t) ∧
    (∃ t, exec (.programBit .fuse 0x010 3 true) (bench magicCap) = .next t) ∧
    (Instr.programBit .fuse 0x010 3 true).programs = true ∧
    (∃ f, exec (.programByte .fuse 0x010 0xFF) { bench Config.ref with clkValid := false } = .fault f) ∧
    ∃ t, exec (.magicAccumulate 1) (bench Config.ref) = .next t ∧ t.magic ≠ (bench Config.ref).magic :=
  ⟨⟨_, rfl⟩, next_of_isSome (by decide +kernel), rfl, ⟨_, rfl⟩, ⟨_, rfl, by decide⟩⟩

/-- WrongMagicBurnsNothing: an operation, and what has a bit to pulse in each of the three forms. -/
theorem test_witness_wrong_magic : (bench magicCap).cfg.magicCap = true ∧
    (bench magicCap).magic ≠ (bench magicCap).cfg.progCmd ∧
    (bench magicCap).magic ≠ (bench magicCap).cfg.armValue ∧
    (∃ t, exec (.programByte .fuse 0x010 0xFF) (bench magicCap) = .next t) ∧
    (bench magicCap).hasBitToPulse (.programBit .fuse 0x010 3 false) ∧
    (bench magicCap).hasBitToPulse (.programBit .fuse 0x010 4 true) ∧
    (bench magicCap).hasBitToPulse (.programByte .fuse 0x010 0xFF) :=
  ⟨by decide, by decide, by decide, next_of_isSome (by decide +kernel), trivial,
    by simp only [State.hasBitToPulse]; decide +kernel,
    by simp only [State.hasBitToPulse]; decide +kernel⟩

/-- StatusesReturned: an operation that ends without a wait. -/
theorem test_witness_status : ∃ t, exec .magicGet (bench Config.ref) = .next t ∧
    (bench Config.ref).uploading = false ∧ t.uploading = false := ⟨_, rfl, rfl, rfl⟩

/-- FaultsAndWhatTheyLeave: each of the four faults. -/
theorem test_witness_faults :
    (∃ f, exec (.npDecode [0]) (bench Config.ref) = .fault f) ∧
    (∃ f, exec (.checkReadAllowed 48) (bench Config.ref) = .fault f) ∧
    (∃ f, exec (.readKey .ecc 15) { bench Config.ref with clkValid := false } = .fault f) ∧
    ∃ f, exec (.init 0) (bench Config.ref) = .fault f := ⟨⟨_, rfl⟩, ⟨_, rfl⟩, ⟨_, rfl⟩, ⟨_, rfl⟩⟩

/-- RawOperationsIgnoreTheGate: a fuse read and a fuse program operation; a key read whose byte is as
readable under other locks as before. -/
theorem test_witness_raw :
    (∃ t, exec (.readByte .fuse 0x010) (bench Config.ref) = .next t) ∧
    (∃ t, exec (.programByte .fuse 0x010 0xFF) (bench Config.ref) = .next t) ∧
    (∃ t, exec (.bitIsProgrammed .key 0x140 0) (bench Config.ref) = .next t) ∧
    State.readable { bench Config.ref with locks := locked6, keyAccessDisabled := false } .key 0x140 =
      (bench Config.ref).readable .key 0x140 :=
  ⟨next_of_isSome (by decide +kernel), next_of_isSome (by decide +kernel),
    next_of_isSome (by decide +kernel), by decide⟩

end Sys2Proof.Tests
end

section
/-! What an operation and a step can do to the storage arrays (spec/10_state.md R25): nothing but an
operation that programs changes them, whatever the environment answers and whatever state the command
register is in; and a step never clears a fuse. -/

namespace Sys2Proof.Machine

/-- Fuses are kept where configuration and arrays are: a cell is read from these alone. -/
theorem State.fusesKept_of_arrays {s t : State} (hc : t.cfg = s.cfg) (hk : t.key = s.key)
    (hf : t.fuse = s.fuse) : s.fusesKept t := fun a n => by
  rw [State.readCell_congr hc hk hf]
  exact State.fusesKept_refl s a n

@[simp] theorem State.settle_cfg (s : State) : s.settle.cfg = s.cfg := by
  unfold State.settle; split_ifs <;> rfl

@[simp] theorem State.settle_key (s : State) : s.settle.key = s.key := by
  unfold State.settle; split_ifs <;> rfl

@[simp] theorem State.settle_fuse (s : State) : s.settle.fuse = s.fuse := by
  unfold State.settle; split_ifs <;> rfl

@[simp] theorem State.settle_pulseCount (s : State) : s.settle.pulseCount = s.pulseCount := by
  unfold State.settle; split_ifs <;> rfl

/-- A stream of reads changes no array: READ_CMD is not PROG_CMD (R174). -/
theorem readBytes_arrays (a : StorageArray) (s : State) (addr : Nat) (st : Status) (n : Nat)
    (h : s.cfg.readCmd ≠ s.cfg.progCmd) :
    (readBytes a s addr st n).2.2.key = s.key ∧ (readBytes a s addr st n).2.2.fuse = s.fuse := by
  induction n generalizing s addr st with
  | zero => exact ⟨rfl, rfl⟩
  | succ n ih =>
    obtain ⟨hk, hf⟩ := readByteBody_arrays a (BitVec.ofNat 13 addr) s (.inl h)
    obtain ⟨ihk, ihf⟩ := ih (readByteBody a (BitVec.ofNat 13 addr) s).state (addr + 1)
      (Status.worst st (readByteBody a (BitVec.ofNat 13 addr) s).status) (by simpa using h)
    exact ⟨ihk.trans hk, ihf.trans hf⟩

theorem checkLock_arrays {k : LockKind} {blk : BitVec 8} {s t : State}
    (h : checkLock k blk s = .next t) : t.key = s.key ∧ t.fuse = s.fuse := by
  unfold checkLock at h
  split_ifs at h
  cases h
  exact ⟨rfl, rfl⟩

theorem State.setBlockAccess_arrays (s : State) (b : Nat) (lr lw lg : Bool) :
    (s.setBlockAccess b lr lw lg).key = s.key ∧ (s.setBlockAccess b lr lw lg).fuse = s.fuse := by
  rw [State.setBlockAccess_keep]
  exact ⟨rfl, rfl⟩

theorem State.pollKval_arrays (s : State) (n : Nat) :
    (s.pollKval n).2.key = s.key ∧ (s.pollKval n).2.fuse = s.fuse := by
  rw [(State.pollKval_keep s n).1]
  exact ⟨rfl, rfl⟩

theorem State.pollUpload_arrays (s : State) :
    s.pollUpload.key = s.key ∧ s.pollUpload.fuse = s.fuse := by
  rw [State.pollUpload_eq]
  exact ⟨rfl, rfl⟩

/-- Only an operation that programs changes an array (R25); the others send the command register
nothing but READ_CMD. -/
theorem exec_arrays_of_not_programs {i : Instr} {s t : State} (hd : s.cfg.DistinctCommands)
    (h : exec i s = .next t) (hi : i.programs = false) : t.key = s.key ∧ t.fuse = s.fuse := by
  obtain ⟨-, -, hread⟩ := hd
  cases i <;> simp only [exec] at h
  case npEncode | majEncode | disableKeyAccess | magicInit | magicAccumulate | magicGet =>
    cases h; exact ⟨rfl, rfl⟩
  case npDecode => unfold execNpDecode at h; split_ifs at h <;> cases h <;> exact ⟨rfl, rfl⟩
  case majDecode => unfold execMajDecode at h; split_ifs at h <;> cases h <;> exact ⟨rfl, rfl⟩
  case checkReadAllowed => exact checkLock_arrays h
  case checkWriteAllowed => exact checkLock_arrays h
  case init => unfold execInit at h; split_ifs at h; cases h; exact ⟨rfl, rfl⟩
  case setBlockAccess =>
    unfold execSetBlockAccess at h
    split_ifs at h
    cases h
    exact State.setBlockAccess_arrays s _ _ _ _
  case waitReady tmo =>
    cases h
    exact ⟨State.waitReady_key s tmo.toNat, State.waitReady_fuse s tmo.toNat⟩
  case readByte a addr =>
    unfold execReadByte at h
    split_ifs at h
    cases h
    exact readByteBody_arrays a addr s (.inl hread)
  case bitIsProgrammed a addr bit =>
    unfold execBitIsProgrammed at h
    split_ifs at h
    cases h
    exact readByteBody_arrays a addr s (.inl hread)
  case programBit | programByte => cases hi
  case readKey =>
    unfold execReadKey at h
    dsimp only at h
    split_ifs at h <;> cases h
    · exact ⟨rfl, rfl⟩
    · exact ⟨rfl, rfl⟩
    · exact readBytes_arrays .key _ _ _ _ hread
  case selectKey =>
    unfold execSelectKey at h
    split_ifs at h <;> cases h
    · exact ⟨rfl, rfl⟩
    · exact State.pollKval_arrays _ _
  case uploadKey =>
    unfold execUploadKey at h
    split_ifs at h <;> cases h
    · exact ⟨rfl, rfl⟩
    · exact State.pollUpload_arrays _

/-- What a step can do to the arrays (R25): set fuses, and none unless it counts a pulse. Only the step
of an operation can count one: an idle step and a host event leave both arrays as they are. -/
theorem step_fuses {s t : State} (h : step s = .next t) :
    s.fusesKept t ∧ (t.pulseCount = s.pulseCount → t.key = s.key ∧ t.fuse = s.fuse) := by
  have still : ∀ {u : State}, u.cfg = s.cfg → u.key = s.key → u.fuse = s.fuse →
      s.fusesKept u ∧ (u.pulseCount = s.pulseCount → u.key = s.key ∧ u.fuse = s.fuse) :=
    fun hc hk hf => ⟨State.fusesKept_of_arrays hc hk hf, fun _ => ⟨hk, hf⟩⟩
  obtain ⟨u, hu, rfl, -⟩ | ⟨-, -, rfl⟩ | ⟨-, -, rfl⟩ | ⟨-, -, rfl⟩ := step_cases h
  · have hsettle : u.fusesKept u.settle := State.fusesKept_of_arrays (by simp) (by simp) (by simp)
    exact ⟨State.fusesKept_trans hu.fuses hsettle, by simpa using hu.quiet⟩
  · exact still rfl rfl rfl
  · exact still rfl rfl rfl
  · exact still rfl rfl rfl

/-- Settles O10: every step by its cases, every operation by its constructor, every write of the
command register by the law of R174. -/
theorem fusesNeverClear : Obligations.FusesNeverClear := by
  unfold Obligations.FusesNeverClear
  exact ⟨fun _ _ => step_fuses, fun _ _ _ hd h hi => exec_arrays_of_not_programs hd h hi,
    State.writeCmd_readCell⟩

end Sys2Proof.Machine
end

section
/-! The nibble-parity codec is stateless (spec/40_ecc_nibble.md R100): where one of its operations answers,
its response is a function of the buffer and the configuration, which holds the tables. -/

namespace Sys2Proof.Machine

/-- An operation whose response is a function of the configuration alone writes nothing else, and
answers the same from every state of that configuration. -/
theorem exec_stateless_of_response {i : Instr} {resp : Config → Response}
    (hresp : ∀ s, exec i s = .next { s with response := some (resp s.cfg) })
    {s t : State} (h : exec i s = .next t) :
    t = { s with response := t.response } ∧
    ∀ s' : State, s'.cfg = s.cfg → exec i s' = .next { s' with response := t.response } := by
  rw [hresp] at h
  cases h
  exact ⟨rfl, fun s' hcfg => by rw [hresp, hcfg]⟩

/-- What NP_ENCODE answers (R105). -/
theorem exec_npEncode (buf : List Byte) (s : State) :
    exec (.npEncode buf) s =
      .next { s with response := some ⟨.ok, .bytes (npEncodeBytes s.cfg buf)⟩ } := rfl

/-- What NP_DECODE answers on an even length (R106). -/
theorem exec_npDecode_of_even {buf : List Byte} (heven : buf.length % 2 = 0) (s : State) :
    exec (.npDecode buf) s =
      .next { s with response := some ⟨if npAnyBad s.cfg buf then .badChecksum else .ok,
                                       .bytes (npDecodeBytes s.cfg buf)⟩ } :=
  if_neg (by omega)

/-- NP_DECODE stops on an odd length, whatever the state (R106). -/
theorem exec_npDecode_of_odd {buf : List Byte} (hodd : buf.length % 2 = 1) (s : State) :
    exec (.npDecode buf) s = .fault (.oddEncodedSize s.raise) :=
  if_pos hodd

/-- Settles O17: each codec's response is a function of the configuration, NP_DECODE's on the even
lengths, the only ones it answers. -/
theorem nibbleCodecIsStateless : Obligations.NibbleCodecIsStateless := by
  unfold Obligations.NibbleCodecIsStateless
  rintro i s t ⟨buf, rfl | rfl⟩ h
  · exact exec_stateless_of_response (resp := fun c => ⟨.ok, .bytes (npEncodeBytes c buf)⟩)
      (exec_npEncode buf) h
  · rcases Nat.mod_two_eq_zero_or_one buf.length with heven | hodd
    · exact exec_stateless_of_response
        (resp := fun c => ⟨if npAnyBad c buf then .badChecksum else .ok, .bytes (npDecodeBytes c buf)⟩)
        (exec_npDecode_of_even heven) h
    · rw [exec_npDecode_of_odd hodd] at h
      cases h

end Sys2Proof.Machine
end

section
/-! The check operations of the access gate (spec/42_access_gate.md R150 to R152): their words, and what the
one read of a lock register answers, for both kinds of lock. -/

namespace Sys2Proof

/-- The word of a plain command, its operation code told from the fields above it (R82). -/
theorem Command.plain_append_word {n : Nat} (x : BitVec n) (op : BitVec 8) :
    (Command.plain (x ++ op)).word = x.setWidth 64 <<< 8 ||| op.setWidth 64 :=
  BitVec.setWidth_append_eq_shiftLeft_setWidth_or

end Sys2Proof

namespace Sys2Proof.Machine

theorem State.hasBlock_iff (s : State) (b : Nat) :
    s.hasBlock b = true ↔ b < 8 * s.cfg.numLockRegs :=
  decide_eq_true_iff

/-- A check of a block that has a lock register reads that register once and answers whether the lock
bit is 0 (R151, R152). -/
theorem checkLock_of_lt (k : LockKind) {blk : BitVec 8} {s : State}
    (hblk : blk.toNat < 8 * s.cfg.numLockRegs) :
    checkLock k blk s = .next { s with
      regAccessCount := s.regAccessCount + 1
      response := some ⟨.ok, .flag !s.locked k blk.toNat⟩ } :=
  if_pos ((s.hasBlock_iff _).2 hblk)

/-- A check of a block without a lock register stops before any access (R150). -/
theorem checkLock_of_le (k : LockKind) {blk : BitVec 8} {s : State}
    (hblk : 8 * s.cfg.numLockRegs ≤ blk.toNat) :
    checkLock k blk s = .fault (.blockOutOfRange s.raise) :=
  if_neg (mt (s.hasBlock_iff _).1 (Nat.not_lt.2 hblk))

/-- CHECK_READ_ALLOWED checks the read-lock (R151). -/
theorem exec_checkReadAllowed (blk : BitVec 8) (s : State) :
    exec (.checkReadAllowed blk) s = checkLock .read blk s := rfl

/-- CHECK_WRITE_ALLOWED checks the write-lock (R152). -/
theorem exec_checkWriteAllowed (blk : BitVec 8) (s : State) :
    exec (.checkWriteAllowed blk) s = checkLock .write blk s := rfl

/-- Settles O25: the word, then the check of a read-lock on either side of the last block. -/
theorem checkReadAllowedResult : Obligations.CheckReadAllowedResult := by
  unfold Obligations.CheckReadAllowedResult
  intro blk s
  rw [exec_checkReadAllowed]
  exact ⟨Command.plain_append_word blk 0x10, checkLock_of_lt .read, checkLock_of_le .read⟩

/-- Settles O26: the word, then the check of a write-lock on either side of the last block. -/
theorem checkWriteAllowedResult : Obligations.CheckWriteAllowedResult := by
  unfold Obligations.CheckWriteAllowedResult
  intro blk s
  rw [exec_checkWriteAllowed]
  exact ⟨Command.plain_append_word blk 0x11, checkLock_of_lt .write, checkLock_of_le .write⟩

end Sys2Proof.Machine
end

section
/-! What cannot be undone (spec/70_reset_and_hazards.md R310): a burnt fuse by nothing, over any number of
steps; key access disabled and the permission bits of a register-locked block by no step but a power-on
reset. A PROGRAM_BYTE that fails part of the way shows that the first holds of failed operations too. -/

namespace Sys2Proof.Machine

/-- The lock bits are read from the lock registers alone. -/
theorem State.locked_congr {s t : State} (h : t.locks = s.locks) (k : LockKind) (b : Nat) :
    t.locked k b = s.locked k b := by
  simp only [State.locked, State.lockByteAt, State.lockRegs, h]

@[simp] theorem State.settle_locks (s : State) : s.settle.locks = s.locks := by
  unfold State.settle; split_ifs <;> rfl

@[simp] theorem State.settle_keyAccessDisabled (s : State) :
    s.settle.keyAccessDisabled = s.keyAccessDisabled := by
  unfold State.settle; split_ifs <;> rfl

/-- Only a step of an operation can touch KEYDIS or a lock register where no power-on reset is next, and
every operation keeps KEYDIS once set (R233) and the bits of a register-locked block (R156). -/
theorem step_keydis_regLocked {s t : State} (h : step s = .next t) (hpor : ¬s.porNext) :
    (s.keyAccessDisabled = true → t.keyAccessDisabled = true) ∧
    ∀ b, s.locked .reg b = true → ∀ k, t.locked k b = s.locked k b := by
  obtain ⟨u, hu, rfl, -⟩ | ⟨-, -, rfl⟩ | ⟨hup, ⟨rest, hp⟩, -⟩ | ⟨-, -, rfl⟩ := step_cases h
  · rw [State.settle_keyAccessDisabled]
    exact ⟨hu.keydis, fun b hb k =>
      (State.locked_congr u.settle_locks k b).trans (hu.regLocked b hb k)⟩
  · exact ⟨id, fun _ _ _ => rfl⟩
  · exact absurd ⟨hup, by rw [hp]; rfl⟩ hpor
  · exact ⟨id, fun _ _ _ => rfl⟩

/-- No run clears a fuse, whatever events its steps take (R25). -/
theorem core_run_fusesKept {n : Nat} {s t : State} (h : core.run n s = .next t) :
    s.fusesKept t := by
  induction n generalizing s with
  | zero => cases h; exact State.fusesKept_refl _
  | succ n ih =>
    obtain ⟨u, hstep, hrun⟩ := core_run_succ h
    exact State.fusesKept_trans (step_fuses hstep).1 (ih hrun)

/-- With a configured clock PROGRAM_BYTE delivers the status of its body and leaves the arrays as its body
does (R184, R187). -/
theorem exec_programByte_of_clkValid (a : StorageArray) (addr : ByteAddr) (val : Byte) {s : State}
    (hclk : s.clkValid = true) :
    ∃ t, exec (.programByte a addr val) s = .next t ∧
      t.response = some ⟨(programByteBody a addr val s).1, .none⟩ ∧
      ∀ a' n, t.readCell a' n = (programByteBody a addr val s).2.readCell a' n :=
  ⟨_, if_pos hclk, rfl, State.readCell_congr rfl rfl rfl⟩

/-- The reference machine after INIT, its arrays blank, every poll of its next 8 ready, its next pulse
burning and the one after not. -/
def secondPulseFails : State :=
  { State.launch Config.ref with
    clkValid := true
    draws := { ready := List.replicate 8 true, pulse := [true, false], kval := [], byte := [],
               drawn := 0 } }

/-- Of the two bits asked for, the first is burnt and the second is not: HardwareError (R180, R184). -/
theorem programByteBody_secondPulseFails :
    (programByteBody .fuse 0 0x03 secondPulseFails).1 = .hardwareError ∧
    secondPulseFails.readCell .fuse 0 = 0x00 ∧
    (programByteBody .fuse 0 0x03 secondPulseFails).2.readCell .fuse 0 = 0x01 := by
  decide +kernel

/-- A PROGRAM_BYTE that fails may have burnt some of its bits. -/
theorem programByte_hardwareError_burns : ∃ t,
    exec (.programByte .fuse 0 0x03) secondPulseFails = .next t ∧
    t.response = some ⟨.hardwareError, .none⟩ ∧
    secondPulseFails.readCell .fuse 0 ≠ t.readCell .fuse 0 := by
  obtain ⟨hstatus, hbefore, hafter⟩ := programByteBody_secondPulseFails
  obtain ⟨t, hexec, hresponse, hcells⟩ :=
    exec_programByte_of_clkValid .fuse 0 0x03 (s := secondPulseFails) rfl
  refine ⟨t, hexec, by rw [hresponse, hstatus], ?_⟩
  rw [hbefore, hcells, hafter]
  decide

/-- Settles O11: every step by its cases, every run by induction on its steps, and a PROGRAM_BYTE whose
second pulse fails. -/
theorem irreversibleUntilReset : Obligations.IrreversibleUntilReset := by
  unfold Obligations.IrreversibleUntilReset
  refine ⟨fun s t h => ⟨(step_fuses h).1, step_keydis_regLocked h⟩,
    fun _ _ _ => core_run_fusesKept, ?_⟩
  obtain ⟨t, hexec, hresponse, hburnt⟩ := programByte_hardwareError_burns
  exact ⟨.fuse, 0, 0x03, secondPulseFails, t, hexec, hresponse, hburnt,
    fun _ _ hrun => core_run_fusesKept hrun .fuse 0⟩

end Sys2Proof.Machine
end

section
/-! What every step keeps (spec/10_state.md R5, R20, R22, R45 to R49, spec/42_access_gate.md R154): the invariant,
the configuration, the lock bits, the observations. A step is an operation, an idle step or a host event
(`step_cases`); an operation is known by its `ExecFrame`. -/

namespace Sys2Proof.Machine

/-! ### The end of an operation's step -/

theorem State.settle_of_waiting {s : State} (h : s.uploading = true) : s.settle = s := if_pos h

theorem State.settle_of_ended {s : State} (h : s.uploading = false) : s.settle = s.complete :=
  if_neg (by simp [h])

@[simp] theorem State.settle_regs (s : State) : s.settle.regs = s.regs := by
  unfold State.settle; split_ifs <;> rfl

@[simp] theorem State.settle_fsm (s : State) : s.settle.fsm = s.fsm := by
  unfold State.settle; split_ifs <;> rfl

@[simp] theorem State.settle_fsmTrace (s : State) : s.settle.fsmTrace = s.fsmTrace := by
  unfold State.settle; split_ifs <;> rfl

@[simp] theorem State.settle_clkValid (s : State) : s.settle.clkValid = s.clkValid := by
  unfold State.settle; split_ifs <;> rfl

@[simp] theorem State.settle_faulted (s : State) : s.settle.faulted = s.faulted := by
  unfold State.settle; split_ifs <;> rfl

@[simp] theorem State.settle_regAccessCount (s : State) :
    s.settle.regAccessCount = s.regAccessCount := by
  unfold State.settle; split_ifs <;> rfl

@[simp] theorem State.settle_warnLog (s : State) : s.settle.warnLog = s.warnLog := by
  unfold State.settle; split_ifs <;> rfl

@[simp] theorem State.settle_uploading (s : State) : s.settle.uploading = s.uploading := by
  unfold State.settle; split_ifs <;> rfl

theorem State.settle_position (s : State) :
    s.settle.position = if s.uploading = false then s.position + 1 else s.position := by
  cases h : s.uploading
  · rw [State.settle_of_ended h]; rfl
  · rw [State.settle_of_waiting h]; rfl

theorem State.mem_pending_of_settle {s : State} {e : HostEvent} (h : e ∈ s.settle.pending) :
    e ∈ s.pending := by
  cases hu : s.uploading
  · rw [State.settle_of_ended hu] at h
    exact List.mem_of_mem_tail h
  · rwa [State.settle_of_waiting hu] at h

/-! ### The invariant -/

/-- The invariant speaks of the configuration, the arrays, the lock registers, the FSM and the command
register alone. -/
theorem State.Inv.congr {s t : State} (h : s.Inv) (hcfg : t.cfg = s.cfg) (hkey : t.key = s.key)
    (hfuse : t.fuse = s.fuse) (hlocks : t.locks = s.locks) (hfsm : t.fsm = s.fsm)
    (htrace : t.fsmTrace = s.fsmTrace) (hregs : t.regs = s.regs) : t.Inv where
  lawful := by rw [hcfg]; exact h.lawful
  mem := by unfold State.MemInv; rw [hcfg, hkey, hfuse]; exact h.mem
  lock := by unfold State.LockInv; rw [hcfg, hlocks]; exact h.lock
  fsm := h.fsm.congr hfsm htrace
  disarmed := by rw [hregs]; exact h.disarmed

theorem State.Inv.settle {s : State} (h : s.Inv) : s.settle.Inv :=
  h.congr (by simp) (by simp) (by simp) (by simp) (by simp) (by simp) (by simp)

/-- Every operation keeps the invariant. -/
theorem ExecFrame.inv {s t : State} (hf : ExecFrame s t) (h : s.Inv) : t.Inv where
  lawful := by rw [hf.cfg]; exact h.lawful
  mem := hf.memInv h.mem
  lock := by unfold State.LockInv; rw [hf.lockLength, hf.cfg]; exact h.lock
  fsm := hf.fsm h.fsm
  disarmed := hf.disarmed h.lawful.2.1 h.disarmed

/-- A power-on reset keeps the invariant: LOCK_POR has one triple for each lock register (R26), and the
FSM goes from rest to Idle (R48). -/
theorem State.Inv.powerOnReset {s : State} (h : s.Inv) : s.powerOnReset.Inv where
  lawful := h.lawful
  mem := h.mem
  lock := h.lawful.2.2
  fsm := (h.fsm.finish .ok).congr rfl rfl
  disarmed := rfl

/-- Settles O3: an operation by its frame, a power-on reset by the lawfulness of LOCK_POR; nothing else
touches what the invariant speaks of. -/
theorem stepKeepsInvariant : Obligations.StepKeepsInvariant := by
  unfold Obligations.StepKeepsInvariant
  intro s t hinv h
  obtain ⟨u, hu, rfl, -⟩ | ⟨-, -, rfl⟩ | ⟨-, -, rfl⟩ | ⟨-, -, rfl⟩ := step_cases h
  · exact (hu.inv hinv).settle
  · exact hinv
  · exact hinv.powerOnReset.congr rfl rfl rfl rfl rfl rfl rfl
  · exact hinv.congr rfl rfl rfl rfl rfl rfl rfl

/-! ### The lock bits -/

/-- Two states with the same lock registers have the same lock bits. -/
theorem State.locksKept_of_locks {s t : State} (h : t.locks = s.locks) : s.locksKept t :=
  fun k b hb => (State.locked_congr h k b).trans hb

theorem State.locksKept_trans {s t u : State} (h1 : s.locksKept t) (h2 : t.locksKept u) :
    s.locksKept u := fun k b hb => h2 k b (h1 k b hb)

/-- No step but a power-on reset clears a lock bit (R154). -/
theorem step_locksKept {s t : State} (h : step s = .next t) (hpor : ¬s.porNext) : s.locksKept t := by
  obtain ⟨u, hu, rfl, -⟩ | ⟨-, -, rfl⟩ | ⟨hup, ⟨rest, hp⟩, -⟩ | ⟨-, -, rfl⟩ := step_cases h
  · exact State.locksKept_trans hu.locks (State.locksKept_of_locks u.settle_locks)
  · exact State.locksKept_of_locks rfl
  · exact absurd ⟨hup, by rw [hp]; rfl⟩ hpor
  · exact State.locksKept_of_locks rfl

/-- A step puts nothing into the host's list. -/
theorem mem_pending_of_step {s t : State} (h : step s = .next t) {e : HostEvent}
    (he : e ∈ t.pending) : e ∈ s.pending := by
  obtain ⟨u, hu, rfl, -⟩ | ⟨-, -, rfl⟩ | ⟨-, -, rfl⟩ | ⟨-, -, rfl⟩ := step_cases h
  · exact hu.pending ▸ State.mem_pending_of_settle he
  · exact he
  · exact List.mem_of_mem_tail he
  · exact List.mem_of_mem_tail he

theorem State.not_porNext {s : State} (h : .powerOnReset ∉ s.pending) : ¬s.porNext :=
  fun hp => h (List.mem_of_mem_head? hp.2)

/-- Any number of steps with no power-on reset left in the host's list keep every lock bit, and the
triple of every register-locked block (R154). -/
theorem core_run_locks {n : Nat} {s t : State} (hpor : .powerOnReset ∉ s.pending)
    (h : core.run n s = .next t) :
    s.locksKept t ∧ ∀ b, s.locked .reg b = true → ∀ k, t.locked k b = s.locked k b := by
  induction n generalizing s with
  | zero => cases h; exact ⟨fun _ _ => id, fun _ _ _ => rfl⟩
  | succ n ih =>
    obtain ⟨u, hstep, hrun⟩ := core_run_succ h
    have hnext := State.not_porNext hpor
    have hkept := step_locksKept hstep hnext
    obtain ⟨ihkept, ihreg⟩ := ih (fun hm => hpor (mem_pending_of_step hstep hm)) hrun
    exact ⟨State.locksKept_trans hkept ihkept, fun b hb k =>
      (ihreg b (hkept .reg b hb) k).trans ((step_keydis_regLocked hstep hnext).2 b hb k)⟩

/-- Settles O29: one step by its cases, a run by induction on its steps. -/
theorem registerLockIsPermanent : Obligations.RegisterLockIsPermanent := by
  unfold Obligations.RegisterLockIsPermanent
  exact ⟨fun s t hpor h => ⟨step_locksKept h hpor, (step_keydis_regLocked h hpor).2⟩,
    fun _ _ _ => core_run_locks⟩

/-! ### The configuration, the fault mark, the observations, the position, the clock -/

/-- Settles O4: no operation and no host event writes either. -/
theorem stepKeepsConfigurationAndFaultMark : Obligations.StepKeepsConfigurationAndFaultMark := by
  unfold Obligations.StepKeepsConfigurationAndFaultMark
  intro s t h
  obtain ⟨u, hu, rfl, -⟩ | ⟨-, -, rfl⟩ | ⟨-, -, rfl⟩ | ⟨-, -, rfl⟩ := step_cases h
  · rw [State.settle_cfg, State.settle_faulted]
    exact ⟨hu.cfg, hu.faulted⟩
  · exact ⟨rfl, rfl⟩
  · exact ⟨rfl, rfl⟩
  · exact ⟨rfl, rfl⟩

/-- Settles O59: an operation moves the observations upwards, a host event not at all. -/
theorem observationsOnlyGrow : Obligations.ObservationsOnlyGrow := by
  unfold Obligations.ObservationsOnlyGrow
  intro s t h
  obtain ⟨u, hu, rfl, -⟩ | ⟨-, -, rfl⟩ | ⟨-, -, rfl⟩ | ⟨-, -, rfl⟩ := step_cases h
  · rw [State.settle_regAccessCount, State.settle_pulseCount, State.settle_warnLog]
    exact ⟨hu.access, hu.pulses, hu.warnings⟩
  all_goals exact ⟨le_rfl, le_rfl, 0, (List.append_nil _).symm⟩

/-- Settles O7: `settle` counts an operation that has ended; an idle step and a host event run none. -/
theorem positionAdvancesOnCompletion : Obligations.PositionAdvancesOnCompletion := by
  unfold Obligations.PositionAdvancesOnCompletion
  intro s t h
  obtain ⟨u, hu, rfl, hop, -⟩ | ⟨hup, hp, rfl⟩ | ⟨hup, ⟨rest, hp⟩, rfl⟩ | ⟨hup, ⟨rest, hp⟩, rfl⟩ :=
    step_cases h
  · rw [State.settle_position, hu.position, State.settle_uploading]
    simp only [hop, true_and]
  all_goals simp [State.operationNext, hup, hp]

/-- INIT with a non-zero clock (R186). -/
theorem exec_init_of_ne {clk : BitVec 8} (h : clk ≠ 0) (s : State) :
    exec (.init clk) s = .next { s with
      regs := { s.regs with clkMhz := clk }
      clkValid := true
      magic := 0
      fsm := .idle
      fsmTrace := .idle :: s.fsmTrace
      regAccessCount := s.regAccessCount + 1
      response := some ⟨.ok, .none⟩ } := if_neg h

/-- A step that makes the clock invalid took a clock change or a power-on reset: no operation does. -/
theorem step_clkValid_lost {s t : State} (h : step s = .next t) (hs : s.clkValid = true)
    (ht : t.clkValid = false) :
    s.pending.head? = some .clockChange ∨ s.pending.head? = some .powerOnReset := by
  obtain ⟨u, hu, rfl, -⟩ | ⟨-, -, rfl⟩ | ⟨-, ⟨rest, hp⟩, -⟩ | ⟨-, ⟨rest, hp⟩, -⟩ := step_cases h
  · rw [State.settle_clkValid, hu.clkValid hs] at ht
    cases ht
  · rw [hs] at ht
    cases ht
  · exact .inr (by rw [hp]; rfl)
  · exact .inl (by rw [hp]; rfl)

/-! ### What a step does with each entry of the host's list -/

theorem step_command {s : State} {c : Command} {d : Option Disturbance} {rest : List HostEvent}
    (hup : s.uploading = false) (hp : s.pending = .command c d :: rest) :
    step s = runCommand c d s := by
  simp only [step, stepHost, hup, hp, Bool.false_eq_true, if_false]

theorem step_powerOnReset {s : State} {rest : List HostEvent} (hup : s.uploading = false)
    (hp : s.pending = .powerOnReset :: rest) : step s = .next s.powerOnReset.dropEvent := by
  simp only [step, stepHost, hup, hp, Bool.false_eq_true, if_false]

theorem step_clockChange {s : State} {rest : List HostEvent} (hup : s.uploading = false)
    (hp : s.pending = .clockChange :: rest) : step s = .next s.clockChange.dropEvent := by
  simp only [step, stepHost, hup, hp, Bool.false_eq_true, if_false]

theorem step_otherReset {s : State} {rest : List HostEvent} (hup : s.uploading = false)
    (hp : s.pending = .otherReset :: rest) : step s = .refused .unmodelledReset := by
  simp only [step, stepHost, hup, hp, Bool.false_eq_true, if_false]

theorem runCommand_of_error {c : Command} {e : DecodeError} (h : decode c = .error e)
    (d : Option Disturbance) (s : State) : runCommand c d s = .refused .illegalCommand := by
  simp only [runCommand, h]

theorem runCommand_secondCaller {c : Command} {i : Instr} (h : decode c = .ok i) (s : State) :
    runCommand c (some .secondCaller) s = .refused .concurrentCaller := by
  simp only [runCommand, h]

theorem runCommand_reset {c : Command} {i : Instr} (h : decode c = .ok i) (s : State) :
    runCommand c (some .reset) s = .refused .unmodelledReset := by
  simp only [runCommand, h]

/-- An undisturbed legal command is run, a next state being settled. -/
theorem runCommand_next {c : Command} {i : Instr} {s t : State} (h : decode c = .ok i)
    (he : exec i s = .next t) : runCommand c none s = .next t.settle := by
  simp only [runCommand, h, he]

theorem runCommand_fault {c : Command} {i : Instr} {s : State} {f : Fault} (h : decode c = .ok i)
    (he : exec i s = .fault f) : runCommand c none s = .fault f := by
  simp only [runCommand, h, he]

/-- Settles O9: INIT by its effect, the loss by the cases of the step, a clock change by its entry. -/
theorem clockValidFromInitToChange : Obligations.ClockValidFromInitToChange := by
  unfold Obligations.ClockValidFromInitToChange
  refine ⟨rfl, fun clk s hclk => ⟨_, exec_init_of_ne hclk s, rfl, rfl⟩,
    fun s t => step_clkValid_lost, fun s rest hup hp => ?_⟩
  rw [step_clockChange hup hp, State.dropEvent, State.clockChange, hp]
  rfl

/-- Every operation has a meaning: none is refused. -/
theorem exec_ne_refused (i : Instr) (s : State) (r : Refusal) : exec i s ≠ .refused r := by
  intro h
  cases i <;> simp only [exec] at h
  case npEncode | majEncode | waitReady | disableKeyAccess | magicInit | magicAccumulate | magicGet =>
    cases h
  case npDecode => unfold execNpDecode at h; split_ifs at h
  case majDecode => unfold execMajDecode at h; split_ifs at h
  case checkReadAllowed => unfold execCheckReadAllowed checkLock at h; split_ifs at h
  case checkWriteAllowed => unfold execCheckWriteAllowed checkLock at h; split_ifs at h
  case setBlockAccess => unfold execSetBlockAccess at h; split_ifs at h
  case readByte => unfold execReadByte at h; split_ifs at h
  case bitIsProgrammed => unfold execBitIsProgrammed at h; split_ifs at h
  case programBit => unfold execProgramBit at h; split_ifs at h
  case programByte => unfold execProgramByte at h; split_ifs at h
  case init => unfold execInit at h; split_ifs at h
  case readKey => unfold execReadKey at h; dsimp only at h; split_ifs at h
  case selectKey => unfold execSelectKey at h; split_ifs at h
  case uploadKey => unfold execUploadKey at h; split_ifs at h

/-- Why a command is refused (R84, R75, R301): as illegal, or for what happens while it runs. -/
theorem runCommand_refused {c : Command} {d : Option Disturbance} {s : State} {r : Refusal}
    (h : runCommand c d s = .refused r) :
    (r = .illegalCommand ∧ ∃ e, decode c = .error e) ∨
    (r = .concurrentCaller ∧ d = some .secondCaller) ∨
    (r = .unmodelledReset ∧ d = some .reset) := by
  cases hc : decode c with
  | error e =>
    rw [runCommand_of_error hc] at h
    cases h
    exact .inl ⟨rfl, e, rfl⟩
  | ok i =>
    match d with
    | some .secondCaller =>
      rw [runCommand_secondCaller hc] at h
      cases h
      exact .inr (.inl ⟨rfl, rfl⟩)
    | some .reset =>
      rw [runCommand_reset hc] at h
      cases h
      exact .inr (.inr ⟨rfl, rfl⟩)
    | none =>
      cases he : exec i s with
      | next t => rw [runCommand_next hc he] at h; cases h
      | fault f => rw [runCommand_fault hc he] at h; cases h
      | refused r => exact absurd he (exec_ne_refused i s r)

/-- A refusing step has no UPLOAD_KEY waiting and a command or another reset at the head of the list. -/
theorem step_refused {s : State} {r : Refusal} (h : step s = .refused r) :
    s.uploading = false ∧
    ((∃ c d rest, s.pending = .command c d :: rest ∧ runCommand c d s = .refused r) ∨
      (r = .unmodelledReset ∧ ∃ rest, s.pending = .otherReset :: rest)) := by
  simp only [step, stepHost] at h
  split_ifs at h with hup
  refine ⟨by simpa using hup, ?_⟩
  split at h
  · cases h
  · next c d rest hp => exact .inl ⟨c, d, rest, hp, h⟩
  · cases h
  · cases h
  · next rest hp =>
    cases h
    exact .inr ⟨rfl, rest, hp⟩

/-- Settles O6: the causes one by one, and the converse from what stands at the head of the list. -/
theorem stepRefusesExactly : Obligations.StepRefusesExactly := by
  unfold Obligations.StepRefusesExactly
  refine ⟨fun s c d rest e hup hp hc => ?_, fun s c rest i hup hp hc => ?_,
    fun s c rest i hup hp hc => ?_, fun s rest => step_otherReset, fun s r h => ?_⟩
  · rw [step_command hup hp, runCommand_of_error hc]
  · rw [step_command hup hp, runCommand_secondCaller hc]
  · rw [step_command hup hp, runCommand_reset hc]
  · obtain ⟨hup, ⟨c, d, rest, hp, hr⟩ | ⟨rfl, rest, hp⟩⟩ := step_refused h
    · refine ⟨hup, ?_⟩
      obtain ⟨rfl, e, he⟩ | ⟨rfl, rfl⟩ | ⟨rfl, rfl⟩ := runCommand_refused hr
      · exact .inl ⟨rfl, c, d, rest, e, hp, he⟩
      · exact .inr (.inl ⟨rfl, c, rest, hp⟩)
      · exact .inr (.inr ⟨rfl, _, rest, hp, .inr ⟨c, rfl⟩⟩)
    · exact ⟨hup, .inr (.inr ⟨rfl, _, rest, hp, .inl rfl⟩)⟩

/-- Settles O5: the step is the command's run, and `settle` is the drop of its entry. -/
theorem stepRunsDecodedCommand : Obligations.StepRunsDecodedCommand := by
  unfold Obligations.StepRunsDecodedCommand
  intro s c rest i hup hp hc
  rw [step_command hup hp]
  cases he : exec i s with
  | next t =>
    rw [runCommand_next hc he]
    cases ht : t.uploading
    · rw [State.settle_of_ended ht]
      exact (if_neg (by simp [ht])).symm
    · rw [State.settle_of_waiting ht]
      exact (if_pos ht).symm
  | fault f => exact runCommand_fault hc he
  | refused r => exact absurd he (exec_ne_refused i s r)

/-- Settles O8: the entry is a power-on reset, whose effect is a record update. -/
theorem powerOnResetEffect : Obligations.PowerOnResetEffect := by
  unfold Obligations.PowerOnResetEffect
  intro s rest hup hp
  refine ⟨_, step_powerOnReset hup hp, rfl, rfl, rfl, rfl, rfl, rfl, rfl, rfl, rfl, rfl, rfl, rfl, rfl,
    rfl, ?_, rfl, rfl⟩
  rw [State.dropEvent_pending, State.powerOnReset_pending, hp]
  rfl

/-! ### The start of a run -/

/-- A machine launched with a lawful configuration meets the invariant. -/
theorem State.launch_inv {c : Config} (h : c.Lawful) : (State.launch c).Inv where
  lawful := h
  mem := State.launch_memInv c
  lock := h.2.2
  fsm := ⟨.inl rfl, rfl, rfl⟩
  disarmed := rfl

/-- Settles O1: the configuration a run is launched with is repaired, and so lawful. -/
theorem resetMeetsInvariant : Obligations.ResetMeetsInvariant :=
  State.launch_inv (Config.repaired_lawful Config.launchData)

/-- Right after the launch every byte reads as `Arr0`: no cell is listed (R24). -/
theorem State.launch_readCell (c : Config) (a : StorageArray) (n : Nat) :
    (State.launch c).readCell a n = initialByte c a n := by
  cases a <;> rfl

/-- Settles O2: the fields as `State.launch` sets them, the arrays byte by byte. -/
theorem resetState : Obligations.ResetState := by
  unfold Obligations.ResetState
  exact ⟨rfl, rfl, rfl, rfl, rfl, rfl, rfl, rfl, rfl, rfl, rfl, rfl, State.launch_readCell Config.launch⟩

end Sys2Proof.Machine
end

section
/-! Encoding and decoding (spec/30_encoding.md R80 to R89): the fields of an encoded word are the operands,
a word that decodes is the encoding of what it decodes to, and exactly the legal commands decode. -/

namespace Sys2Proof

/-! ### The fields of an encoded word -/

/-- A field of a plain command is the same field of what it was built from. -/
theorem CmdWord.field_plain {n : Nat} (x : BitVec n) (lo k : Nat) (h : lo + k ≤ 64) :
    CmdWord.field (Command.plain x).word lo k = x.extractLsb' lo k := by
  apply BitVec.eq_of_getLsbD_eq
  intro i hi
  have : lo + i < 64 := by omega
  simp [CmdWord.field, Command.plain, this]

/-- A flag of a plain command is the same bit of what it was built from. -/
theorem CmdWord.flag_plain {n : Nat} (x : BitVec n) (k : Nat) (h : k < 64) :
    CmdWord.flag (Command.plain x).word k = x.getLsbD k := by
  simp [CmdWord.flag, Command.plain, h]

/-- The operation code at the bottom of a plain command. -/
theorem CmdWord.field_op {n : Nat} (x : BitVec n) (op : BitVec 8) :
    (CmdWord.field (Command.plain (x ++ op)).word 0 8).toNat = op.toNat := by
  rw [CmdWord.field_plain _ _ _ (by decide), BitVec.extractLsb'_append_eq_of_add_le (by decide),
    BitVec.extractLsb'_eq_self]

theorem StorageArray.ofBit_getLsbD (a : StorageArray) : StorageArray.ofBit (a.toBit.getLsbD 0) = a := by
  cases a <;> rfl

theorem KeyType.ofBit_getLsbD (k : KeyType) : KeyType.ofBit (k.toBit.getLsbD 0) = k := by
  cases k <;> rfl

/-- A plain command whose fields fit decodes by its format. -/
theorem decodePlain_plain {n width : Nat} (x : BitVec n) (hn : n ≤ width) (h : width ≤ 64) (i : Instr) :
    decodePlain (Command.plain x) width i = .ok i :=
  decodePlain_ok (by
    rw [Command.plain_word x (hn.trans h)]
    exact lt_of_lt_of_le x.isLt (Nat.pow_le_pow_right (by decide) hn)) rfl

/-- Settles O14: the operation code picks the arm of the encoder's own format, the word is no longer than
that format, and each of its fields is the operand put there. -/
theorem decodeOfEncode : Obligations.DecodeOfEncode := by
  unfold Obligations.DecodeOfEncode
  intro i
  cases i <;> simp only [encode]
  case npEncode | npDecode | majEncode | majDecode | disableKeyAccess | magicGet => rfl
  all_goals
    simp only [decode, CmdWord.field_op, BitVec.toNat_ofNat]
    rw [decodePlain_plain _ (by decide) (by decide)]
    simp (disch := decide) only [CmdWord.field_plain, CmdWord.flag_plain,
      BitVec.extractLsb'_append_eq_of_le, BitVec.extractLsb'_append_eq_of_add_le,
      BitVec.extractLsb'_eq_self, BitVec.getLsbD_append, BitVec.getLsbD_ofBool,
      StorageArray.ofBit_getLsbD, KeyType.ofBit_getLsbD, Nat.reduceSub, Nat.reduceLT, if_true, if_false,
      decide_true, Bool.true_and]

/-! ### A word that decodes -/

/-- A command without a buffer is the plain command with the same word. -/
theorem Command.plain_eq {n : Nat} {x : BitVec n} {c : Command} (hn : n ≤ 64) (hb : c.buf = none)
    (hw : x.toNat = c.word.toNat) : Command.plain x = c := by
  obtain ⟨w, b⟩ := c
  obtain rfl : b = none := hb
  have : (Command.plain x).word = w := BitVec.eq_of_toNat_eq ((Command.plain_word x hn).trans hw)
  rw [← this]
  rfl

/-- A codec command with nothing above its operation code. -/
theorem Command.buffered_eq {op : BitVec 8} {b : List Byte} {c : Command} (hb : c.buf = some b)
    (hw : op.toNat = c.word.toNat) : Command.buffered op b = c := by
  obtain ⟨w, b'⟩ := c
  obtain rfl : b' = some b := hb
  have : op.setWidth 64 = w := BitVec.eq_of_toNat_eq (by
    rw [← hw]
    exact BitVec.toNat_setWidth_of_le (by decide))
  rw [← this]
  rfl

theorem CmdWord.toNat_ofBool_flag (w : CmdWord) (k : Nat) :
    (BitVec.ofBool (CmdWord.flag w k)).toNat = w.toNat / 2 ^ k % 2 := by
  rw [CmdWord.flag_eq, BitVec.toNat_ofBool]
  rcases Nat.mod_two_eq_zero_or_one (w.toNat / 2 ^ k) with h | h <;> simp [h]

theorem StorageArray.toBit_ofBit (b : Bool) : (StorageArray.ofBit b).toBit = BitVec.ofBool b := by
  cases b <;> rfl

theorem KeyType.toBit_ofBit (b : Bool) : (KeyType.ofBit b).toBit = BitVec.ofBool b := by
  cases b <;> rfl

/-- Settles O15: below the width of its format the word is its operation code and its fields, each at its
place. -/
theorem encodeOfDecode : Obligations.EncodeOfDecode := by
  unfold Obligations.EncodeOfDecode
  intro c i h
  simp only [decode] at h
  split at h
  case h_10 | h_11 | h_12 | h_13 =>
    rename_i hop
    obtain ⟨hw, b, hb, rfl⟩ := decodeBuffered_eq_ok.1 h
    refine Command.buffered_eq hb ?_
    rw [CmdWord.toNat_field, Nat.pow_zero, Nat.div_one, Nat.mod_eq_of_lt hw] at hop
    exact hop.symm
  case h_21 => cases h
  all_goals
    rename_i hop
    obtain ⟨hw, hb, rfl⟩ := decodePlain_eq_ok.1 h
    refine Command.plain_eq (by decide) hb ?_
    rw [CmdWord.toNat_field] at hop
    simp only [toNat_append_eq, StorageArray.toBit_ofBit, KeyType.toBit_ofBit,
      CmdWord.toNat_ofBool_flag, CmdWord.toNat_field, BitVec.toNat_ofNat]
    omega

/-! ### The legal commands -/

/-- The encoding of an operation is a legal command, row by row (R84). -/
theorem encode_wellFormed (i : Instr) : (encode i).wellFormed = true := by
  suffices h : Laws.EncodeIsLegal.Statement i from h.1
  cases i with
  | npEncode buf => exact Laws.EncodeIsLegal.npEncode buf
  | npDecode buf => exact Laws.EncodeIsLegal.npDecode buf
  | majEncode buf => exact Laws.EncodeIsLegal.majEncode buf
  | majDecode buf => exact Laws.EncodeIsLegal.majDecode buf
  | checkReadAllowed blk => exact Laws.EncodeIsLegal.checkReadAllowed blk
  | checkWriteAllowed blk => exact Laws.EncodeIsLegal.checkWriteAllowed blk
  | setBlockAccess blk lr lw lg => exact Laws.EncodeIsLegal.setBlockAccess blk lr lw lg
  | waitReady tmo => exact Laws.EncodeIsLegal.waitReady tmo
  | readByte a addr => exact Laws.EncodeIsLegal.readByte a addr
  | bitIsProgrammed a addr bit => exact Laws.EncodeIsLegal.bitIsProgrammed a addr bit
  | programBit a addr bit vfy => exact Laws.EncodeIsLegal.programBit a addr bit vfy
  | programByte a addr val => exact Laws.EncodeIsLegal.programByte a addr val
  | init clk => exact Laws.EncodeIsLegal.init clk
  | readKey kt kidx => exact Laws.EncodeIsLegal.readKey kt kidx
  | selectKey kidx => exact Laws.EncodeIsLegal.selectKey kidx
  | uploadKey ksz kidx => exact Laws.EncodeIsLegal.uploadKey ksz kidx
  | disableKeyAccess => exact Laws.EncodeIsLegal.disableKeyAccess
  | magicInit imm => exact Laws.EncodeIsLegal.magicInit imm
  | magicAccumulate imm => exact Laws.EncodeIsLegal.magicAccumulate imm
  | magicGet => exact Laws.EncodeIsLegal.magicGet

/-- What the three conditions of R84 say: the command belongs to a row of the table. -/
theorem Command.wellFormed_row {c : Command} (h : c.wellFormed = true) :
    ∃ r ∈ opcodeTable, CmdWord.op r.code = CmdWord.op c.word ∧ c.word &&& r.mask = r.code ∧
      c.buf.isSome = r.buffer := by
  unfold Command.wellFormed Command.codeKnown Command.unassignedZero Command.bufferFits at h
  cases hrow : c.row with
  | none => simp [hrow] at h
  | some r =>
    simp only [hrow, Option.isSome_some, Bool.true_and, Bool.and_eq_true, beq_iff_eq] at h
    exact ⟨r, List.mem_of_find?_eq_some hrow, by simpa using List.find?_some hrow, h.1, h.2⟩

/-- A word whose bits from `k` on stand under the mask is below 2 ^ k where the masked word is. -/
theorem CmdWord.toNat_lt_of_and_mask {w m v : CmdWord} {k : Nat} (h : w &&& m = v)
    (hm : ∀ i < 64, k ≤ i → m.getLsbD i = true) (hv : v.toNat < 2 ^ k) : w.toNat < 2 ^ k := by
  refine Nat.lt_pow_two_of_testBit _ fun i hi => ?_
  rcases Nat.lt_or_ge i 64 with h64 | h64
  · have hbit : w.getLsbD i = v.getLsbD i := by
      rw [← h, BitVec.getLsbD_and, hm i h64 hi, Bool.and_true]
    exact hbit.trans (Nat.testBit_eq_false_of_lt (lt_of_lt_of_le hv (Nat.pow_le_pow_right (by decide) hi)))
  · exact BitVec.getLsbD_of_ge w i h64

/-- A command that belongs to a row of the table decodes: its operation code picks the arm of the row,
and the row's mask leaves nothing above the arm's format. -/
theorem decode_of_row {c : Command} {r : OpcodeRow} (hr : r ∈ opcodeTable)
    (hop : CmdWord.op r.code = CmdWord.op c.word) (hmask : c.word &&& r.mask = r.code)
    (hbuf : c.buf.isSome = r.buffer) : ∃ i, decode c = .ok i := by
  have hfield : (CmdWord.field c.word 0 8).toNat = (CmdWord.op r.code).toNat := by rw [hop]; rfl
  simp only [opcodeTable, List.mem_append, List.mem_cons, List.not_mem_nil, or_false] at hr
  rcases hr with (rfl | rfl | rfl | rfl | rfl | rfl | rfl | rfl | rfl | rfl) |
    (rfl | rfl | rfl | rfl | rfl | rfl | rfl | rfl | rfl | rfl)
  iterate 4
    · obtain ⟨b, hb⟩ := Option.isSome_iff_exists.1 hbuf
      simp only [decode, hfield]
      exact ⟨_, decodeBuffered_eq_ok.2
        ⟨CmdWord.toNat_lt_of_and_mask hmask (by decide) (by decide), b, hb, rfl⟩⟩
  all_goals
    simp only [decode, hfield]
    exact ⟨_, decodePlain_ok (CmdWord.toNat_lt_of_and_mask hmask (by decide) (by decide))
      (Option.isNone_iff_eq_none.1 (by simpa using hbuf))⟩

/-- Settles O13: what decodes is an encoding, which is legal; what is legal belongs to a row, and decodes. -/
theorem decodesExactlyLegalCommands : Obligations.DecodesExactlyLegalCommands := by
  unfold Obligations.DecodesExactlyLegalCommands
  intro c
  constructor
  · rintro ⟨i, h⟩
    rw [← encodeOfDecode c i h]
    exact encode_wellFormed i
  · intro h
    obtain ⟨r, hr, hop, hmask, hbuf⟩ := Command.wellFormed_row h
    exact decode_of_row hr hop hmask hbuf

/-- Settles O16: every word is decoded as it stands. -/
theorem wordsOfTheSpec : Obligations.WordsOfTheSpec := by
  unfold Obligations.WordsOfTheSpec
  decide

end Sys2Proof
end

section
/-! What the two codecs deliver (spec/40_ecc_nibble.md R105 to R108, spec/41_ecc_majority.md R130 to R132), byte by
byte, and which errors they undo. -/

namespace Sys2Proof.Machine

/-! ### NP_ENCODE -/

theorem npEncodeBytes_cons (c : Config) (b : Byte) (buf : List Byte) :
    npEncodeBytes c (b :: buf) =
      c.enc (lowNibble b) :: c.enc (highNibble b) :: npEncodeBytes c buf := rfl

theorem npEncodeBytes_length (c : Config) (buf : List Byte) :
    (npEncodeBytes c buf).length = 2 * buf.length := by
  induction buf with
  | nil => rfl
  | cons b buf ih =>
    simp only [npEncodeBytes_cons, List.length_cons, ih]
    omega

/-- The two bytes that stand for input byte `i` (R105). -/
theorem npEncodeBytes_getElem? (c : Config) {buf : List Byte} {i : Nat} {b : Byte}
    (h : buf[i]? = some b) :
    (npEncodeBytes c buf)[2 * i]? = some (c.enc (lowNibble b)) ∧
    (npEncodeBytes c buf)[2 * i + 1]? = some (c.enc (highNibble b)) := by
  induction buf generalizing i with
  | nil => cases h
  | cons x buf ih =>
    cases i with
    | zero =>
      obtain rfl : x = b := by simpa using h
      exact ⟨rfl, rfl⟩
    | succ i => exact ih h

/-- Settles O18: the encoded bytes, pair by pair. -/
theorem npEncodeResult : Obligations.NpEncodeResult := by
  unfold Obligations.NpEncodeResult
  exact fun buf s => ⟨_, exec_npEncode buf s, npEncodeBytes_length s.cfg buf,
    fun _ _ => npEncodeBytes_getElem? s.cfg⟩

/-! ### NP_DECODE -/

/-- The byte decoded from pair `i` (R106). -/
theorem npDecodeBytes_getElem? (c : Config) {buf : List Byte} {i : Nat} {lo hi : Byte}
    (hlo : buf[2 * i]? = some lo) (hhi : buf[2 * i + 1]? = some hi) :
    (npDecodeBytes c buf)[i]? = some (npDecodePair c lo hi) := by
  induction buf using npDecodeBytes.induct generalizing i with
  | case1 x y rest ih =>
    cases i with
    | zero =>
      obtain rfl : x = lo := by simpa using hlo
      obtain rfl : y = hi := by simpa using hhi
      rfl
    | succ i => exact ih hlo hhi
  | case2 buf h =>
    rcases buf with _ | ⟨x, _ | ⟨y, ys⟩⟩
    · cases hhi
    · cases hhi
    · exact absurd rfl (h x y ys)

/-- Settles O19: the status from the lookups' reports, the output pair by pair; an odd length stops. -/
theorem npDecodeResult : Obligations.NpDecodeResult := by
  unfold Obligations.NpDecodeResult
  refine ⟨fun buf s heven => ⟨_, _, exec_npDecode_of_even heven s, npDecodeBytes_length s.cfg buf,
    fun _ _ _ => npDecodeBytes_getElem? s.cfg, ?_, ?_⟩, fun buf s hodd => exec_npDecode_of_odd hodd s⟩
  · cases npAnyBad s.cfg buf
    · exact .inl rfl
    · exact .inr rfl
  · rw [← npAnyBad_iff s.cfg buf heven]
    cases npAnyBad s.cfg buf <;> simp

/-- With tables that meet the laws an encoded byte with at most one flipped bit is corrected, and its
report is no sentinel (R103 L1, L2). -/
theorem dec_withError {c : Config} (h : c.TableLaws) (n : Nibble) (e : Option BitPos) :
    c.decValue (withError (c.enc n) e) = n ∧ c.decReport (withError (c.enc n) e) ≠ npSentinel := by
  obtain ⟨hL1, hL2, -, -⟩ := h
  cases e with
  | none =>
    refine ⟨(hL1 n).1, ?_⟩
    rw [withError, (hL1 n).2]
    decide
  | some k =>
    refine ⟨(hL2 n k).1, ?_⟩
    rw [withError, (hL2 n k).2]
    revert k
    decide

/-- An encoded buffer with at most one flipped bit in each byte decodes to the original, and no lookup
reports the sentinel. -/
theorem npDecode_withErrors {c : Config} (h : c.TableLaws) {x : List Byte}
    {errs : List (Option BitPos)} (hlen : errs.length = 2 * x.length) :
    npDecodeBytes c (List.zipWith withError (npEncodeBytes c x) errs) = x ∧
    npAnyBad c (List.zipWith withError (npEncodeBytes c x) errs) = false := by
  induction x generalizing errs with
  | nil => exact ⟨rfl, rfl⟩
  | cons b x ih =>
    obtain _ | ⟨e1, _ | ⟨e2, errs⟩⟩ := errs
    · simp at hlen
    · simp only [List.length_cons, List.length_nil] at hlen
      omega
    · obtain ⟨ihx, ihbad⟩ := ih (errs := errs) (by simp only [List.length_cons] at hlen; omega)
      obtain ⟨hlo, hlo'⟩ := dec_withError h (lowNibble b) e1
      obtain ⟨hhi, hhi'⟩ := dec_withError h (highNibble b) e2
      simp only [npEncodeBytes_cons, List.zipWith_cons_cons, npDecodeBytes, npDecodePair, npAnyBad,
        npPairBad, ihx, ihbad, hlo, hhi, nibbles_append, beq_eq_false_iff_ne.2 hlo',
        beq_eq_false_iff_ne.2 hhi', Bool.or_self, and_self]

/-- Settles O20: both lookups of every pair are corrected. -/
theorem npSingleErrorsCorrected : Obligations.NpSingleErrorsCorrected := by
  unfold Obligations.NpSingleErrorsCorrected
  intro x errs s hlaws hlen
  obtain ⟨hx, hbad⟩ := npDecode_withErrors hlaws hlen
  have heven : (List.zipWith withError (npEncodeBytes s.cfg x) errs).length % 2 = 0 := by
    rw [List.length_zipWith, npEncodeBytes_length, hlen]
    omega
  rw [exec_npDecode_of_even heven, hx, hbad]
  rfl

/-- Settles O21: the byte with two flipped bits reports the sentinel (R103 L3). -/
theorem npDoubleErrorDetected : Obligations.NpDoubleErrorDetected := by
  unfold Obligations.NpDoubleErrorDetected
  intro buf m n j k s hlaws heven hjk hm
  obtain ⟨-, -, hL3, -⟩ := hlaws
  have hbad : npAnyBad s.cfg buf = true :=
    (npAnyBad_iff s.cfg buf heven).2 ⟨_, List.mem_of_getElem? hm, hL3 n j k hjk⟩
  refine ⟨_, npDecodeBytes_length s.cfg buf, ?_⟩
  rw [exec_npDecode_of_even heven, hbad]
  rfl

/-! ### The majority codec -/

/-- The three copies, one after the other (R130). -/
theorem majEncodeBytes_getElem? (buf : List Byte) {k i : Nat} (hk : k < 3) (hi : i < buf.length) :
    (majEncodeBytes buf)[k * buf.length + i]? = buf[i]? := by
  unfold majEncodeBytes
  obtain rfl | rfl | rfl : k = 0 ∨ k = 1 ∨ k = 2 := by omega
  · rw [Nat.zero_mul, Nat.zero_add, List.append_assoc, List.getElem?_append_left hi]
  · rw [Nat.one_mul, List.append_assoc, List.getElem?_append_right (by omega),
      Nat.add_sub_cancel_left, List.getElem?_append_left hi]
  · rw [List.getElem?_append_right (by rw [List.length_append]; omega)]
    congr 1
    rw [List.length_append]
    omega

/-- Settles O22: the output is the buffer three times. -/
theorem majEncodeResult : Obligations.MajEncodeResult := by
  unfold Obligations.MajEncodeResult
  refine fun buf s => ⟨majEncodeBytes buf, rfl, ?_, fun _ hk _ hi => majEncodeBytes_getElem? buf hk hi⟩
  simp only [majEncodeBytes, List.length_append]
  omega

/-- MAJ_DECODE rejects a length that is no multiple of 3 (R131, D6). -/
theorem exec_majDecode_of_bad_length {buf : List Byte} (h : buf.length % 3 ≠ 0) (s : State) :
    exec (.majDecode buf) s = .next { s with response := some ⟨.invalidParameter, .bytes []⟩ } :=
  if_neg h

/-- MAJ_DECODE votes byte by byte (R131). -/
theorem exec_majDecode {buf : List Byte} (h : buf.length % 3 = 0) (s : State) :
    exec (.majDecode buf) s =
      .next { s with response := some ⟨.ok, .bytes (majDecodeBytes buf)⟩ } := if_pos h

/-- A bit of the vote is 1 exactly when at least two of the three copies have it 1. -/
theorem maj_bit_count (b0 b1 b2 : Byte) (j : Nat) :
    (maj b0 b1 b2).getLsbD j = decide (2 ≤ [b0, b1, b2].countP fun b => b.getLsbD j) := by
  rw [maj_bit]
  simp only [List.countP_cons, List.countP_nil]
  cases b0.getLsbD j <;> cases b1.getLsbD j <;> cases b2.getLsbD j <;> rfl

/-- Byte `i` of the output is the vote of its three copies. -/
theorem majDecodeBytes_getElem? {buf : List Byte} {i : Nat} {b0 b1 b2 : Byte}
    (hi : i < buf.length / 3) (h0 : buf[i]? = some b0) (h1 : buf[buf.length / 3 + i]? = some b1)
    (h2 : buf[2 * (buf.length / 3) + i]? = some b2) :
    (majDecodeBytes buf)[i]? = some (maj b0 b1 b2) := by
  simp only [majDecodeBytes, List.getElem?_map, List.getElem?_range hi, Option.map_some,
    List.getD_eq_getElem?_getD, h0, h1, h2, Option.getD_some]

/-- Settles O23: the two lengths, and the vote bit by bit. -/
theorem majDecodeResult : Obligations.MajDecodeResult := by
  unfold Obligations.MajDecodeResult
  refine ⟨fun buf s h => exec_majDecode_of_bad_length h s,
    fun buf s h => ⟨_, exec_majDecode h s, by simp [majDecodeBytes], fun i b0 b1 b2 hi h0 h1 h2 =>
      ⟨_, majDecodeBytes_getElem? hi h0 h1 h2, fun j _ => maj_bit_count b0 b1 b2 j⟩⟩⟩

/-- Three segments of one length are voted on place by place. -/
theorem majDecodeBytes_segments {b0 b1 b2 : List Byte} (h1 : b1.length = b0.length)
    (h2 : b2.length = b0.length) :
    majDecodeBytes (b0 ++ b1 ++ b2) =
      (List.range b0.length).map fun i => maj (b0.getD i 0) (b1.getD i 0) (b2.getD i 0) := by
  have hn : (b0 ++ b1 ++ b2).length / 3 = b0.length := by
    simp only [List.length_append, h1, h2]
    omega
  simp only [majDecodeBytes, hn]
  refine List.map_congr_left fun i hi => ?_
  have hi : i < b0.length := List.mem_range.1 hi
  simp only [List.getD_eq_getElem?_getD]
  congr 2
  · rw [List.append_assoc, List.getElem?_append_left hi]
  · rw [List.append_assoc, List.getElem?_append_right (by omega), Nat.add_sub_cancel_left,
      List.getElem?_append_left (by omega)]
  · rw [List.getElem?_append_right (by rw [List.length_append]; omega), List.length_append]
    congr 2
    omega

theorem map_getD_range (x : List Byte) : ((List.range x.length).map fun i => x.getD i 0) = x := by
  refine List.ext_getElem (by simp) fun i _ hi => ?_
  simp [hi]

/-- MAJ_DECODE of three segments of which two agree at each place delivers what they agree on. -/
theorem exec_majDecode_segments {b0 b1 b2 x : List Byte} (h0 : b0.length = x.length)
    (h1 : b1.length = x.length) (h2 : b2.length = x.length)
    (hmaj : ∀ i, maj (b0.getD i 0) (b1.getD i 0) (b2.getD i 0) = x.getD i 0) (s : State) :
    exec (.majDecode (b0 ++ b1 ++ b2)) s = .next { s with response := some ⟨.ok, .bytes x⟩ } := by
  have hlen : (b0 ++ b1 ++ b2).length % 3 = 0 := by
    simp only [List.length_append, h0, h1, h2]
    omega
  rw [exec_majDecode hlen, majDecodeBytes_segments (h1.trans h0.symm) (h2.trans h0.symm), h0]
  simp only [hmaj, map_getD_range]

/-- Settles O24: two equal copies decide each vote, wherever the third stands. -/
theorem majorityOutvotesOneSegment : Obligations.MajorityOutvotesOneSegment := by
  unfold Obligations.MajorityOutvotesOneSegment
  intro x y s h
  exact ⟨exec_majDecode_segments h rfl rfl (fun _ => (maj_self _ _).1) s,
    exec_majDecode_segments rfl h rfl (fun _ => (maj_self _ _).2.1) s,
    exec_majDecode_segments rfl rfl h (fun _ => (maj_self _ _).2.2) s⟩

end Sys2Proof.Machine
end

section
/-! The lock registers (spec/42_access_gate.md R153, R156): a write bit by bit, and SET_BLOCK_ACCESS. -/

namespace Sys2Proof.Machine

/-- Settles O28: the register of the written kind and index takes the value by the law of R156, bit by bit,
the others stay. -/
theorem lockRegisterWriteLaw : Obligations.LockRegisterWriteLaw := by
  unfold Obligations.LockRegisterWriteLaw
  intro s k r v hr k' r' j hj
  rw [State.lockByteAt_writeLock]
  by_cases h : k' = k ∧ r' = r
  · obtain ⟨rfl, rfl⟩ := h
    rw [if_pos ⟨rfl, rfl, hr⟩, lockWriteLaw_bit _ _ _ _ hj]
    cases (s.lockByteAt .reg r').getLsbD j <;> simp
  · rw [if_neg fun h' => h ⟨h'.1, h'.2.1⟩, if_neg fun h' => h ⟨h'.1, h'.2.1⟩]

/-- SET_BLOCK_ACCESS of a block that has a lock register (R153). -/
theorem exec_setBlockAccess_of_lt {blk : BitVec 8} {s : State} (h : blk.toNat < 8 * s.cfg.numLockRegs)
    (lr lw lg : Bool) :
    exec (.setBlockAccess blk lr lw lg) s =
      .next ((s.setBlockAccess blk.toNat lr lw lg).deliver .ok .none) :=
  if_pos ((s.hasBlock_iff _).2 h)

/-- SET_BLOCK_ACCESS of a block without a lock register stops before any access (R150). -/
theorem exec_setBlockAccess_of_le {blk : BitVec 8} {s : State} (h : 8 * s.cfg.numLockRegs ≤ blk.toNat)
    (lr lw lg : Bool) :
    exec (.setBlockAccess blk lr lw lg) s = .fault (.blockOutOfRange s.raise) :=
  if_neg (mt (s.hasBlock_iff _).1 (Nat.not_lt.2 h))

/-- Settles O27: the state by what the writes keep, the lock bits one by one; the block's register is there
by `LockInv`. -/
theorem setBlockAccessResult : Obligations.SetBlockAccessResult := by
  unfold Obligations.SetBlockAccessResult
  intro blk lr lw lg s hinv
  refine ⟨fun h => ⟨(s.setBlockAccess blk.toNat lr lw lg).locks, ?_, ?_, fun k b _ => ?_⟩,
    fun h => exec_setBlockAccess_of_le h lr lw lg⟩
  · rw [exec_setBlockAccess_of_lt h, State.setBlockAccess_keep]
    rfl
  · simp [State.setBlockAccess]
  · have hreg : blockReg blk.toNat < s.locks.length := by
      rw [hinv, blockReg]
      omega
    refine (State.locked_congr (s := s.setBlockAccess blk.toNat lr lw lg) rfl k b).trans ?_
    rw [State.locked_setBlockAccess]
    simp only [hreg, decide_true, Bool.and_true]
    by_cases hb : b = blk.toNat
    · subst hb
      rfl
    · simp only [beq_eq_false_iff_ne.2 hb, Bool.false_and]

end Sys2Proof.Machine
end

section
/-! The command register and the poll (spec/43_otp_fsm.md R171, R174). -/

namespace Sys2Proof.Machine

/-- An accepted program command whose draw is 0 takes the draw and nothing else (R174). -/
theorem State.acceptPulse_of_not_burn {s : State} {ps : List Bool} (h : s.draws.pulse = false :: ps) :
    s.acceptPulse = s.drawPulse.2 := by
  simp [State.acceptPulse, State.drawPulse, h]

/-- One whose draw is 1 sets the addressed bit (R174). -/
theorem State.acceptPulse_of_burn {s : State} {ps : List Bool} (h : s.draws.pulse = true :: ps) :
    s.acceptPulse = s.drawPulse.2.burn s.regs.arr s.regs.byteAddr s.regs.bitPos := by
  simp [State.acceptPulse, State.drawPulse, h]

/-- What an accepted program command leaves alone, whatever it burns. -/
theorem State.acceptPulse_keep (s : State) :
    s.acceptPulse = { s with
      key := s.acceptPulse.key
      fuse := s.acceptPulse.fuse
      draws := { s.draws with pulse := s.draws.pulse.tail, drawn := s.draws.drawn + 1 } } := by
  have hf := PulseFrame.acceptPulse s
  ext1 <;> simp [hf.cfg, hf.locks, hf.keyAccessDisabled, hf.magic, hf.clkValid, hf.faulted, hf.position,
    hf.pending, hf.uploading, hf.response]

/-- The cells after an accepted program command with a listed draw. -/
theorem State.readCell_acceptPulse {s : State} {p : Bool} {ps : List Bool}
    (h : s.draws.pulse = p :: ps) (a : StorageArray) (n : Nat) :
    s.acceptPulse.readCell a n =
      if p = true ∧ a = s.regs.arr ∧ n = s.regs.byteAddr.toNat then
        s.readCell s.regs.arr s.regs.byteAddr.toNat ||| bitMask s.regs.bitPos.toNat
      else s.readCell a n := by
  have hdraw : ∀ a n, s.drawPulse.2.readCell a n = s.readCell a n :=
    State.readCell_congr rfl rfl rfl
  cases p
  · rw [State.acceptPulse_of_not_burn h, hdraw]
    simp
  · rw [State.acceptPulse_of_burn h, State.readCell_burn, hdraw, hdraw]
    simp only [true_and]

/-- Settles O12: the four kinds of write; an accepted command by its draw. -/
theorem commandRegisterLaw : Obligations.CommandRegisterLaw := by
  unfold Obligations.CommandRegisterLaw
  intro s v
  refine ⟨fun h => State.writeCmd_arm s v h, fun h ha => ?_, fun h ha hp =>
    State.writeCmd_rejected s v h ha hp, fun h ha hp p ps hps => ⟨_, rfl, ?_⟩⟩
  · rw [State.writeCmd_disarmed s v h ha]
    simp only [State.setArmed, State.access, ← ha]
  · rw [State.writeCmd_accepted s v h ha hp]
    have hdraws : ((s.access.setArmed false).countPulse).draws.pulse = p :: ps := hps
    have hcell : ∀ a n, ((s.access.setArmed false).countPulse).readCell a n = s.readCell a n :=
      State.readCell_congr rfl rfl rfl
    refine ⟨?_, ?_, ?_, ?_⟩
    · conv_lhs => rw [State.acceptPulse_keep]
      simp [State.countPulse, State.setArmed, State.access, hps]
    · rintro rfl
      rw [State.acceptPulse_of_not_burn hdraws]
      exact ⟨rfl, rfl⟩
    · rintro rfl
      rw [State.readCell_acceptPulse hdraws, if_pos ⟨rfl, rfl, rfl⟩, hcell]
      rfl
    · intro a n hne
      rw [State.readCell_acceptPulse hdraws, if_neg, hcell]
      rintro ⟨-, rfl, rfl⟩
      exact hne.elim (absurd rfl) (absurd rfl)

/-- WAIT_READY delivers the status of its poll (R171). -/
theorem exec_waitReady (tmo : BitVec 32) (s : State) :
    exec (.waitReady tmo) s =
      .next ((s.waitReady tmo.toNat).2.deliver (s.waitReady tmo.toNat).1 .none) := rfl

/-- Settles O30: the first ready poll ends the wait, or the last poll does. -/
theorem waitReadyResult : Obligations.WaitReadyResult := by
  unfold Obligations.WaitReadyResult
  refine fun tmo s => ⟨fun j hj h hb => ?_, fun hb => ?_⟩
  · rw [exec_waitReady, State.waitReady_ok s tmo.toNat j hj h hb]
    rfl
  · rw [exec_waitReady, State.waitReady_timeout s tmo.toNat hb]
    rfl

end Sys2Proof.Machine
end

section
/-! The read transaction as an operation (spec/43_otp_fsm.md R172, R173, spec/20_memory.md R68), what a clock that is
not configured stops (R302), INIT (R186), and the bounds on register accesses (R188). -/

open Sys2Proof

namespace Sys2Proof.Machine

/-! ### The array operations as their bodies -/

section Clocked

variable {s : State} (hclk : s.clkValid = true)

include hclk

theorem exec_readByte (a : StorageArray) (addr : ByteAddr) :
    exec (.readByte a addr) s =
      .next ((readByteBody a addr s).state.deliver (readByteBody a addr s).status
        (.byte (readByteBody a addr s).byte)) := if_pos hclk

theorem exec_bitIsProgrammed (a : StorageArray) (addr : ByteAddr) (bit : BitPos) :
    exec (.bitIsProgrammed a addr bit) s =
      .next ((readByteBody a addr s).state.deliver (readByteBody a addr s).status
        (.flag ((readByteBody a addr s).byte.getLsbD bit.toNat))) := if_pos hclk

theorem exec_programBit (a : StorageArray) (addr : ByteAddr) (bit : BitPos) (vfy : Bool) :
    exec (.programBit a addr bit vfy) s =
      .next (((programBitBody a addr bit vfy s).2.setMagic 0).deliver
        (programBitBody a addr bit vfy s).1 .none) := if_pos hclk

theorem exec_programByte (a : StorageArray) (addr : ByteAddr) (val : Byte) :
    exec (.programByte a addr val) s =
      .next (((programByteBody a addr val s).2.setMagic 0).deliver
        (programByteBody a addr val s).1 .none) := if_pos hclk

end Clocked

/-- Settles O41: the check of the clock stands before anything else in each of the four. -/
theorem unconfiguredClockFaults : Obligations.UnconfiguredClockFaults := by
  unfold Obligations.UnconfiguredClockFaults
  intro i s hi hclk
  have hclk : ¬s.clkValid = true := by simp [hclk]
  cases i
  case readByte | bitIsProgrammed | programBit | programByte => exact if_neg hclk
  all_goals cases hi

/-- An operation that drives the array and answers a next state found the clock configured (R302). -/
theorem clkValid_of_next {i : Instr} {s t : State} (hi : i.needsClock = true)
    (h : exec i s = .next t) : s.clkValid = true := by
  cases hclk : s.clkValid
  · rw [unconfiguredClockFaults i s hi hclk] at h
    cases h
  · rfl

/-- With a configured clock an operation that drives the array answers (R302). -/
theorem exec_next_of_clkValid {i : Instr} {s : State} (hi : i.needsClock = true)
    (hclk : s.clkValid = true) : ∃ t, exec i s = .next t := by
  cases i
  case readByte a addr => exact ⟨_, exec_readByte hclk a addr⟩
  case bitIsProgrammed a addr bit => exact ⟨_, exec_bitIsProgrammed hclk a addr bit⟩
  case programBit a addr bit vfy => exact ⟨_, exec_programBit hclk a addr bit vfy⟩
  case programByte a addr val => exact ⟨_, exec_programByte hclk a addr val⟩
  all_goals cases hi

/-- Settles O42: the two branches on the operand. -/
theorem initResult : Obligations.InitResult := by
  unfold Obligations.InitResult
  exact ⟨fun _ s h => exec_init_of_ne h s, fun _ => rfl⟩

/-! ### READ_BYTE and BIT_IS_PROGRAMMED -/

/-- What a read transaction from a disarmed command register leaves alone. -/
theorem readByteBody_keep (a : StorageArray) (addr : ByteAddr) {s : State}
    (hd : s.cfg.DistinctCommands) (ha : s.regs.armed = false) :
    (readByteBody a addr s).state = { s with
      regs := { s.regs with ack := false, arr := a, byteAddr := addr, armed := false, data := 0x01 }
      fsm := (readByteBody a addr s).state.fsm
      fsmTrace := (readByteBody a addr s).state.fsm ::
        .pollingReady :: .readPulse :: .addressing :: s.fsmTrace
      regAccessCount := (readByteBody a addr s).state.regAccessCount
      draws := (readByteBody a addr s).state.draws } := by
  have hf := OtpFrame.readByteBody a addr s
  obtain ⟨hkey, hfuse⟩ := readByteBody_arrays a addr s (.inr ha)
  ext1 <;> simp [hkey, hfuse, hf.clkValid, hf.faulted, hf.position, hf.pending, hf.uploading,
    hf.response, readByteBody_pulseCount a addr s ha, hd.2.1.symm]

/-- Settles O31: the read transaction, for every sequence of draws. -/
theorem readByteCompletes : Obligations.ReadByteCompletes := by
  unfold Obligations.ReadByteCompletes
  intro a addr s hclk hd ha
  obtain ⟨hlow, hhigh⟩ := readByteBody_access a addr s
  refine ⟨_, _, _, exec_readByte hclk a addr, readByteBody_status a addr s,
    readByteBody_ok_iff a addr s (.inr ha), readByteBody_byte a addr s (.inr ha),
    readByteBody_fsm a addr s, hlow, hhigh, ?_⟩
  conv_lhs => rw [readByteBody_keep a addr hd ha]
  rfl

/-- A premise about the head of a tape, `n` entries off it and `m` more to come. -/
theorem exists_replicate_append {α : Type} {l : List α} {x : α} {n : Nat} (m : Nat)
    (h : ∀ j < m + n, l[j]? = some x) :
    ∃ rest, l = List.replicate n x ++ rest ∧ ∀ j < m, rest[j]? = some x := by
  induction n generalizing l with
  | zero => exact ⟨l, rfl, h⟩
  | succ n ih =>
    cases l with
    | nil => cases h 0 (by omega)
    | cons y l =>
      obtain rfl : y = x := by simpa using h 0 (by omega)
      obtain ⟨rest, rfl, hrest⟩ := ih fun j hj => h (j + 1) (by omega)
      exact ⟨rest, rfl, hrest⟩

theorem KeySlot.holds_iff (k : KeySlot) (n : Nat) :
    k.holds n = true ↔ k.base ≤ n ∧ n < k.base + k.size := by
  simp only [KeySlot.holds, Bool.and_eq_true, decide_eq_true_eq]

/-- Which bytes are readable (R68). -/
theorem State.readable_iff (s : State) (a : StorageArray) (n : Nat) :
    s.readable a n = true ↔
      ¬(a = .key ∧ (s.keyAccessDisabled = true ∨
        ∃ kt i, i < KeyType.slots kt ∧ (keySlot kt i).base ≤ n ∧
          n < (keySlot kt i).base + (keySlot kt i).size ∧
          s.locked .read (keySlot kt i).block = true)) := by
  have hslots : (keySlots.any fun k => k.holds n && s.locked .read k.block) = true ↔
      ∃ kt i, i < KeyType.slots kt ∧ (keySlot kt i).base ≤ n ∧
        n < (keySlot kt i).base + (keySlot kt i).size ∧
        s.locked .read (keySlot kt i).block = true := by
    rw [List.any_eq_true]
    constructor
    · rintro ⟨k, hk, h⟩
      obtain ⟨kt, i, hi, rfl⟩ := (mem_keySlots k).1 hk
      rw [Bool.and_eq_true, KeySlot.holds_iff, and_assoc] at h
      exact ⟨kt, i, hi, h⟩
    · rintro ⟨kt, i, hi, h⟩
      refine ⟨_, (mem_keySlots _).2 ⟨kt, i, hi, rfl⟩, ?_⟩
      rw [Bool.and_eq_true, KeySlot.holds_iff, and_assoc]
      exact h
  rw [← hslots, State.readable, Bool.not_eq_true', ← Bool.not_eq_true, Bool.and_eq_true,
    Bool.or_eq_true, beq_iff_eq]

/-- Settles O32: the read transaction with two ready polls, and readability slot by slot. -/
theorem readByteWhenReady : Obligations.ReadByteWhenReady := by
  unfold Obligations.ReadByteWhenReady
  refine ⟨fun a addr s hclk hd hr => ?_, fun s a n => s.readable_iff a n⟩
  obtain ⟨rs, hrs, -⟩ := exists_replicate_append (n := 2) 0 hr
  obtain ⟨hst, -, hcount⟩ := readByteBody_ready a addr s hrs
  refine ⟨_, exec_readByte hclk a addr, hcount, ?_, ?_⟩
  · rw [State.deliver_fsm, readByteBody_fsm, hst]
    rfl
  · rw [State.deliver_response, hst, readByteBody_ready_byte a addr s hrs (.inl hd.2.2)]

/-- Settles O33: both operations are the same read transaction. -/
theorem bitIsProgrammedReadsOneBit : Obligations.BitIsProgrammedReadsOneBit := by
  unfold Obligations.BitIsProgrammedReadsOneBit
  exact fun a addr bit s hclk => ⟨_, _, _, exec_readByte hclk a addr, rfl,
    exec_bitIsProgrammed hclk a addr bit⟩

/-! ### The bounds on register accesses -/

/-- PROGRAM_BIT makes at most a read transaction and its algorithm's program transaction (R188). -/
theorem programBitBody_access_le (a : StorageArray) (addr : ByteAddr) (bit : BitPos) (vfy : Bool)
    (s : State) :
    (programBitBody a addr bit vfy s).2.regAccessCount ≤ s.regAccessCount + 229568 ∧
    (s.cfg.progAlgo = .smart →
      (programBitBody a addr bit vfy s).2.regAccessCount ≤ s.regAccessCount + 20502) := by
  have hread := (readByteBody_access a addr s).2
  have halgo := programBitAlgo_access_le a addr bit s
  have hafter := programBitAlgo_access_le a addr bit (readByteBody a addr s).state
  rw [readByteBody_cfg] at hafter
  unfold programBitBody bitIsProgrammedBody
  dsimp only
  split_ifs
  · exact ⟨hread.trans (by omega), fun _ => hread.trans (by omega)⟩
  · exact ⟨by omega, fun h => by have := hafter.2 h; omega⟩
  · exact ⟨by omega, fun h => by have := halgo.2 h; omega⟩

/-- Settles O43: the bounds of the bodies; what a body answers is delivered without an access. -/
theorem arrayOperationsAreBounded : Obligations.ArrayOperationsAreBounded := by
  unfold Obligations.ArrayOperationsAreBounded
  refine fun s t => ⟨fun a addr h => ?_, fun a addr bit vfy hal h => ?_, fun a addr bit vfy hal h => ?_,
    fun a addr val h => ?_⟩
  all_goals have hclk := clkValid_of_next rfl h
  · rw [exec_readByte hclk] at h
    cases h
    exact (readByteBody_access a addr s).2
  · rw [exec_programBit hclk] at h
    cases h
    exact (programBitBody_access_le a addr bit vfy s).2 hal
  · rw [exec_programBit hclk] at h
    cases h
    exact (programBitBody_access_le a addr bit vfy s).1
  · rw [exec_programByte hclk] at h
    cases h
    exact programByteBody_access_le a addr val s

end Sys2Proof.Machine
end

section
/-! The key vault (spec/44_key_vault.md R230 to R233): the slot map, READ_KEY's ends in their order, the stream of a
granted READ_KEY, the polls of SELECT_KEY and UPLOAD_KEY, the permanence of DISABLE_KEY_ACCESS. -/

open Sys2Proof

namespace Sys2Proof.Machine

/-! ### The slot map -/

/-- Settles O44: the AES slots lie below the ECC slots, and two slots of one type are a whole number of
sizes apart. -/
theorem keySlotsAreDisjoint : Obligations.KeySlotsAreDisjoint := by
  unfold Obligations.KeySlotsAreDisjoint
  intro kt kt' i j hi hj
  simp only [KeySlot.holds_iff]
  cases kt <;> cases kt' <;>
    simp only [keySlot, KeyType.slots, ne_eq, Prod.mk.injEq, true_and] at *
  all_goals exact ⟨by omega, by omega, fun _ => ⟨by omega, fun n => by omega⟩⟩

theorem keySlot_end_le {kt : KeyType} {i : Nat} (h : i < kt.slots) :
    (keySlot kt i).base + (keySlot kt i).size ≤ 8192 := (keySlotsAreDisjoint kt kt i i h h).1

/-! ### The ends of READ_KEY before its stream -/

section ReadKey

variable {kt : KeyType} {kidx : BitVec 8} {s : State}

theorem exec_readKey_of_le (h : kt.slots ≤ kidx.toNat) :
    exec (.readKey kt kidx) s = .next { s with response := some ⟨.invalidParameter, .bytes []⟩ } :=
  if_pos h

/-- A READ_KEY that the gate denies ends after the two gate reads (R230, R275). -/
theorem exec_readKey_denied (h : kidx.toNat < kt.slots)
    (hd : s.keyAccessDisabled = true ∨ s.locked .read (keySlot kt kidx.toNat).block = true) :
    exec (.readKey kt kidx) s = .next { s with
      regAccessCount := s.regAccessCount + 2
      response := some ⟨.accessDenied, .bytes []⟩ } := by
  have hblock := State.hasBlock_slot s kt kidx.toNat h
  have hgate : (s.keyAccessDisabled || (s.access.lockByteAt .read
      (blockReg (keySlot kt kidx.toNat).block)).getLsbD (blockBit (keySlot kt kidx.toNat).block)) =
      true := by
    rw [Bool.or_eq_true]
    exact hd
  simp only [exec, execReadKey, if_neg (Nat.not_le.2 h), hblock, if_true, State.readLock,
    State.readKeydis, hgate]
  rfl

/-- A READ_KEY that the gate grants stops where the clock is not configured (R230, R272). -/
theorem exec_readKey_unconfigured (h : kidx.toNat < kt.slots) (h1 : s.keyAccessDisabled = false)
    (h2 : s.locked .read (keySlot kt kidx.toNat).block = false) (h3 : s.clkValid = false) :
    exec (.readKey kt kidx) s = .fault (.clockNotConfigured
      { s with faulted := true, response := none, regAccessCount := s.regAccessCount + 2 }) := by
  have hblock := State.hasBlock_slot s kt kidx.toNat h
  have hgate : (s.keyAccessDisabled || (s.access.lockByteAt .read
      (blockReg (keySlot kt kidx.toNat).block)).getLsbD (blockBit (keySlot kt kidx.toNat).block)) =
      false := by
    rw [Bool.or_eq_false_iff]
    exact ⟨h1, h2⟩
  simp only [exec, execReadKey, if_neg (Nat.not_le.2 h), hblock, if_true, State.readLock,
    State.readKeydis, hgate, Bool.false_eq_true, if_false, State.access_clkValid]
  exact if_neg (by simp [h3])

end ReadKey

/-- Settles O45: the index, the gate, the clock, in their order. -/
theorem readKeyEarlyEnds : Obligations.ReadKeyEarlyEnds := by
  unfold Obligations.ReadKeyEarlyEnds
  exact fun kt kidx s => ⟨exec_readKey_of_le, exec_readKey_denied, exec_readKey_unconfigured⟩

/-- Settles O48: a denied READ_KEY looks at its index and the gate, and at no key. -/
theorem deniedReadKeyRevealsNothing : Obligations.DeniedReadKeyRevealsNothing := by
  unfold Obligations.DeniedReadKeyRevealsNothing
  intro kt kidx s m hd
  rcases Nat.lt_or_ge kidx.toNat kt.slots with h | h
  · exact ⟨_, exec_readKey_denied h hd, exec_readKey_denied (s := { s with key := m }) h hd, rfl⟩
  · exact ⟨_, exec_readKey_of_le h, exec_readKey_of_le h, rfl⟩

/-! ### The stream of a granted READ_KEY -/

/-- Settles O46: the stream with every poll ready, of a slot whose bytes are all readable. -/
theorem readKeyDeliversSlot : Obligations.ReadKeyDeliversSlot := by
  unfold Obligations.ReadKeyDeliversSlot
  intro kt kidx s h h1 h2 h3 hd hr
  obtain ⟨hst, hbytes, hcount⟩ := readBytes_listed .key s.access.access (keySlot kt kidx.toNat).base
    (keySlot kt kidx.toNat).size (.inl hd.2.2) (.inr hd.2.2) hr
    (State.readable_slot (s := s.access.access) h h1 h2) (keySlot_end_le h)
  refine ⟨_, execReadKey_granted h h1 h2 h3, ?_, hcount⟩
  rw [State.deliver_response, hst, hbytes]
  rfl

/-- A read transaction never looks at the delivered response. -/
theorem readByteBody_response (a : StorageArray) (addr : ByteAddr) (s : State) (r : Option Response) :
    readByteBody a addr { s with response := r } =
      ⟨(readByteBody a addr s).status, (readByteBody a addr s).byte,
        { (readByteBody a addr s).state with response := r }⟩ := by
  have h := readByteBody_regated s.locks s.keyAccessDisabled r (s := s) (a := a) (addr := addr) rfl
  have hstate : (readByteBody a addr s).state.regated s.locks s.keyAccessDisabled r =
      { (readByteBody a addr s).state with response := r } := by
    rw [State.regated, ← readByteBody_locks a addr s, ← readByteBody_keyAccessDisabled a addr s]
  rw [hstate] at h
  exact h

theorem exec_readByte_response {s : State} (hclk : s.clkValid = true) (a : StorageArray)
    (addr : ByteAddr) (r : Option Response) :
    exec (.readByte a addr) { s with response := r } = exec (.readByte a addr) s := by
  rw [exec_readByte hclk, exec_readByte (s := { s with response := r }) hclk, readByteBody_response]
  rfl

/-- The reading of the `j`-th byte of a stream of key bytes. -/
def keyReading (s : State) (base j : Nat) : Reading :=
  readByteBody .key (BitVec.ofNat 13 (base + j)) (readChain .key s base j)

/-- The state before the `j`-th byte of a stream, each byte being delivered as READ_BYTE delivers it. -/
def keyStream (s : State) (base : Nat) : Nat → State
  | 0 => s
  | j + 1 =>
    (keyReading s base j).state.deliver (keyReading s base j).status (.byte (keyReading s base j).byte)

/-- The stream of READ_BYTEs and READ_KEY's own differ in what they deliver alone. -/
theorem keyStream_response (s : State) (base j : Nat) (r : Option Response) :
    { keyStream s base j with response := r } = { readChain .key s base j with response := r } := by
  cases j <;> rfl

/-- READ_BYTE takes the stream from one state to the next. -/
theorem exec_readByte_keyStream {s : State} (hclk : s.clkValid = true) (hd : s.cfg.DistinctCommands)
    (ha : s.regs.armed = false) (base j : Nat) :
    exec (.readByte .key (BitVec.ofNat 13 (base + j))) (keyStream s base j) =
      .next (keyStream s base (j + 1)) := by
  obtain ⟨-, -, hclk', -⟩ := readChain_keep .key s base j hd ha
  calc exec (.readByte .key (BitVec.ofNat 13 (base + j))) (keyStream s base j)
      = exec (.readByte .key (BitVec.ofNat 13 (base + j)))
          { readChain .key s base j with response := (keyStream s base j).response } :=
        congrArg _ (keyStream_response s base j _)
    _ = exec (.readByte .key (BitVec.ofNat 13 (base + j))) (readChain .key s base j) :=
        exec_readByte_response (hclk'.trans hclk) _ _ _
    _ = .next (keyStream s base (j + 1)) := exec_readByte (hclk'.trans hclk) _ _

/-- A byte of a slot that reads Ok in the stream is the stored one. -/
theorem keyReading_byte {kt : KeyType} {k : Nat} {s : State} (h : k < kt.slots)
    (h1 : s.keyAccessDisabled = false) (h2 : s.locked .read (keySlot kt k).block = false)
    (hd : s.cfg.DistinctCommands) (ha : s.regs.armed = false) {j : Nat} (hj : j < (keySlot kt k).size)
    (hst : (keyReading s (keySlot kt k).base j).status = .ok) :
    (keyReading s (keySlot kt k).base j).byte = s.readCell .key ((keySlot kt k).base + j) := by
  obtain ⟨-, ha', -, hkd, hlocks, hcells⟩ := readChain_keep .key s (keySlot kt k).base j hd ha
  have haddr : (BitVec.ofNat 13 ((keySlot kt k).base + j)).toNat = (keySlot kt k).base + j := by
    have := keySlot_end_le h
    rw [BitVec.toNat_ofNat, Nat.mod_eq_of_lt (by omega)]
  have hread := readByteBody_byte .key _ _ (.inr ha') hst (by
    rw [State.readable_congr hkd hlocks, haddr]
    exact State.readable_slot h h1 h2 j hj)
  rw [haddr, hcells] at hread
  exact hread

/-- Settles O47: the states of the stream, byte by byte; READ_KEY is the stream with its bytes and its worst
status; what the stream leaves alone. -/
theorem readKeyCompletes : Obligations.ReadKeyCompletes := by
  unfold Obligations.ReadKeyCompletes
  intro kt kidx s hd ha h h1 h2 h3
  obtain ⟨hstate, hbytes, hstatus⟩ := readBytes_eq_chain .key s.access.access
    (keySlot kt kidx.toNat).base (keySlot kt kidx.toNat).size .ok (.inl rfl)
  simp only [true_and] at hstatus
  refine ⟨keyStream s.access.access (keySlot kt kidx.toNat).base,
    fun j => (keyReading s.access.access (keySlot kt kidx.toNat).base j).status,
    fun j => (keyReading s.access.access (keySlot kt kidx.toNat).base j).byte, _, rfl,
    fun j hj => ⟨exec_readByte_keyStream (s := s.access.access) h3 hd ha _ j, rfl, readByteBody_status _ _ _,
      keyReading_byte (s := s.access.access) h h1 h2 hd ha hj⟩,
    execReadKey_granted h h1 h2 h3, ?_, ?_⟩
  · rw [keyStream_response, hstate, hbytes, hstatus]
    rfl
  · obtain ⟨n, hn⟩ : ∃ n, (keySlot kt kidx.toNat).size = n + 1 := by cases kt <;> exact ⟨_, rfl⟩
    have hkeep := readBytes_keep .key s.access.access (keySlot kt kidx.toNat).base n .ok hd ha
    rw [hn]
    conv_lhs => rw [hkeep]
    rfl

end Sys2Proof.Machine
end

section
/-! The polls of KVAL (spec/44_key_vault.md R231, R232) and the key-access-disable bit (R233). -/

open Sys2Proof

namespace Sys2Proof.Machine

/-! ### SELECT_KEY -/

/-- The read-modify-write of KEYIND makes two accesses and changes that register alone. -/
theorem State.updateKeyInd_eq (s : State) (f : KeyInd → KeyInd) :
    s.updateKeyInd f = { s with
      regs := { s.regs with keyInd := f s.regs.keyInd }
      regAccessCount := s.regAccessCount + 2 } := rfl

theorem exec_selectKey_of_le {kidx : BitVec 8} (h : 16 ≤ kidx.toNat) (s : State) :
    exec (.selectKey kidx) s = .next { s with response := some ⟨.invalidParameter, .none⟩ } := if_pos h

/-- SELECT_KEY with an index below 16 delivers the status of its bounded poll (R231). -/
theorem exec_selectKey_of_lt {kidx : BitVec 8} (h : kidx.toNat < 16) (s : State) :
    exec (.selectKey kidx) s =
      .next ((((s.updateKeyInd fun v => { v with kind := kidx.setWidth 4 }).pollKval
          s.cfg.selectKeyRetries).2).deliver
        ((s.updateKeyInd fun v => { v with kind := kidx.setWidth 4 }).pollKval
          s.cfg.selectKeyRetries).1 .none) := if_neg (Nat.not_le.2 h)

/-- Settles O49: the index, then the bounded poll from the state with KIND written. -/
theorem selectKeyResult : Obligations.SelectKeyResult := by
  unfold Obligations.SelectKeyResult
  refine fun kidx s => ⟨fun h => exec_selectKey_of_le h s, fun h j hj hk hb => ?_, fun h hb => ?_⟩
  · rw [exec_selectKey_of_lt h, State.pollKval_ok (s.updateKeyInd _) _ j hj hk hb]
    simp only [State.updateKeyInd_eq, Nat.add_assoc, Nat.add_comm 2]
    rfl
  · rw [exec_selectKey_of_lt h, State.pollKval_timeout (s.updateKeyInd _) _ hb]
    simp only [State.updateKeyInd_eq, Nat.add_assoc, Nat.add_comm 2]
    rfl

/-! ### UPLOAD_KEY -/

theorem exec_uploadKey_of_le {kidx : BitVec 8} (h : 16 ≤ kidx.toNat) (ksz : BitVec 8) (s : State) :
    exec (.uploadKey ksz kidx) s = .next { s with response := some ⟨.invalidParameter, .none⟩ } :=
  if_pos h

/-- UPLOAD_KEY with an index below 16 writes KEYIND and makes the first turn of its loop (R232). -/
theorem exec_uploadKey_of_lt {kidx : BitVec 8} (h : kidx.toNat < 16) (ksz : BitVec 8) (s : State) :
    exec (.uploadKey ksz kidx) s =
      .next (s.updateKeyInd fun v => { v with ksize := ksz, kind := kidx.setWidth 4 }).pollUpload :=
  if_neg (Nat.not_le.2 h)

/-- One turn of the loop, by what its poll reads. -/
theorem State.pollUpload_kval (s : State) :
    s.pollUpload = { s with
      regAccessCount := s.regAccessCount + 1
      draws := s.draws.afterKval 1
      uploading := !s.kvalAt 0
      response := if s.kvalAt 0 then some ⟨.ok, .none⟩ else none } := by
  rw [State.pollUpload_eq, State.kvalAt_zero, Draws.afterKval, List.drop_one]

/-- Settles O50: the index, then the first turn of the loop. -/
theorem uploadKeyResult : Obligations.UploadKeyResult := by
  unfold Obligations.UploadKeyResult
  refine fun ksz kidx s => ⟨fun h => exec_uploadKey_of_le h ksz s, fun h => ?_⟩
  rw [exec_uploadKey_of_lt h, State.pollUpload_kval]
  rfl

/-- A waiting UPLOAD_KEY makes one more turn of its loop (R11, R232). -/
theorem step_waiting {s : State} (h : s.uploading = true) : step s = .next s.pollUpload.settle := if_pos h

/-- A turn whose poll reads 0 leaves UPLOAD_KEY waiting. -/
theorem step_kval_zero {s : State} (h : s.uploading = true) (hk : s.kvalAt 0 = false) :
    step s = .next s.pollUpload ∧ s.pollUpload.uploading = true := by
  have hup : s.pollUpload.uploading = true := by rw [State.pollUpload_kval, hk]; rfl
  rw [step_waiting h, State.settle_of_waiting hup]
  exact ⟨rfl, hup⟩

/-- A turn whose poll reads 1 ends UPLOAD_KEY with Ok. -/
theorem step_kval_one {s : State} (h : s.uploading = true) (hk : s.kvalAt 0 = true) :
    step s = .next s.pollUpload.complete ∧ s.pollUpload.uploading = false ∧
      s.pollUpload.response = some ⟨.ok, .none⟩ := by
  have hup : s.pollUpload.uploading = false := by rw [State.pollUpload_kval, hk]; rfl
  rw [step_waiting h, State.settle_of_ended hup]
  refine ⟨rfl, hup, ?_⟩
  rw [State.pollUpload_kval, hk]
  rfl

/-- What every turn keeps of the host's list. -/
theorem State.pollUpload_list (s : State) :
    s.pollUpload.position = s.position ∧ s.pollUpload.pending = s.pending ∧
      s.pollUpload.regAccessCount = s.regAccessCount + 1 := by
  rw [State.pollUpload_kval]
  exact ⟨rfl, rfl, rfl⟩

/-- Settles O51: turn by turn, each poll being the next one of the turn before. -/
theorem uploadKeyEndsWhenKvalRises : Obligations.UploadKeyEndsWhenKvalRises := by
  unfold Obligations.UploadKeyEndsWhenKvalRises
  intro n s hup hb
  induction n generalizing s with
  | zero =>
    refine ⟨fun hk => ?_, s, rfl, hup, rfl, rfl, rfl⟩
    obtain ⟨hpos, hpend, hcount⟩ := s.pollUpload_list
    obtain ⟨hstep, hended, hresp⟩ := step_kval_one hup hk
    refine ⟨_, core_run_next hstep 0, hended, hresp, hcount, ?_, ?_⟩
    · rw [State.complete_position, hpos]
    · rw [State.complete_pending, hpend]
  | succ n ih =>
    obtain ⟨hpos, hpend, hcount⟩ := s.pollUpload_list
    obtain ⟨hstep, hwait⟩ := step_kval_zero hup (hb 0 n.succ_pos)
    obtain ⟨hends, u, hrun, hup', hpos', hpend', hcount'⟩ := ih s.pollUpload hwait
      (fun i hi => by rw [State.pollUpload_kvalAt]; exact hb (i + 1) (by omega))
    refine ⟨fun hk => ?_, u, ?_, hup', hpos'.trans hpos, hpend'.trans hpend, by omega⟩
    · obtain ⟨t, hrun1, h1, h2, h3, h4, h5⟩ := hends (by rw [State.pollUpload_kvalAt]; exact hk)
      exact ⟨t, by rw [core_run_next hstep]; exact hrun1, h1, h2, by omega, by omega, by rw [h5, hpend]⟩
    · rw [core_run_next hstep]
      exact hrun

/-! ### DISABLE_KEY_ACCESS -/

/-- While key access is disabled no byte of KeyArray is readable (R68). -/
theorem State.readable_key_of_disabled {s : State} (h : s.keyAccessDisabled = true) (n : Nat) :
    s.readable .key n = false := by
  simp [State.readable, h]

/-- Settles O53: one write, which no step but a power-on reset undoes; the gate of READ_KEY and raw
readability see it. -/
theorem disableKeyAccessIsPermanent : Obligations.DisableKeyAccessIsPermanent := by
  unfold Obligations.DisableKeyAccessIsPermanent
  exact ⟨rfl, fun _ => rfl, fun s t hd hpor h => (step_keydis_regLocked h hpor).1 hd,
    fun s kt kidx hd h => ⟨_, exec_readKey_denied h (.inl hd), rfl⟩,
    fun s n hd => State.readable_key_of_disabled hd n⟩

end Sys2Proof.Machine
end

section
/-! What an operation answers (spec/60_exceptions.md R270, R272, R276, R284, spec/45_magic_word.md R187): one lemma for
every operation that ends or waits, one for every operation that stops. -/

open Sys2Proof

namespace Sys2Proof.Machine

/-- What an operation that answers a next state has delivered, and what it has done to the magic word. -/
structure Answer (i : Instr) (s t : State) : Prop where
  delivered : (t.uploading = s.uploading ∧ ∃ r, t.response = some r ∧ i.mayReturn r.status = true) ∨
    ∃ ksz kidx, i = .uploadKey ksz kidx ∧ kidx.toNat < 16 ∧
      (t.uploading = false → t.response = some ⟨.ok, .none⟩)
  cleared : (i.programs = true ∨ ∃ clk, i = .init clk) → t.magic = 0
  written : t.magic ≠ s.magic → i.programs = true ∨ (∃ clk, i = .init clk) ∨
    (∃ v, i = .magicInit v) ∨ ∃ v, i = .magicAccumulate v

/-- An operation that ends and leaves the magic word alone. -/
theorem Answer.of_magic_kept {i : Instr} {s t : State} {st : Status} {r : Result}
    (hi : ¬(i.programs = true ∨ ∃ clk, i = .init clk)) (hup : t.uploading = s.uploading)
    (hmagic : t.magic = s.magic) (hresp : t.response = some ⟨st, r⟩) (hst : i.mayReturn st = true) :
    Answer i s t :=
  ⟨.inl ⟨hup, _, hresp, hst⟩, fun h => absurd h hi, fun h => absurd hmagic h⟩

/-- An operation that ends and sets the magic word to 0. -/
theorem Answer.of_magic_cleared {i : Instr} {s t : State} {st : Status} {r : Result}
    (hi : i.programs = true ∨ ∃ clk, i = .init clk) (hup : t.uploading = s.uploading)
    (hmagic : t.magic = 0) (hresp : t.response = some ⟨st, r⟩) (hst : i.mayReturn st = true) :
    Answer i s t :=
  ⟨.inl ⟨hup, _, hresp, hst⟩, fun _ => hmagic, fun _ => hi.elim .inl (fun h => .inr (.inl h))⟩

/-- An operation that returns what a poll or a verification tells may return either. -/
theorem Instr.mayReturn_polled {i : Instr} {st : Status} (hst : st = .ok ∨ st = .hardwareError)
    (h : i.mayReturn .ok = true ∧ i.mayReturn .hardwareError = true) : i.mayReturn st = true := by
  rcases hst with rfl | rfl
  · exact h.1
  · exact h.2

theorem Answer.checkLock {i : Instr} {k : LockKind} {blk : BitVec 8} {s t : State}
    (h : checkLock k blk s = .next t) (hi : ¬(i.programs = true ∨ ∃ clk, i = .init clk))
    (hst : i.mayReturn .ok = true) : Answer i s t := by
  rcases Nat.lt_or_ge blk.toNat (8 * s.cfg.numLockRegs) with hblk | hblk
  · rw [checkLock_of_lt k hblk] at h
    cases h
    exact .of_magic_kept hi rfl rfl rfl hst
  · rw [checkLock_of_le k hblk] at h
    cases h

/-- The three ways the conditions of READ_KEY can stand (R230, R275). -/
theorem readKey_conditions (kt : KeyType) (kidx : BitVec 8) (s : State) :
    kt.slots ≤ kidx.toNat ∨
    (kidx.toNat < kt.slots ∧
      (s.keyAccessDisabled = true ∨ s.locked .read (keySlot kt kidx.toNat).block = true)) ∨
    (kidx.toNat < kt.slots ∧ s.keyAccessDisabled = false ∧
      s.locked .read (keySlot kt kidx.toNat).block = false) := by
  rcases Nat.lt_or_ge kidx.toNat kt.slots with h | h
  · cases hd : s.keyAccessDisabled <;> cases hl : s.locked .read (keySlot kt kidx.toNat).block <;> simp [h]
  · exact .inl h

/-- What every operation answers. -/
theorem exec_answer {i : Instr} {s t : State} (h : exec i s = .next t) : Answer i s t := by
  cases i with
  | npEncode buf =>
    rw [exec_npEncode] at h
    cases h
    exact .of_magic_kept (by simp [Instr.programs]) rfl rfl rfl rfl
  | npDecode buf =>
    rcases Nat.mod_two_eq_zero_or_one buf.length with hlen | hlen
    · rw [exec_npDecode_of_even hlen] at h
      cases h
      refine .of_magic_kept (by simp [Instr.programs]) rfl rfl rfl ?_
      cases npAnyBad s.cfg buf <;> rfl
    · rw [exec_npDecode_of_odd hlen] at h
      cases h
  | majEncode buf =>
    cases h
    exact .of_magic_kept (by simp [Instr.programs]) rfl rfl rfl rfl
  | majDecode buf =>
    by_cases hlen : buf.length % 3 = 0
    · rw [exec_majDecode hlen] at h
      cases h
      exact .of_magic_kept (by simp [Instr.programs]) rfl rfl rfl rfl
    · rw [exec_majDecode_of_bad_length hlen] at h
      cases h
      exact .of_magic_kept (by simp [Instr.programs]) rfl rfl rfl rfl
  | checkReadAllowed blk => exact .checkLock (k := .read) h (by simp [Instr.programs]) rfl
  | checkWriteAllowed blk => exact .checkLock (k := .write) h (by simp [Instr.programs]) rfl
  | setBlockAccess blk lr lw lg =>
    rcases Nat.lt_or_ge blk.toNat (8 * s.cfg.numLockRegs) with hblk | hblk
    · rw [exec_setBlockAccess_of_lt hblk, State.setBlockAccess_keep] at h
      cases h
      exact .of_magic_kept (by simp [Instr.programs]) rfl rfl rfl rfl
    · rw [exec_setBlockAccess_of_le hblk] at h
      cases h
  | waitReady tmo =>
    rw [exec_waitReady] at h
    cases h
    exact .of_magic_kept (by simp [Instr.programs]) (OtpFrame.waitReady s _).uploading
      (OtpFrame.waitReady s _).magic rfl (Instr.mayReturn_polled (State.waitReady_status s _) ⟨rfl, rfl⟩)
  | readByte a addr =>
    rw [exec_readByte (clkValid_of_next rfl h)] at h
    cases h
    exact .of_magic_kept (by simp [Instr.programs]) (OtpFrame.readByteBody a addr s).uploading
      (readByteBody_magic a addr s) rfl (Instr.mayReturn_polled (readByteBody_status a addr s) ⟨rfl, rfl⟩)
  | bitIsProgrammed a addr bit =>
    rw [exec_bitIsProgrammed (clkValid_of_next rfl h)] at h
    cases h
    exact .of_magic_kept (by simp [Instr.programs]) (OtpFrame.readByteBody a addr s).uploading
      (readByteBody_magic a addr s) rfl (Instr.mayReturn_polled (readByteBody_status a addr s) ⟨rfl, rfl⟩)
  | programBit a addr bit vfy =>
    rw [exec_programBit (clkValid_of_next rfl h)] at h
    cases h
    exact .of_magic_cleared (.inl rfl) (OtpFrame.programBitBody a addr bit vfy s).uploading rfl rfl
      (Instr.mayReturn_polled (programBitBody_status a addr bit s vfy) ⟨rfl, rfl⟩)
  | programByte a addr val =>
    rw [exec_programByte (clkValid_of_next rfl h)] at h
    cases h
    exact .of_magic_cleared (.inl rfl) (OtpFrame.programByteBody a addr val s).uploading rfl rfl
      (Instr.mayReturn_polled (programByteBody_status a addr val s) ⟨rfl, rfl⟩)
  | init clk =>
    by_cases hclk : clk = 0
    · subst hclk
      cases h
    · rw [exec_init_of_ne hclk] at h
      cases h
      exact .of_magic_cleared (.inr ⟨clk, rfl⟩) rfl rfl rfl rfl
  | readKey kt kidx =>
    obtain hidx | ⟨hidx, hd⟩ | ⟨hidx, h1, h2⟩ := readKey_conditions kt kidx s
    · rw [exec_readKey_of_le hidx] at h
      cases h
      exact .of_magic_kept (by simp [Instr.programs]) rfl rfl rfl rfl
    · rw [exec_readKey_denied hidx hd] at h
      cases h
      exact .of_magic_kept (by simp [Instr.programs]) rfl rfl rfl rfl
    · cases h3 : s.clkValid
      · rw [exec_readKey_unconfigured hidx h1 h2 h3] at h
        cases h
      · have hf := OtpFrame.readBytes .key s.access.access (keySlot kt kidx.toNat).base .ok
          (keySlot kt kidx.toNat).size
        cases (execReadKey_granted hidx h1 h2 h3).symm.trans h
        exact .of_magic_kept (by simp [Instr.programs]) hf.uploading hf.magic rfl
          (Instr.mayReturn_polled (readBytes_status _ _ _ _ _ (.inl rfl)) ⟨rfl, rfl⟩)
  | selectKey kidx =>
    rcases Nat.lt_or_ge kidx.toNat 16 with hidx | hidx
    · rw [exec_selectKey_of_lt hidx] at h
      cases h
      refine .of_magic_kept (by simp [Instr.programs]) ?_ ?_ rfl
        (Instr.mayReturn_polled (State.pollKval_status _ _) ⟨rfl, rfl⟩)
      all_goals
        rw [(State.pollKval_keep _ _).1]
        rfl
    · rw [exec_selectKey_of_le hidx] at h
      cases h
      exact .of_magic_kept (by simp [Instr.programs]) rfl rfl rfl rfl
  | uploadKey ksz kidx =>
    rcases Nat.lt_or_ge kidx.toNat 16 with hidx | hidx
    · rw [exec_uploadKey_of_lt hidx, State.pollUpload_kval] at h
      cases h
      refine ⟨.inr ⟨ksz, kidx, rfl, hidx, fun hup => ?_⟩, by simp [Instr.programs], fun h => absurd rfl h⟩
      exact if_pos (by simpa using hup)
    · rw [exec_uploadKey_of_le hidx] at h
      cases h
      exact .of_magic_kept (by simp [Instr.programs]) rfl rfl rfl rfl
  | disableKeyAccess =>
    cases h
    exact .of_magic_kept (by simp [Instr.programs]) rfl rfl rfl rfl
  | magicInit v =>
    cases h
    exact ⟨.inl ⟨rfl, _, rfl, rfl⟩, by simp [Instr.programs], fun _ => .inr (.inr (.inl ⟨v, rfl⟩))⟩
  | magicAccumulate v =>
    cases h
    exact ⟨.inl ⟨rfl, _, rfl, rfl⟩, by simp [Instr.programs], fun _ => .inr (.inr (.inr ⟨v, rfl⟩))⟩
  | magicGet =>
    cases h
    exact .of_magic_kept (by simp [Instr.programs]) rfl rfl rfl rfl

/-- Settles O52: no other operation touches the waiting flag. -/
theorem onlyUploadKeyWaits : Obligations.OnlyUploadKeyWaits := by
  unfold Obligations.OnlyUploadKeyWaits
  intro i s t h hs ht
  obtain ⟨hup, -⟩ | ⟨ksz, kidx, hi, hidx, -⟩ := (exec_answer h).delivered
  · rw [hup, hs] at ht
    cases ht
  · exact ⟨ksz, kidx, hi, hidx⟩

/-- Settles O57: the order and the codes by their tables, the status by what the operation delivered. -/
theorem statusesReturned : Obligations.StatusesReturned := by
  unfold Obligations.StatusesReturned
  refine ⟨⟨by decide, fun x => by cases x <;> rfl⟩, by decide, fun i s t h _ ht => ?_⟩
  obtain ⟨-, hr⟩ | ⟨ksz, kidx, rfl, -, hresp⟩ := (exec_answer h).delivered
  · exact hr
  · exact ⟨_, hresp ht, rfl⟩

/-- Settles O54: the three operations as they stand; what clears the word is followed by a 0. -/
theorem magicOperationsResult : Obligations.MagicOperationsResult := by
  unfold Obligations.MagicOperationsResult
  refine ⟨fun v s => ⟨rfl, ?_⟩, rfl, fun _ => rfl, fun i s t h hi => ?_⟩
  · have hadd : s.magic + v = BitVec.ofNat 32 ((s.magic.toNat + v.toNat) % 2 ^ 32) :=
      BitVec.eq_of_toNat_eq (by simp)
    rw [← hadd]
    rfl
  · rw [← (exec_answer h).cleared hi]
    rfl

/-! ### The operations that stop -/

/-- Why an operation stops, and in which state (R272, R276). -/
theorem exec_fault_cases {i : Instr} {s : State} {f : Fault} (h : exec i s = .fault f) :
    (∃ buf, i = .npDecode buf ∧ buf.length % 2 = 1 ∧ f = .oddEncodedSize s.raise) ∨
    (∃ blk : BitVec 8, 8 * s.cfg.numLockRegs ≤ blk.toNat ∧
      (i = .checkReadAllowed blk ∨ i = .checkWriteAllowed blk ∨
        ∃ lr lw lg, i = .setBlockAccess blk lr lw lg) ∧ f = .blockOutOfRange s.raise) ∨
    (s.clkValid = false ∧
      ((i.needsClock = true ∧ f = .clockNotConfigured s.raise) ∨
        ((∃ kt kidx, i = .readKey kt kidx) ∧ f = .clockNotConfigured s.access.access.raise))) ∨
    (i = .init 0 ∧ f = .badClock s.raise) := by
  by_cases hi : i.needsClock = true
  · cases hclk : s.clkValid
    · cases (unconfiguredClockFaults i s hi hclk).symm.trans h
      exact .inr (.inr (.inl ⟨rfl, .inl ⟨hi, rfl⟩⟩))
    · obtain ⟨t, ht⟩ := exec_next_of_clkValid hi hclk
      cases ht.symm.trans h
  cases i with
  | npDecode buf =>
    rcases Nat.mod_two_eq_zero_or_one buf.length with hlen | hlen
    · rw [exec_npDecode_of_even hlen] at h
      cases h
    · rw [exec_npDecode_of_odd hlen] at h
      cases h
      exact .inl ⟨buf, rfl, hlen, rfl⟩
  | majDecode buf =>
    by_cases hlen : buf.length % 3 = 0
    · rw [exec_majDecode hlen] at h
      cases h
    · rw [exec_majDecode_of_bad_length hlen] at h
      cases h
  | checkReadAllowed blk =>
    rcases Nat.lt_or_ge blk.toNat (8 * s.cfg.numLockRegs) with hblk | hblk
    · cases (checkLock_of_lt .read hblk).symm.trans h
    · cases (checkLock_of_le .read hblk).symm.trans h
      exact .inr (.inl ⟨blk, hblk, .inl rfl, rfl⟩)
  | checkWriteAllowed blk =>
    rcases Nat.lt_or_ge blk.toNat (8 * s.cfg.numLockRegs) with hblk | hblk
    · cases (checkLock_of_lt .write hblk).symm.trans h
    · cases (checkLock_of_le .write hblk).symm.trans h
      exact .inr (.inl ⟨blk, hblk, .inr (.inl rfl), rfl⟩)
  | setBlockAccess blk lr lw lg =>
    rcases Nat.lt_or_ge blk.toNat (8 * s.cfg.numLockRegs) with hblk | hblk
    · rw [exec_setBlockAccess_of_lt hblk] at h
      cases h
    · rw [exec_setBlockAccess_of_le hblk] at h
      cases h
      exact .inr (.inl ⟨blk, hblk, .inr (.inr ⟨lr, lw, lg, rfl⟩), rfl⟩)
  | readByte | bitIsProgrammed | programBit | programByte => exact absurd rfl hi
  | init clk =>
    by_cases hclk : clk = 0
    · subst hclk
      cases h
      exact .inr (.inr (.inr ⟨rfl, rfl⟩))
    · rw [exec_init_of_ne hclk] at h
      cases h
  | readKey kt kidx =>
    obtain hidx | ⟨hidx, hd⟩ | ⟨hidx, h1, h2⟩ := readKey_conditions kt kidx s
    · rw [exec_readKey_of_le hidx] at h
      cases h
    · rw [exec_readKey_denied hidx hd] at h
      cases h
    · cases h3 : s.clkValid
      · cases (exec_readKey_unconfigured hidx h1 h2 h3).symm.trans h
        exact .inr (.inr (.inl ⟨rfl, .inr ⟨⟨kt, kidx, rfl⟩, rfl⟩⟩))
      · cases (execReadKey_granted hidx h1 h2 h3).symm.trans h
  | selectKey kidx =>
    rcases Nat.lt_or_ge kidx.toNat 16 with hidx | hidx
    · rw [exec_selectKey_of_lt hidx] at h
      cases h
    · rw [exec_selectKey_of_le hidx] at h
      cases h
  | uploadKey ksz kidx =>
    rcases Nat.lt_or_ge kidx.toNat 16 with hidx | hidx
    · rw [exec_uploadKey_of_lt hidx] at h
      cases h
    · rw [exec_uploadKey_of_le hidx] at h
      cases h
  | npEncode | majEncode | waitReady | disableKeyAccess | magicInit | magicAccumulate | magicGet =>
    cases h

/-- Settles O58: each kind of fault with its cause; READ_KEY's state has the two gate reads counted. -/
theorem faultsAndWhatTheyLeave : Obligations.FaultsAndWhatTheyLeave := by
  unfold Obligations.FaultsAndWhatTheyLeave
  intro i s f h
  obtain ⟨buf, rfl, hlen, rfl⟩ | ⟨blk, hblk, hi, rfl⟩ | ⟨hclk, ⟨hi, rfl⟩ | ⟨hi, rfl⟩⟩ | ⟨rfl, rfl⟩ :=
    exec_fault_cases h
  · exact ⟨⟨0, by decide, rfl⟩, buf, rfl, hlen⟩
  · exact ⟨⟨0, by decide, rfl⟩, blk, hblk, hi⟩
  · exact ⟨⟨0, by decide, rfl⟩, hclk, .inl hi⟩
  · exact ⟨⟨2, le_rfl, rfl⟩, hclk, .inr hi⟩
  · exact ⟨⟨0, by decide, rfl⟩, rfl⟩

/-- Settles O55: a program operation that answers clears the word, one that stops leaves it, and three
others write it. -/
theorem magicWordIsSingleUse : Obligations.MagicWordIsSingleUse := by
  unfold Obligations.MagicWordIsSingleUse
  refine fun i s => ⟨fun t h hi => (exec_answer h).cleared (.inl hi), fun f h => ?_,
    fun t h => (exec_answer h).written⟩
  obtain ⟨⟨n, -, hleft⟩, -⟩ := faultsAndWhatTheyLeave i s f h
  rw [hleft]

end Sys2Proof.Machine
end

section
/-! The program operations for every sequence of draws (spec/43_otp_fsm.md R176 to R184): what they leave alone, the
byte they can change, their control bits, and the short circuits that issue no pulse (R176, R189). -/

open Sys2Proof

namespace Sys2Proof.Machine

/-! ### What both program operations leave -/

/-- The registers after a program operation are those before but for the address fields, the control
bits, the scrub value, the acknowledgment and the command register. -/
def Programmed (a : StorageArray) (addr : ByteAddr) (s u : State) : Prop :=
  u.regs = { s.regs with
    ack := false, arr := a, byteAddr := addr, data := 0x01
    armed := s.cfg.readCmd == s.cfg.armValue
    bitPos := u.regs.bitPos, smart := u.regs.smart, inProg := u.regs.inProg }

/-- The state a program operation answers, by the body's frame and registers (R176, R184, R187). -/
theorem Programmed.answer {a : StorageArray} {addr : ByteAddr} {s u : State}
    (h : Programmed a addr s u) (hf : OtpFrame s u) (hd : s.cfg.DistinctCommands) (st : Status) :
    (u.setMagic 0).deliver st .none = { s with
      key := u.key
      fuse := u.fuse
      magic := 0
      regs := { s.regs with
        ack := false, arr := a, byteAddr := addr, bitPos := u.regs.bitPos
        data := 0x01, armed := false, inProg := u.regs.inProg, smart := u.regs.smart }
      fsm := u.fsm
      fsmTrace := u.fsmTrace
      regAccessCount := u.regAccessCount
      pulseCount := u.pulseCount
      warnLog := u.warnLog
      draws := u.draws
      response := some ⟨st, .none⟩ } := by
  have hregs : u.regs = { s.regs with
      ack := false, arr := a, byteAddr := addr, bitPos := u.regs.bitPos
      data := 0x01, armed := false, inProg := u.regs.inProg, smart := u.regs.smart } := by
    conv_lhs => rw [h, readCmd_disarms hd]
  ext1 <;> simp only [State.deliver, State.setMagic, hf.cfg, hf.locks, hf.keyAccessDisabled, hf.clkValid,
    hf.faulted, hf.position, hf.pending, hf.uploading]
  exact hregs

/-- The warning log keeps all it had. -/
theorem OtpFrame.warnLog_take {s t : State} (hf : OtpFrame s t) :
    s.warnLog.length ≤ t.warnLog.length ∧ t.warnLog.take s.warnLog.length = s.warnLog := by
  obtain ⟨n, hn⟩ := hf.warnings
  rw [hn]
  exact ⟨by simp, by simp⟩

/-- What a program operation answers reads its arrays as its body leaves them. -/
theorem State.readCell_answer (u : State) (st : Status) (a : StorageArray) (n : Nat) :
    ((u.setMagic 0).deliver st .none).readCell a n = u.readCell a n :=
  State.readCell_congr rfl rfl rfl a n

/-! ### PROGRAM_BIT -/

/-- A cell that is not the addressed one is as it was. -/
theorem BitFrame.other {a a' : StorageArray} {addr : ByteAddr} {bit : BitPos} {s t : State} {n : Nat}
    (h : BitFrame a addr bit s t) (hne : a' ≠ a ∨ n ≠ addr.toNat) :
    t.readCell a' n = s.readCell a' n := by
  obtain e | ⟨rfl, rfl, -⟩ := h a' n
  · exact e
  · exact hne.elim (absurd rfl) (absurd rfl)

/-- The addressed cell is as it was, or has its bit set. -/
theorem BitFrame.own {a : StorageArray} {addr : ByteAddr} {bit : BitPos} {s t : State}
    (h : BitFrame a addr bit s t) :
    t.readCell a addr.toNat = s.readCell a addr.toNat ∨
    t.readCell a addr.toNat = s.readCell a addr.toNat ||| bitMask bit.toNat :=
  (h a addr.toNat).imp id fun h => h.2.2

/-- Settles O34: the body by its status, its cells, its control bits and its frame. -/
theorem programBitCompletes : Obligations.ProgramBitCompletes := by
  unfold Obligations.ProgramBitCompletes
  intro a addr bit vfy s hclk hd
  have hframe := BitFrame.programBitBody a addr bit s vfy hd.2.2
  have hf := OtpFrame.programBitBody a addr bit vfy s
  have hregs : Programmed a addr s (programBitBody a addr bit vfy s).2 :=
    programBitBody_regs a addr bit s vfy
  refine ⟨_, _, exec_programBit hclk a addr bit vfy, programBitBody_status a addr bit s vfy,
    fun a' n hne => ?_, ?_, programBitBody_controls a addr bit s vfy hd.2.2, hf.warnLog_take,
    hregs.answer hf hd _⟩
  · rw [State.readCell_answer]
    exact hframe.other hne
  · rw [State.readCell_answer]
    exact hframe.own

/-! ### PROGRAM_BYTE -/

/-- PROGRAM_BYTE is a read, then the loop over the missing bits of the value (R184). -/
theorem programByteBody_eq (a : StorageArray) (addr : ByteAddr) (val : Byte) (s : State) :
    programByteBody a addr val s =
      programBits a addr (~~~(readByteBody a addr s).byte &&& val) bitPositions
        (readByteBody a addr s).status (readByteBody a addr s).state := rfl

/-- Nothing was programmed, or the algorithm's own control bit is 0 (R184). -/
theorem programByteBody_controls (a : StorageArray) (addr : ByteAddr) (val : Byte) (s : State)
    (hc : s.cfg.readCmd ≠ s.cfg.progCmd) :
    ((programByteBody a addr val s).2.regs.bitPos = s.regs.bitPos ∧
      (programByteBody a addr val s).2.regs.smart = s.regs.smart ∧
      (programByteBody a addr val s).2.regs.inProg = s.regs.inProg ∧
      (programByteBody a addr val s).2.key = s.key ∧
      (programByteBody a addr val s).2.fuse = s.fuse) ∨
    ((s.cfg.progAlgo = .smart → (programByteBody a addr val s).2.regs.smart = false ∧
        (programByteBody a addr val s).2.regs.inProg = s.regs.inProg) ∧
      (s.cfg.progAlgo = .legacy → (programByteBody a addr val s).2.regs.inProg = false ∧
        (programByteBody a addr val s).2.regs.smart = s.regs.smart)) := by
  have hcontrols := programBits_controls a addr (~~~(readByteBody a addr s).byte &&& val) bitPositions
    (readByteBody a addr s).status (readByteBody a addr s).state
  rw [readByteBody_cfg, readByteBody_regs] at hcontrols
  rw [programByteBody_eq]
  refine hcontrols.imp (fun hsame => ?_) id
  obtain ⟨hkey, hfuse⟩ := readByteBody_arrays a addr s (.inl hc)
  simp only [hsame, readByteBody_regs]
  exact ⟨trivial, trivial, trivial, hkey, hfuse⟩

/-- Settles O38: the body by its status, its cells, its control bits and its frame. -/
theorem programByteCompletes : Obligations.ProgramByteCompletes := by
  unfold Obligations.ProgramByteCompletes
  intro a addr val s hclk hd
  obtain ⟨hother, hown⟩ := programByteBody_cells a addr val s hd.2.2
  have hf := OtpFrame.programByteBody a addr val s
  have hregs : Programmed a addr s (programByteBody a addr val s).2 := programByteBody_regs a addr val s
  refine ⟨_, _, exec_programByte hclk a addr val, programByteBody_status a addr val s,
    fun a' n hne => ?_, ?_, ?_, programByteBody_controls a addr val s hd.2.2, hf.warnLog_take,
    hregs.answer hf hd _⟩
  · rw [State.readCell_answer]
    exact hother a' n hne
  · rw [State.readCell_answer]
    exact hf.fuses a addr.toNat
  · rw [State.readCell_answer]
    exact hown

/-! ### The short circuits -/

/-- A read transaction of a readable byte from a disarmed command register, with two ready polls: the
stored byte after nine accesses, no pulse, no array changed. -/
structure QuietRead (a : StorageArray) (addr : ByteAddr) (s : State) : Prop where
  status : (readByteBody a addr s).status = .ok
  byte : (readByteBody a addr s).byte = s.readCell a addr.toNat
  pulses : (readByteBody a addr s).state.pulseCount = s.pulseCount
  key : (readByteBody a addr s).state.key = s.key
  fuse : (readByteBody a addr s).state.fuse = s.fuse
  access : (readByteBody a addr s).state.regAccessCount = s.regAccessCount + 9

theorem QuietRead.of_disarmed {a : StorageArray} {addr : ByteAddr} {s : State}
    (ha : s.regs.armed = false) (hread : s.readable a addr.toNat = true) (hr : s.readyFor 2) :
    QuietRead a addr s := by
  obtain ⟨rs, hrs, -⟩ := exists_replicate_append (n := 2) 0 hr
  obtain ⟨hst, -, haccess⟩ := readByteBody_ready a addr s hrs
  obtain ⟨hkey, hfuse⟩ := readByteBody_arrays a addr s (.inr ha)
  exact ⟨hst, readByteBody_byte a addr s (.inr ha) hst hread, readByteBody_pulseCount a addr s ha,
    hkey, hfuse, haccess⟩

/-- Settles O37: verify-first reads the bit 1 and ends with the read transaction. -/
theorem verifyFirstShortCircuits : Obligations.VerifyFirstShortCircuits := by
  unfold Obligations.VerifyFirstShortCircuits
  intro a addr bit s hclk ha hread hr hbit
  have hq := QuietRead.of_disarmed ha hread hr
  have hset : (readByteBody a addr s).byte.getLsbD bit.toNat = true := by rw [hq.byte]; exact hbit
  have hbody : programBitBody a addr bit true s = (.ok, (readByteBody a addr s).state) := by
    simp only [programBitBody, bitIsProgrammedBody, hset, if_true]
  refine ⟨_, exec_programBit hclk a addr bit true, ?_⟩
  rw [hbody]
  exact ⟨rfl, hq.pulses, hq.key, hq.fuse, hq.access, rfl⟩

/-- With no bit to program the loop does nothing. -/
theorem programBits_of_none (a : StorageArray) (addr : ByteAddr) {tp : Byte} {bs : List BitPos}
    (h : ∀ b ∈ bs, tp.getLsbD b.toNat = false) (st : Status) (s : State) :
    programBits a addr tp bs st s = (st, s) := by
  induction bs with
  | nil => rfl
  | cons b bs ih =>
    rw [programBits, if_neg (by simp [h b]), ih fun b hb => h b (List.mem_cons_of_mem _ hb)]

/-- A bit of the one byte that is missing in the other (R184). -/
theorem getLsbD_missing (x y : Byte) (b : BitPos) :
    (~~~y &&& x).getLsbD b.toNat = (!y.getLsbD b.toNat && x.getLsbD b.toNat) := by
  have hb : b.toNat < 8 := b.isLt
  simp [hb]

/-- Containment bit by bit. -/
theorem bitsWithin_iff (x y : Byte) :
    bitsWithin x y ↔ ∀ b : BitPos, x.getLsbD b.toNat = true → y.getLsbD b.toNat = true := by
  constructor
  · intro h b hx
    rw [← show x ||| y = y from h, BitVec.getLsbD_or, hx, Bool.true_or]
  · refine fun h => BitVec.eq_of_getLsbD_eq fun j hj => ?_
    have hbit := h (BitVec.ofNat 3 j)
    rw [BitVec.toNat_ofNat, Nat.mod_eq_of_lt hj] at hbit
    rw [BitVec.getLsbD_or]
    cases hx : x.getLsbD j
    · rfl
    · rw [hbit hx]
      rfl

/-- Settles O40: the read finds no missing bit, and the loop does nothing. -/
theorem programByteIdempotent : Obligations.ProgramByteIdempotent := by
  unfold Obligations.ProgramByteIdempotent
  intro a addr val s hclk ha hread hr hwithin
  have hq := QuietRead.of_disarmed ha hread hr
  have hbody : programByteBody a addr val s = (.ok, (readByteBody a addr s).state) := by
    rw [programByteBody_eq, hq.byte, hq.status]
    refine programBits_of_none a addr (fun b _ => ?_) .ok _
    have hbit := (bitsWithin_iff _ _).1 hwithin b
    rw [getLsbD_missing]
    cases hv : val.getLsbD b.toNat
    · rw [Bool.and_false]
    · rw [hbit hv]
      rfl
  refine ⟨_, exec_programByte hclk a addr val, ?_⟩
  rw [hbody]
  exact ⟨rfl, hq.pulses, hq.key, hq.fuse, hq.access, rfl⟩

end Sys2Proof.Machine
end

section
/-! The program operations with listed answers (spec/43_otp_fsm.md R174, R180, R182, R184, R189): which pulses are
made, which bits they burn, and the status. -/

open Sys2Proof

namespace Sys2Proof.Machine

/-! ### PROGRAM_BIT -/

/-- Without verify-first PROGRAM_BIT is its algorithm (R176). -/
theorem programBitBody_of_not_verify (a : StorageArray) (addr : ByteAddr) (bit : BitPos) (s : State) :
    programBitBody a addr bit false s = programBitAlgo a addr bit s := if_neg Bool.false_ne_true

theorem programBitAlgo_of_smart {s : State} (h : s.cfg.progAlgo = .smart) (a : StorageArray)
    (addr : ByteAddr) (bit : BitPos) : programBitAlgo a addr bit s = programBitSmart a addr bit s := by
  simp only [programBitAlgo, h]

theorem programBitAlgo_of_legacy {s : State} (h : s.cfg.progAlgo = .legacy) (a : StorageArray)
    (addr : ByteAddr) (bit : BitPos) : programBitAlgo a addr bit s = programBitLegacy a addr bit s := by
  simp only [programBitAlgo, h]

/-- Settles O35: the smart transaction with its three polls and its pulse draw listed. -/
theorem smartProgramBitWhenReady : Obligations.SmartProgramBitWhenReady := by
  unfold Obligations.SmartProgramBitWhenReady
  intro a addr bit s p ps hal hclk hd hc hread hr hps
  obtain ⟨rs, hrs, -⟩ := exists_replicate_append (n := 3) 0 hr
  obtain ⟨hst, -, -, haccess, hpulses, hwarn, hcells⟩ :=
    programBitSmart_listed (bit := bit) hc hd hrs hps hread
  have hregs := programBitSmart_regs a addr bit s
  refine ⟨_, exec_programBit hclk a addr bit false, ?_⟩
  rw [programBitBody_of_not_verify, programBitAlgo_of_smart hal, State.readCell_answer, hcells, hst]
  refine ⟨by simp only [and_self, and_true]; rfl, rfl, haccess, hpulses, hwarn, ?_⟩
  simp only [State.deliver_regs, State.setMagic_regs, hregs, State.deliver_magic, State.setMagic_magic,
    and_self]

/-- The pulses of the legacy algorithm for every sequence of draws (R182): from 4 to 20, all 20 where it
fails. -/
theorem programBitLegacy_pulseCount (a : StorageArray) (addr : ByteAddr) (bit : BitPos) {s : State}
    (h : s.pulseWord ≠ s.cfg.armValue) :
    s.pulseCount + 4 ≤ (programBitLegacy a addr bit s).2.pulseCount ∧
    (programBitLegacy a addr bit s).2.pulseCount ≤ s.pulseCount + 20 ∧
    ((programBitLegacy a addr bit s).1 ≠ .ok →
      (programBitLegacy a addr bit s).2.pulseCount = s.pulseCount + 20) := by
  obtain ⟨hle, hfail, hok⟩ := legacyLoop_pulseCount a addr bit
    ((s.startProgram a addr bit).writeInProg true) 1 maxPulses
    (by simpa [State.pulseWord, State.startProgram] using h)
  have hstart : ((s.startProgram a addr bit).writeInProg true).pulseCount = s.pulseCount := by
    simp [State.startProgram]
  rw [hstart] at hle hfail hok
  simp only [programBitLegacy, State.setFsm_pulseCount, State.writeInProg_pulseCount,
    State.writeData_pulseCount]
  generalize legacyLoop a addr bit ((s.startProgram a addr bit).writeInProg true) 1 maxPulses = r at *
  have hlow : s.pulseCount + 4 ≤ r.2.pulseCount := by
    by_cases hst : r.1 = .ok
    · exact hok hst
    · rw [hfail hst, maxPulses]
      omega
  exact ⟨hlow, hle, hfail⟩

/-- A bit that is 1 stops the legacy pulses after the fourth. -/
theorem legacyPulses_of_set (ps : List Bool) : legacyPulses true 1 20 ps = 4 := rfl

theorem legacyPulses_of_clear (ps : List Bool) :
    legacyPulses false 1 20 ps = ProgAlgo.legacy.pulsesFor ps := by
  simp only [legacyPulses, ProgAlgo.pulsesFor, Bool.false_eq_true, if_false]
  omega

/-- One of the legacy algorithm's twenty pulses burns exactly if one of those it makes does. -/
theorem any_take_pulsesFor (ps : List Bool) :
    (ps.take (ProgAlgo.legacy.pulsesFor ps)).any id = (ps.take 20).any id := by
  simp only [any_take_eq, ProgAlgo.pulsesFor, decide_eq_decide]
  omega

/-- Setting a bit that is 1 changes nothing. -/
theorem or_bitMask_of_set {x : Byte} {bit : BitPos} (h : x.getLsbD bit.toNat = true) :
    x ||| bitMask bit.toNat = x := by
  refine BitVec.eq_of_getLsbD_eq fun j hj => ?_
  rw [BitVec.getLsbD_or, bitMask_bit hj]
  by_cases hb : j = bit.toNat
  · rw [hb, h, Bool.true_or]
  · rw [decide_eq_false hb, Bool.or_false]

/-- Settles O36: the pulse loop, for every sequence of draws and with its draws listed. -/
theorem legacyProgramBitPulses : Obligations.LegacyProgramBitPulses := by
  unfold Obligations.LegacyProgramBitPulses
  refine ⟨fun a addr bit s hal hclk hd hc => ?_, fun a addr bit s hal hclk hd hc hread hr hps => ?_⟩
  · have hword : s.pulseWord ≠ s.cfg.armValue := by
      unfold State.pulseWord
      rcases hc with h | h
      · rw [h]
        exact hd.1.symm
      · cases s.cfg.magicCap
        · exact hd.1.symm
        · exact h
    obtain ⟨hlow, hhigh, hfail⟩ := programBitLegacy_pulseCount a addr bit hword
    have hst := programBitLegacy_status a addr bit s
    have hregs := programBitLegacy_regs a addr bit s
    refine ⟨_, _, exec_programBit hclk a addr bit false, rfl, ?_⟩
    rw [programBitBody_of_not_verify, programBitAlgo_of_legacy hal]
    refine ⟨hlow, hhigh, fun h => ⟨hst.resolve_left h, hfail h⟩, ?_⟩
    simp only [State.deliver_regs, State.setMagic_regs, hregs, and_self]
  · obtain ⟨hst, -, -, hcount, hcells⟩ := programBitLegacy_draws (bit := bit) 0 hc hd hread hr hps
    refine ⟨_, exec_programBit hclk a addr bit false, ?_⟩
    rw [programBitBody_of_not_verify, programBitAlgo_of_legacy hal, State.readCell_answer, hcells, hst]
    simp only [and_self, and_true, State.deliver_pulseCount, State.setMagic_pulseCount, hcount]
    cases hbit : s.fuseBit a addr bit
    · rw [legacyPulses_of_clear, any_take_pulsesFor]
      exact ⟨rfl, rfl, rfl⟩
    · rw [legacyPulses_of_set]
      refine ⟨rfl, ?_, rfl⟩
      have hset : (s.readCell a addr.toNat) ||| bitMask bit.toNat = s.readCell a addr.toNat :=
        or_bitMask_of_set hbit
      rw [show (1#8 <<< bit.toNat : Byte) = bitMask bit.toNat from rfl, hset, ite_self, ite_self]

/-! ### PROGRAM_BYTE -/

theorem mem_bitPositions (b : BitPos) : b ∈ bitPositions := by
  revert b
  decide

/-- All bits of the value are there in the end exactly if all that were missing are. -/
theorem bitsWithin_iff_missing {x y v : Byte} (hxy : bitsWithin x y) :
    bitsWithin v y ↔
      ∀ b ∈ bitPositions, (~~~x &&& v).getLsbD b.toNat = true → y.getLsbD b.toNat = true := by
  rw [bitsWithin_iff] at hxy ⊢
  constructor
  · intro h b _ hb
    rw [getLsbD_missing, Bool.and_eq_true] at hb
    exact h b hb.2
  · intro h b hb
    cases hx : x.getLsbD b.toNat
    · exact h b (mem_bitPositions b) (by rw [getLsbD_missing, hx, hb]; rfl)
    · exact hxy b hx

theorem bitsWithin_or (x y : Byte) : bitsWithin x (x ||| y) := by
  show x ||| (x ||| y) = x ||| y
  rw [← BitVec.or_assoc, BitVec.or_self]

/-- PROGRAM_BYTE with its read listed: the loop over the bits missing in the stored byte. -/
theorem programByteBody_listed {s : State} {a : StorageArray} {addr : ByteAddr} (val : Byte)
    {rs : List Bool} (hd : s.cfg.DistinctCommands) (hr : s.draws.ready = true :: true :: rs)
    (hread : s.readable a addr.toNat = true) :
    programByteBody a addr val s =
      programBits a addr (~~~(s.readCell a addr.toNat) &&& val) bitPositions .ok
        (readByteBody a addr s).state := by
  obtain ⟨hst, hbyte, -⟩ := readByteBody_listed hd.2.2 hr hread
  rw [programByteBody_eq, hst, hbyte]

/-- PROGRAM_BYTE with every poll ready: the bits its pulse draws burn, and Ok exactly if none of the value
is missing in the end (R184). -/
theorem programByteBody_draws {s : State} {a : StorageArray} {addr : ByteAddr} (val : Byte)
    (hc : s.commandReady) (hd : s.cfg.DistinctCommands) (hread : s.readable a addr.toNat = true)
    (hr : s.readyFor 482) (hps : 160 ≤ s.draws.pulse.length) :
    (programByteBody a addr val s).2.readCell a addr.toNat = s.readCell a addr.toNat |||
      burntBits s.cfg.progAlgo (~~~(s.readCell a addr.toNat) &&& val) bitPositions s.draws.pulse ∧
    (programByteBody a addr val s).1 =
      if bitsWithin val ((programByteBody a addr val s).2.readCell a addr.toNat) then .ok
      else .hardwareError := by
  obtain ⟨rs, hrs, hrest⟩ := exists_replicate_append (n := 2) 480 hr
  obtain ⟨-, -, hready, hpulse, -, hcells⟩ := readByteBody_listed hd.2.2 hrs hread
  have hf := OtpFrame.readByteBody a addr s
  have hbits := programBits_draws (tp := ~~~(s.readCell a addr.toNat) &&& val) bitPositions
    (st := .ok) (.inl rfl) ((State.commandReady_congr hf.cfg hf.magic).2 hc) (by rw [hf.cfg]; exact hd)
    (by rw [State.readable_congr hf.keyAccessDisabled hf.locks]; exact hread)
    (by rw [State.readyFor, hready]; exact hrest) (by rw [hpulse]; exact hps) (by decide)
    (fun b _ hb => by
      rw [getLsbD_missing, Bool.and_eq_true, Bool.not_eq_true'] at hb
      rw [State.fuseBit, hcells]
      exact hb.1)
  rw [hcells, hpulse, hf.cfg] at hbits
  rw [programByteBody_listed val hd hrs hread, hbits.1, hbits.2]
  refine ⟨rfl, if_congr ?_ rfl rfl⟩
  rw [bitsWithin_iff_missing (bitsWithin_or _ _)]
  exact and_iff_right rfl

/-- A program transaction whose pulses all burn sets its bit, with six polls and four pulses at most
(R180, R182). -/
theorem programBitAlgo_burns {s : State} {a : StorageArray} {addr : ByteAddr} {bit : BitPos}
    (m n : Nat) (hc : s.commandReady) (hd : s.cfg.DistinctCommands)
    (hread : s.readable a addr.toNat = true) (hr : s.readyFor (m + 6)) (hb : s.burnsFor (n + 4)) :
    (programBitAlgo a addr bit s).1 = .ok ∧ (programBitAlgo a addr bit s).2.readyFor m ∧
    (programBitAlgo a addr bit s).2.burnsFor n ∧
    (programBitAlgo a addr bit s).2.readCell a addr.toNat =
      s.readCell a addr.toNat ||| bitMask bit.toNat := by
  cases hal : s.cfg.progAlgo with
  | smart =>
    obtain ⟨rs, hrs, hrest⟩ := exists_replicate_append (n := 3) (m + 3) hr
    obtain ⟨ps, hps, hprest⟩ := exists_replicate_append (n := 1) (n + 3) hb
    obtain ⟨hst, hready, hpulse, -, -, -, hcells⟩ :=
      programBitSmart_listed (bit := bit) hc hd hrs hps hread
    rw [programBitAlgo_of_smart hal, hst, hcells, State.readyFor, State.burnsFor, hready, hpulse]
    exact ⟨rfl, fun j hj => hrest j (by omega), fun j hj => hprest j (by omega), if_pos ⟨rfl, rfl, rfl⟩⟩
  | legacy =>
    obtain ⟨rs, hrs, hrest⟩ := exists_replicate_append (n := 6) m hr
    obtain ⟨ps, hps, hprest⟩ := exists_replicate_append (n := 4) n hb
    obtain ⟨hst, hready, hpulse, hcells⟩ := programBitLegacy_listed (bit := bit) hc hd hrs hps hread
    rw [programBitAlgo_of_legacy hal, hst, hcells, State.readyFor, State.burnsFor, hready, hpulse]
    exact ⟨rfl, hrest, hprest, if_pos ⟨rfl, rfl⟩⟩

/-- The loop of PROGRAM_BYTE whose pulses all burn: Ok, every bit asked for set (R189). -/
theorem programBits_burns {a : StorageArray} {addr : ByteAddr} {tp : Byte} (bs : List BitPos) {s : State}
    (hc : s.commandReady) (hd : s.cfg.DistinctCommands) (hread : s.readable a addr.toNat = true)
    (hr : s.readyFor (6 * bs.length)) (hb : s.burnsFor (4 * bs.length)) :
    (programBits a addr tp bs .ok s).1 = .ok ∧
    ∀ b ∈ bs, tp.getLsbD b.toNat = true →
      ((programBits a addr tp bs .ok s).2.readCell a addr.toNat).getLsbD b.toNat = true := by
  induction bs generalizing s with
  | nil => exact ⟨rfl, fun _ h => nomatch h⟩
  | cons c bs ih =>
    simp only [List.length_cons, Nat.mul_add] at hr hb
    rw [programBits]
    split_ifs with htp
    · obtain ⟨hst, hready, hburns, hcell⟩ :=
        programBitAlgo_burns (bit := c) (6 * bs.length) (4 * bs.length) hc hd hread hr hb
      have hf := OtpFrame.programBitAlgo a addr c s
      simp only [programBitBody_of_not_verify, hst]
      obtain ⟨ihst, ihbits⟩ := ih (s := (programBitAlgo a addr c s).2)
        ((State.commandReady_congr hf.cfg hf.magic).2 hc) (by rw [hf.cfg]; exact hd)
        (by rw [State.readable_congr hf.keyAccessDisabled hf.locks]; exact hread) hready hburns
      refine ⟨ihst, fun b hbm hbit => ?_⟩
      obtain rfl | hbm := List.mem_cons.1 hbm
      · have hkept := (OtpFrame.programBits a addr tp bs .ok (programBitAlgo a addr b s).2).fuses a
          addr.toNat
        refine (bitsWithin_iff _ _).1 hkept b ?_
        rw [hcell, BitVec.getLsbD_or, bitMask_self, Bool.or_true]
      · exact ihbits b hbm hbit
    · obtain ⟨ihst, ihbits⟩ := ih hc hd hread (fun j hj => hr j (by omega)) (fun j hj => hb j (by omega))
      refine ⟨ihst, fun b hbm hbit => ?_⟩
      obtain rfl | hbm := List.mem_cons.1 hbm
      · exact absurd hbit htp
      · exact ihbits b hbm hbit

/-- PROGRAM_BYTE whose pulses all burn ends at `old | val` with Ok (R189). -/
theorem programByteBody_burns {s : State} {a : StorageArray} {addr : ByteAddr} (val : Byte)
    (hc : s.commandReady) (hd : s.cfg.DistinctCommands) (hread : s.readable a addr.toNat = true)
    (hr : s.readyFor 50) (hb : s.burnsFor 32) :
    (programByteBody a addr val s).1 = .ok ∧
    (programByteBody a addr val s).2.readCell a addr.toNat = s.readCell a addr.toNat ||| val := by
  obtain ⟨rs, hrs, hrest⟩ := exists_replicate_append (n := 2) 48 hr
  obtain ⟨-, -, hready, hpulse, -, -⟩ := readByteBody_listed hd.2.2 hrs hread
  have hf := OtpFrame.readByteBody a addr s
  obtain ⟨hst, hbits⟩ := programBits_burns (tp := ~~~(s.readCell a addr.toNat) &&& val) bitPositions
    ((State.commandReady_congr hf.cfg hf.magic).2 hc) (by rw [hf.cfg]; exact hd)
    (by rw [State.readable_congr hf.keyAccessDisabled hf.locks]; exact hread)
    (by rw [State.readyFor, hready]; exact hrest) (by rw [State.burnsFor, hpulse]; exact hb)
  rw [← programByteBody_listed val hd hrs hread] at hst hbits
  have hold := (OtpFrame.programByteBody a addr val s).fuses a addr.toNat
  have hval := (bitsWithin_iff_missing hold).2 hbits
  have hmost : (programByteBody a addr val s).2.readCell a addr.toNat |||
      (s.readCell a addr.toNat ||| val) = s.readCell a addr.toNat ||| val :=
    (programByteBody_cells a addr val s hd.2.2).2
  refine ⟨hst, ?_⟩
  calc (programByteBody a addr val s).2.readCell a addr.toNat
      = s.readCell a addr.toNat ||| (val ||| (programByteBody a addr val s).2.readCell a addr.toNat) := by
        rw [show val ||| _ = _ from hval, show s.readCell a addr.toNat ||| _ = _ from hold]
    _ = s.readCell a addr.toNat ||| val := by
        rw [← BitVec.or_assoc, BitVec.or_comm, hmost]

/-- Settles O39: the loop with its draws listed, and with every draw burning. -/
theorem programByteReachesOr : Obligations.ProgramByteReachesOr := by
  unfold Obligations.ProgramByteReachesOr
  refine ⟨fun a addr val s hclk hd hc hread hr hps => ?_, fun a addr val s hclk hd hc hread hr hb => ?_⟩
  · obtain ⟨hcell, hst⟩ := programByteBody_draws val hc hd hread hr hps
    refine ⟨_, exec_programByte hclk a addr val, ?_⟩
    rw [State.readCell_answer]
    exact ⟨hcell, by rw [State.deliver_response, hst]⟩
  · obtain ⟨hst, hcell⟩ := programByteBody_burns val hc hd hread hr hb
    refine ⟨_, exec_programByte hclk a addr val, ?_⟩
    rw [State.readCell_answer, hst]
    exact ⟨hcell, rfl⟩

end Sys2Proof.Machine
end

section
/-! What the raw operations see of the gate (spec/42_access_gate.md R155), and program operations under a wrong
magic word (spec/45_magic_word.md R263). -/

open Sys2Proof

namespace Sys2Proof.Machine

/-! ### The gate -/

/-- Every byte of FuseArray is readable whatever the gate (R68). -/
theorem State.sameReadable_fuse (s : State) (ls : List LockRegs) (dis : Bool) (addr : ByteAddr) :
    s.SameReadable ls dis .fuse addr := rfl

/-- Settles O60: each body does the same from the state with the other gate, and delivers the same. -/
theorem rawOperationsIgnoreTheGate : Obligations.RawOperationsIgnoreTheGate := by
  unfold Obligations.RawOperationsIgnoreTheGate
  rintro i s t ls dis a addr ⟨bit, vfy, val, hi⟩ hsame hnext
  have hgate : s.SameReadable ls dis a addr := by
    obtain rfl | hsame := hsame
    · exact State.sameReadable_fuse s ls dis addr
    · exact hsame
  have hclk : s.clkValid = true :=
    clkValid_of_next (by obtain rfl | rfl | rfl | rfl := hi <;> rfl) hnext
  have hclk' : (s.regated ls dis s.response).clkValid = true := hclk
  change exec i (s.regated ls dis s.response) = _
  obtain rfl | rfl | rfl | rfl := hi
  · rw [exec_readByte hclk] at hnext
    cases hnext
    rw [exec_readByte hclk', readByteBody_regated ls dis _ hgate]
    rfl
  · rw [exec_bitIsProgrammed hclk] at hnext
    cases hnext
    rw [exec_bitIsProgrammed hclk', readByteBody_regated ls dis _ hgate]
    rfl
  · rw [exec_programBit hclk] at hnext
    cases hnext
    rw [exec_programBit hclk', programBitBody_regated ls dis _ bit vfy hgate]
    rfl
  · rw [exec_programByte hclk] at hnext
    cases hnext
    rw [exec_programByte hclk', programByteBody_regated ls dis _ val hgate]
    rfl

/-! ### A wrong magic word -/

/-- PROGRAM_BYTE whose pulses do not carry PROG_CMD changes no array. -/
theorem programByteBody_wrong (a : StorageArray) (addr : ByteAddr) (val : Byte) {s : State}
    (hd : s.cfg.DistinctCommands) (hw : s.pulseWord ≠ s.cfg.progCmd) :
    (programByteBody a addr val s).2.key = s.key ∧ (programByteBody a addr val s).2.fuse = s.fuse := by
  have hf := OtpFrame.readByteBody a addr s
  obtain ⟨hrkey, hrfuse⟩ := readByteBody_arrays a addr s (.inl hd.2.2)
  rw [programByteBody_eq]
  obtain ⟨hkey, hfuse⟩ := programBits_wrong a addr (~~~(readByteBody a addr s).byte &&& val) bitPositions
    (readByteBody a addr s).status (readByteBody a addr s).state (by rw [hf.cfg]; exact hd)
    (by rw [State.pulseWord, hf.cfg, hf.magic]; exact hw)
  exact ⟨hkey.trans hrkey, hfuse.trans hrfuse⟩

/-- PROGRAM_BIT with verify-first whose read finds the bit 0 is its algorithm after the read (R176). -/
theorem programBitBody_of_clear {a : StorageArray} {addr : ByteAddr} {bit : BitPos} {s : State}
    (h : (readByteBody a addr s).byte.getLsbD bit.toNat = false) :
    programBitBody a addr bit true s = programBitAlgo a addr bit (readByteBody a addr s).state := by
  simp only [programBitBody, bitIsProgrammedBody, h, if_true, Bool.false_eq_true, if_false]

/-- A value that is not all there has a missing bit. -/
theorem exists_missing {val x : Byte} (h : ¬bitsWithin val x) :
    ∃ b ∈ bitPositions, (~~~x &&& val).getLsbD b.toNat = true := by
  rw [bitsWithin_iff] at h
  push Not at h
  obtain ⟨b, hv, hx⟩ := h
  exact ⟨b, mem_bitPositions b, by rw [getLsbD_missing, hv, Bool.eq_false_of_not_eq_true hx]; rfl⟩

section Wrong

variable {s : State} (hc : s.cfg.magicCap = true) (hm : s.magic ≠ s.cfg.progCmd)

include hc hm

/-- PROGRAM_BIT with a bit to pulse logs the mismatch and issues the pulse. -/
theorem programBitBody_mismatched {a : StorageArray} {addr : ByteAddr} {bit : BitPos} {vfy : Bool}
    (hd : s.cfg.DistinctCommands) (h : s.hasBitToPulse (.programBit a addr bit vfy)) :
    Mismatched s (programBitBody a addr bit vfy s).2 := by
  cases vfy
  case false =>
    rw [programBitBody_of_not_verify]
    exact programBitAlgo_mismatched a addr bit hc hm
  case true =>
    obtain ⟨hread, hr, hbit⟩ := h
    obtain ⟨rs, hrs, -⟩ := exists_replicate_append (n := 2) 0 hr
    obtain ⟨-, hbyte, -⟩ := readByteBody_listed hd.2.2 hrs hread
    have hf := OtpFrame.readByteBody a addr s
    rw [programBitBody_of_clear (by rw [hbyte]; exact hbit)]
    exact Mismatched.afterRead a addr (programBitAlgo_mismatched a addr bit (by rw [hf.cfg]; exact hc)
      (by rw [hf.cfg, hf.magic]; exact hm))

/-- PROGRAM_BYTE with a bit to pulse logs the mismatch and issues the pulse. -/
theorem programByteBody_mismatched {a : StorageArray} {addr : ByteAddr} {val : Byte}
    (hd : s.cfg.DistinctCommands) (h : s.hasBitToPulse (.programByte a addr val)) :
    Mismatched s (programByteBody a addr val s).2 := by
  obtain ⟨hread, hr, hmissing⟩ := h
  obtain ⟨rs, hrs, -⟩ := exists_replicate_append (n := 2) 0 hr
  have hf := OtpFrame.readByteBody a addr s
  rw [programByteBody_listed val hd hrs hread]
  exact Mismatched.afterRead a addr (programBits_mismatched a addr (by rw [hf.cfg]; exact hc)
    (by rw [hf.cfg, hf.magic]; exact hm) .ok (exists_missing hmissing))

end Wrong

/-- Settles O56: no accepted pulse, so no burn; with a bit to pulse a mismatch and a pulse. -/
theorem wrongMagicBurnsNothing : Obligations.WrongMagicBurnsNothing := by
  unfold Obligations.WrongMagicBurnsNothing
  intro i s t hi hc hm hd hnext
  have hw : s.pulseWord ≠ s.cfg.progCmd := by rwa [State.pulseWord, hc]
  cases i
  case programBit a addr bit vfy =>
    rw [exec_programBit (clkValid_of_next rfl hnext)] at hnext
    cases hnext
    obtain ⟨hkey, hfuse⟩ := programBitBody_wrong a addr bit vfy s hd hw
    refine ⟨hkey, hfuse, fun h => ?_⟩
    obtain ⟨hlogged, hpulsed⟩ := programBitBody_mismatched hc hm hd h
    exact ⟨hlogged, hpulsed⟩
  case programByte a addr val =>
    rw [exec_programByte (clkValid_of_next rfl hnext)] at hnext
    cases hnext
    obtain ⟨hkey, hfuse⟩ := programByteBody_wrong a addr val hd hw
    refine ⟨hkey, hfuse, fun h => ?_⟩
    obtain ⟨hlogged, hpulsed⟩ := programByteBody_mismatched hc hm hd h
    exact ⟨hlogged, hpulsed⟩
  all_goals cases hi

end Sys2Proof.Machine
end
